-- ==== Sys2Proof/Word.lean ====
section
/-! DEFINITION. The widths of data the spec moves: bytes, 32-bit registers, and RGB24 triples (00_scope.md R7, R8). -/

namespace Sys2Proof

/-- A `u8` (R7). -/
abbrev Byte := BitVec 8

/-- A 32-bit register or a 32-bit value of the host port (10_state.md R38). -/
abbrev Word := BitVec 32

/-- An RGB24 triple, three `u8` channels (20_memory.md R62, 10_state.md R35). -/
structure Rgb where
  r : Byte
  g : Byte
  b : Byte
deriving DecidableEq, Repr

end Sys2Proof
end

