-- ==== Sys2Proof/Machine/Bytes.lean ====
section
/-! DEFINITION. Byte serialisation (00_scope.md R10) and the chunk tags (30_encoding.md R99). -/

namespace Sys2Proof.Machine

/-- `u8(v)`: the low eight bits (R10). -/
def u8 (v : Nat) : Byte := BitVec.ofNat 8 v

/-- `be16(v)`: `v[15:8], v[7:0]` (R10). -/
def be16 (v : Nat) : List Byte := [u8 (v / 2 ^ 8), u8 v]

/-- `be32(v)`: `v[31:24], v[23:16], v[15:8], v[7:0]` (R10). -/
def be32 (v : Nat) : List Byte := [u8 (v / 2 ^ 24), u8 (v / 2 ^ 16), u8 (v / 2 ^ 8), u8 v]

/-- `tag("FORM")` (30 R99). -/
def tagForm : List Byte := [0x46, 0x4F, 0x52, 0x4D]

/-- `tag("ILBM")` (30 R99). -/
def tagIlbm : List Byte := [0x49, 0x4C, 0x42, 0x4D]

/-- `tag("BMHD")` (30 R99). -/
def tagBmhd : List Byte := [0x42, 0x4D, 0x48, 0x44]

/-- `tag("CAMG")` (30 R99). -/
def tagCamg : List Byte := [0x43, 0x41, 0x4D, 0x47]

/-- `tag("CMAP")` (30 R99). -/
def tagCmap : List Byte := [0x43, 0x4D, 0x41, 0x50]

/-- `tag("BODY")` (30 R99). -/
def tagBody : List Byte := [0x42, 0x4F, 0x44, 0x59]

end Sys2Proof.Machine
end

