-- ==== Sys2Proof/Syntax.lean ====
section
/-! DEFINITION. The code elements of the block, one constructor per row of spec/opcode_table.json, with the four code
spaces of 30_encoding.md R90. -/

namespace Sys2Proof

/-- The code spaces (30_encoding.md R90). -/
inductive CodeSpace where
  | cmd
  | br1
  | ham6
  | iff
deriving DecidableEq, Repr

/-- One code of the table. A field is what the table or the rule of its code space gives it. -/
inductive Instr where
  /-- `NOP` 0x00 (44 R197). -/
  | nop
  /-- `ENCODE` 0x01 (44 R200). -/
  | encode
  /-- `RLE_COMPRESS` 0x02 (40 R132). -/
  | rleCompress
  /-- `RLE_DECOMPRESS` 0x03 (40 R133). -/
  | rleDecompress
  /-- `CLEAR` 0x04 (44 R198). -/
  | clear
  /-- Reserved code 0x05 (44 R211), as the six rows below it. -/
  | reserved05
  /-- Codes 0x06, 0x07: the free low bit. -/
  | reserved0607 (lo : BitVec 1)
  /-- Codes 0x08 to 0x0F. -/
  | reserved080F (lo : BitVec 3)
  /-- Codes 0x10 to 0x1F. -/
  | reserved101F (lo : BitVec 4)
  /-- Codes 0x20 to 0x3F. -/
  | reserved203F (lo : BitVec 5)
  /-- Codes 0x40 to 0x7F. -/
  | reserved407F (lo : BitVec 6)
  /-- Codes 0x80 to 0xFF. -/
  | reserved80FF (lo : BitVec 7)
  /-- `BR1.LIT` `0nnnnnnn` and its `n + 1` data bytes (30 R93). -/
  | br1Lit (n : BitVec 7) (data : List Byte)
  /-- `BR1.NOP` 0x80 (30 R93). -/
  | br1Nop
  /-- `BR1.REP`: control byte `0x80 + n`, `n` not 0, and its one data byte (30 R93). -/
  | br1Rep (n : BitVec 7) (data : Byte)
  /-- `HAM6.SET` `00dddd` (30 R97). -/
  | ham6Set (d : BitVec 4)
  /-- `HAM6.MODB` `01dddd` (42 R157). -/
  | ham6ModB (d : BitVec 4)
  /-- `HAM6.MODR` `10dddd` (42 R155). -/
  | ham6ModR (d : BitVec 4)
  /-- `HAM6.MODG` `11dddd` (42 R156). -/
  | ham6ModG (d : BitVec 4)
  /-- `IFF.FORM` (43 R168): the tag and the length placeholder. -/
  | iffForm
  /-- `IFF.ILBM` (43 R168): the form type. -/
  | iffIlbm
  /-- `IFF.BMHD` (43 R169). -/
  | iffBmhd
  /-- `IFF.CAMG` (43 R171). -/
  | iffCamg
  /-- `IFF.CMAP` (43 R172). -/
  | iffCmap
  /-- `IFF.BODY` (43 R176 to R181). -/
  | iffBody
deriving DecidableEq, Repr

/-- The code space a code belongs to (30 R90). -/
def Instr.space : Instr → CodeSpace
  | .nop => .cmd
  | .encode => .cmd
  | .rleCompress => .cmd
  | .rleDecompress => .cmd
  | .clear => .cmd
  | .reserved05 => .cmd
  | .reserved0607 _ => .cmd
  | .reserved080F _ => .cmd
  | .reserved101F _ => .cmd
  | .reserved203F _ => .cmd
  | .reserved407F _ => .cmd
  | .reserved80FF _ => .cmd
  | .br1Lit _ _ => .br1
  | .br1Nop => .br1
  | .br1Rep _ _ => .br1
  | .ham6Set _ => .ham6
  | .ham6ModB _ => .ham6
  | .ham6ModR _ => .ham6
  | .ham6ModG _ => .ham6
  | .iffForm => .iff
  | .iffIlbm => .iff
  | .iffBmhd => .iff
  | .iffCamg => .iff
  | .iffCmap => .iff
  | .iffBody => .iff

end Sys2Proof
end

