-- ==== Sys2Proof/WellFormed.lean ====
section
/-! DEFINITION. What a code element must satisfy to have an encoding (30_encoding.md R93 and the table's `excludes`). -/

namespace Sys2Proof

/-- A LIT block governs exactly `n + 1` data bytes, and a REP control byte is never 0x80 (30 R93). Every other
constructor's fields are exactly its free bits. -/
def Instr.wellFormed : Instr → Bool
  | .br1Lit n data => data.length == n.toNat + 1
  | .br1Rep n _ => n != 0
  | .nop => true
  | .encode => true
  | .rleCompress => true
  | .rleDecompress => true
  | .clear => true
  | .reserved05 => true
  | .reserved0607 _ => true
  | .reserved080F _ => true
  | .reserved101F _ => true
  | .reserved203F _ => true
  | .reserved407F _ => true
  | .reserved80FF _ => true
  | .br1Nop => true
  | .ham6Set _ => true
  | .ham6ModB _ => true
  | .ham6ModR _ => true
  | .ham6ModG _ => true
  | .iffForm => true
  | .iffIlbm => true
  | .iffBmhd => true
  | .iffCamg => true
  | .iffCmap => true
  | .iffBody => true

end Sys2Proof
end

