-- ==== Sys2Proof/Decode.lean ====
section
/-! DEFINITION. The decoder of the four code spaces, total on any bytes and rejecting by name, and after it the encoder
(30_encoding.md R91 to R99). -/

namespace Sys2Proof

/-- Why bytes are no code element of a code space. -/
inductive DecodeError where
  /-- There is no byte to read. -/
  | noByte
  /-- A BR1 block's data bytes end early (40_rle_byterun1.md R131). -/
  | truncatedBlock
  /-- A HAM6 code has six bits (30 R96); a byte with bit 6 or 7 set is none. -/
  | notSixBits
  /-- Fewer than the four bytes of a tag (30 R98). -/
  | truncatedTag
  /-- "No other tag is emitted, and the block recognises none" (30 R100). -/
  | unknownTag
deriving DecidableEq, Repr

/-- A command code (30 R91, R92): every byte is one. -/
def decodeCmd (c : Byte) : Instr :=
  if c = 0x00 then .nop
  else if c = 0x01 then .encode
  else if c = 0x02 then .rleCompress
  else if c = 0x03 then .rleDecompress
  else if c = 0x04 then .clear
  else if c = 0x05 then .reserved05
  else if c.extractLsb' 1 7 = 3 then .reserved0607 (c.extractLsb' 0 1)
  else if c.extractLsb' 3 5 = 1 then .reserved080F (c.extractLsb' 0 3)
  else if c.extractLsb' 4 4 = 1 then .reserved101F (c.extractLsb' 0 4)
  else if c.extractLsb' 5 3 = 1 then .reserved203F (c.extractLsb' 0 5)
  else if c.extractLsb' 6 2 = 1 then .reserved407F (c.extractLsb' 0 6)
  else .reserved80FF (c.extractLsb' 0 7)

/-- A ByteRun1 block (30 R93): the control byte `c` decides class and length; 0x80 is NOP before it is REP. -/
def decodeBr1 (c : Byte) (bs : List Byte) : Except DecodeError (Instr × List Byte) :=
  if c.toNat ≤ 127 then
    if bs.length < c.toNat + 1 then .error .truncatedBlock
    else .ok (.br1Lit (c.extractLsb' 0 7) (bs.take (c.toNat + 1)), bs.drop (c.toNat + 1))
  else if c = 0x80 then .ok (.br1Nop, bs)
  else
    match bs with
    | [] => .error .truncatedBlock
    | b :: rest => .ok (.br1Rep (c.extractLsb' 0 7) b, rest)

/-- A 6-bit HAM code in the low bits of a byte (30 R96). -/
def decodeHam6 (c : Byte) : Except DecodeError Instr :=
  if c.extractLsb' 6 2 ≠ 0 then .error .notSixBits
  else if c.extractLsb' 4 2 = 0 then .ok (.ham6Set (c.extractLsb' 0 4))
  else if c.extractLsb' 4 2 = 1 then .ok (.ham6ModB (c.extractLsb' 0 4))
  else if c.extractLsb' 4 2 = 2 then .ok (.ham6ModR (c.extractLsb' 0 4))
  else .ok (.ham6ModG (c.extractLsb' 0 4))

/-- A chunk tag (30 R99). -/
def decodeTag (t : List Byte) : Except DecodeError Instr :=
  if t = Machine.tagForm then .ok .iffForm
  else if t = Machine.tagIlbm then .ok .iffIlbm
  else if t = Machine.tagBmhd then .ok .iffBmhd
  else if t = Machine.tagCamg then .ok .iffCamg
  else if t = Machine.tagCmap then .ok .iffCmap
  else if t = Machine.tagBody then .ok .iffBody
  else .error .unknownTag

/-- The first code element of `bs` in a code space, and the bytes after it. -/
def decode (sp : CodeSpace) (bs : List Byte) : Except DecodeError (Instr × List Byte) :=
  match sp, bs with
  | .iff, b0 :: b1 :: b2 :: b3 :: rest => (decodeTag [b0, b1, b2, b3]).map fun i => (i, rest)
  | .iff, _ => .error .truncatedTag
  | _, [] => .error .noByte
  | .cmd, c :: rest => .ok (decodeCmd c, rest)
  | .br1, c :: rest => decodeBr1 c rest
  | .ham6, c :: rest => (decodeHam6 c).map fun i => (i, rest)

/-- The bytes of a well-formed code element, from the encodings of 30 R91, R92, R93, R96, R99. -/
def encode : Instr → List Byte
  | .nop => [0x00]
  | .encode => [0x01]
  | .rleCompress => [0x02]
  | .rleDecompress => [0x03]
  | .clear => [0x04]
  | .reserved05 => [0x05]
  | .reserved0607 lo => [(0b0000011#7) ++ lo]
  | .reserved080F lo => [(0b00001#5) ++ lo]
  | .reserved101F lo => [(0b0001#4) ++ lo]
  | .reserved203F lo => [(0b001#3) ++ lo]
  | .reserved407F lo => [(0b01#2) ++ lo]
  | .reserved80FF lo => [(0b1#1) ++ lo]
  | .br1Lit n data => ((0b0#1) ++ n) :: data
  | .br1Nop => [0x80]
  | .br1Rep n data => [(0b1#1) ++ n, data]
  | .ham6Set d => [(0b0000#4) ++ d]
  | .ham6ModB d => [(0b0001#4) ++ d]
  | .ham6ModR d => [(0b0010#4) ++ d]
  | .ham6ModG d => [(0b0011#4) ++ d]
  | .iffForm => Machine.tagForm
  | .iffIlbm => Machine.tagIlbm
  | .iffBmhd => Machine.tagBmhd
  | .iffCamg => Machine.tagCamg
  | .iffCmap => Machine.tagCmap
  | .iffBody => Machine.tagBody

/-- The code space and the bytes of a table word of `nbits` bits. 8-bit words of CMD, BR1 and HAM6 are the same numbers;
the one code space whose codes the block fetches from the host is CMD, so an 8-bit word is a command, a 6-bit one a HAM6
code and a 32-bit one a tag, most significant byte first as OUT stores it (log 3, DESIGN CHOICE). -/
def tableWordBytes (nbits w : Nat) : Option (CodeSpace × List Byte) :=
  if nbits = 6 then some (.ham6, [Machine.u8 w])
  else if nbits = 8 then some (.cmd, [Machine.u8 w])
  else if nbits = 32 then some (.iff, Machine.be32 w)
  else none

/-- The code element the decoder reads from a table word. -/
def decodeTableWord (nbits w : Nat) : Option Instr :=
  match tableWordBytes nbits w with
  | none => none
  | some (sp, bs) =>
    match decode sp bs with
    | .ok (i, _) => some i
    | .error _ => none

end Sys2Proof
end

