-- ==== Sys2Proof/Config.lean ====
section
/-! DEFINITION. The implementation parameters of 00_scope.md R5 with the value each takes in this hardware, and the
free values of the model. -/

namespace Sys2Proof.Config

/-- `MAX_DIM`: largest legal WIDTH and HEIGHT. -/
abbrev maxDim : Nat := 65535

/-- `HAM_PLANES`: bitplanes in HAM mode. -/
abbrev hamPlanes : Nat := 6

/-- `HAM_PAL`: palette entries written in HAM mode. -/
abbrev hamPal : Nat := 16

/-- `PAL_MIN`. -/
abbrev palMin : Nat := 2

/-- `PAL_MAX`. -/
abbrev palMax : Nat := 256

/-- `HAM_INIT`: the accumulator at the start of every row, the same for the three channels. -/
abbrev hamInit : BitVec 4 := 0

/-- `RLE_MIN_RUN`: shortest run coded as a repeat. -/
abbrev rleMinRun : Nat := 3

/-- `RLE_MAX_RUN`: longest run in one repeat block. -/
abbrev rleMaxRun : Nat := 127

/-- `RLE_MAX_LIT`: longest literal block. -/
abbrev rleMaxLit : Nat := 127

/-- `CAMG_HAM`: the CAMG flags word. -/
abbrev camgHam : Nat := 0x800

/-- `XASPECT`. -/
abbrev xAspect : Nat := 1

/-- `YASPECT`. -/
abbrev yAspect : Nat := 1

/-- `FORCE_BLACK0`: force palette entry 0 to black. -/
abbrev forceBlack0 : Bool := false

/-- `RLE_TRAIL_QUIRK`: the trailing byte of a row is a literal block of one byte. -/
abbrev rleTrailQuirk : Bool := true

/-- `CMAP_SCALE_HAM`: CMAP bytes in HAM mode are quantised and scaled as in Indexed mode. -/
abbrev cmapScaleHam : Bool := true

/-- `PLACEHOLDER`: the bytes written where a length will be patched. -/
abbrev placeholder : List Byte := [0x00, 0x00, 0x00, 0x00]

/-- `ROW_CAP`: capacity of ROWIN in bytes. -/
abbrev rowCap : Nat := 65535

/-- FREE VALUE (log 7, DESIGN CHOICE that the value is unstated): what FAULT_VALUE holds after an `IOFailure` at a sink
length that does not fit its 32 bits. 60_exceptions.md R218 says `len(OUT)` and 10_state.md R28 gives 32 bits; nothing
says what is left of a longer length. The argument is the draw's number, `State.freeTick`. -/
opaque freeFaultValue : Nat → Word

/-- FREE VALUE (log 30): what a PLN byte holds after a validation fault. 93_implementation_defined.md U3 lets it be any
value. The arguments are the draw's number, `State.freeTick`, and the byte's key. -/
opaque freePlnByte : Nat → Nat → Byte

end Sys2Proof.Config
end

