-- ==== Sys2Proof/Machine/State.lean ====
section
/-! DEFINITION. The state of the block and of what the host holds for it, as plain data; the reasons a step stops; reset. -/

namespace Sys2Proof.Machine

/-- STATUS.STATE (10_state.md R26). -/
inductive Status where
  | idle
  | busy
  | done
  | fault
deriving DecidableEq, Repr

/-- PHASE (10_state.md R30), in the order of its codes 0 to 12. -/
inductive Phase where
  | idle
  | validate
  | pixels
  | openSink
  | form
  | bmhd
  | camg
  | cmap
  | body
  | bodyFix
  | formFix
  | close
  | rle
deriving DecidableEq, Repr

/-- A fault of the block (60_exceptions.md R215). Raising one is a next state, not a stop of the model. -/
inductive Cause where
  | invalidPaletteSize
  | unsupportedChipset
  | ioFailure
  | invalidDimensions
  | malformedRle
  | lengthOverflow
deriving DecidableEq, Repr

/-- A pixel of the raster in one of its two variants (20_memory.md R61). -/
inductive Pixel where
  | index (v : Byte)
  | trueColor (c : Rgb)
deriving DecidableEq, Repr

/-- A memory: pairs of key and value. The canonical form is keys strictly rising. A key that is not listed holds no
value (70_reset_and_hazards.md R245), so no listed entry can equal what an unlisted one reads as.
`Memory Byte` is a list of `Host.Cell`. -/
abbrev Memory (α : Type) := List (Nat × α)

/-- The canonical form of a memory. -/
abbrev Memory.wf {α : Type} (m : Memory α) : Prop := m.Pairwise fun a b => a.1 < b.1

/-- What a read of the host port returned (44_sequencer.md R209). The model's own field type (log 21). -/
inductive Returned where
  | nothing
  | word (v : Word)
  | byte (v : Byte)
  | triple (c : Rgb)
deriving DecidableEq, Repr

/-- What the host can do between commands (44 R195), one per step. -/
inductive HostAction where
  /-- `RegWrite(n, v)`; `n = 0` is a command (30 R91). -/
  | regWrite (n : BitVec 8) (v : Word)
  /-- `RegRead(n)` (44 R209). -/
  | regRead (n : BitVec 8)
  /-- `MemWrite(PAL, i, c)` (44 R199). -/
  | palWrite (i : BitVec 8) (c : Rgb)
  /-- `MemRead(PAL, i)`. -/
  | palRead (i : BitVec 8)
  /-- `MemWrite(ROWIN, i, v)` (44 R199). -/
  | rowinWrite (i : Nat) (v : Byte)
  /-- `MemRead(ROWIN, i)`. -/
  | rowinRead (i : Nat)
  /-- `MemWrite(ROWOUT, i, v)`, ignored (44 R199). -/
  | rowoutWrite (i : Nat) (v : Byte)
  /-- `MemRead(ROWOUT, i)`. -/
  | rowoutRead (i : Nat)
  /-- `MemWrite(PLN, (p, y, b), v)`, ignored (44 R199). -/
  | plnWrite (p : BitVec 3) (y : BitVec 16) (b : BitVec 13) (v : Byte)
  /-- `MemRead(PLN, (p, y, b))`. -/
  | plnRead (p : BitVec 3) (y : BitVec 16) (b : BitVec 13)
  /-- The host provides a raster of `width` columns and `height` rows behind `PixRead`, none of whose pixels is defined yet
  (20 R61, 70 R248 (3); log 31). -/
  | rasterProvide (width height : Word)
  /-- The host defines the pixel `(x, y)` of its raster (30 R105, line `PIX`), which then reaches at least to that column and
  row (log 31). -/
  | pixDefine (x y : BitVec 16) (v : Pixel)
  /-- The host fixes the answers of the coming fallible sink operations (20 R75; 30 R105, line `FAILAT`). -/
  | setOracle (answers : List Bool)
  /-- Hardware reset (70 R245). -/
  | hardReset
  /-- NOT an action of the spec's host: the model's own port that runs one code element of a code space alone (log 2). -/
  | unit (sp : CodeSpace) (bytes : List Byte)
deriving DecidableEq, Repr

/-- The working registers of RLC (10_state.md R33) with the variable `out` of 40 R121 and R128 (log 11). -/
structure RlcRegs where
  /-- `I`, the cursor into the row. -/
  i : Nat
  /-- `RUN`. -/
  run : BitVec 7
  /-- `CNT`. -/
  cnt : BitVec 7
  /-- `J`, the look-ahead cursor. -/
  j : Nat
  /-- `out`. -/
  out : List Byte
deriving DecidableEq, Repr

/-- The machine. INVENTORY.md, heading State, gives the rule and the reset value of every field. -/
structure State where
  /-- WIDTH (R21). -/
  width : Word
  /-- HEIGHT (R22). -/
  height : Word
  /-- PALSIZE (R23). -/
  palsize : Word
  /-- CTRL bits 9:0 (R24); bits 31:10 have no storage (log 8). -/
  ctrl : BitVec 10
  /-- ROWLEN (R25). -/
  rowlen : Word
  /-- STATUS.STATE (R26). -/
  status : Status
  /-- STATUS.SINK_OPEN (R26). -/
  sinkOpen : Bool
  /-- CAUSE (R27). -/
  cause : Byte
  /-- FAULT_CHUNK (R28). -/
  faultChunk : Byte
  /-- FAULT_PLANE (R28). -/
  faultPlane : Byte
  /-- FAULT_ROW (R28). -/
  faultRow : Word
  /-- FAULT_VALUE (R28). -/
  faultValue : Word
  /-- NPLANES (R29). -/
  nplanes : Word
  /-- ROWBYTES (R29). -/
  rowbytes : Word
  /-- OUTLEN (R29). -/
  outlen : Word
  /-- PHASE (R30). -/
  phase : Phase
  /-- X (R31). -/
  x : BitVec 16
  /-- Y (R31). -/
  y : BitVec 16
  /-- P (R31). -/
  p : BitVec 4
  /-- HR (R32). -/
  hr : BitVec 4
  /-- HG (R32). -/
  hg : BitVec 4
  /-- HB (R32). -/
  hb : BitVec 4
  /-- I, RUN, CNT, J and RLC's `out` (R33). -/
  rlc : RlcRegs
  /-- FORM_LEN_OFF (R34). -/
  formLenOff : Nat
  /-- BODY_LEN_OFF (R34). -/
  bodyLenOff : Nat
  /-- BODY_START (R34). -/
  bodyStart : Nat
  /-- BODY_LEN (R34). -/
  bodyLen : Nat
  /-- FILE_LEN (R34). -/
  fileLen : Nat
  /-- The width of the host's raster, RasterImage's own (20 R61, R37, 70 R248); WIDTH is the block's register. -/
  rasterWidth : Word
  /-- The height of the host's raster (20 R61, R37, 70 R248). -/
  rasterHeight : Word
  /-- PIX, the pixels of the host's raster that are defined, keyed by `pixKey` (R35, 20 R61). -/
  pix : Memory Pixel
  /-- PAL, keyed by the entry's number (20 R62). -/
  pal : Memory Rgb
  /-- PLN, keyed by `plnKey` (20 R63). -/
  pln : Memory Byte
  /-- ROWIN (20 R64). -/
  rowin : Memory Byte
  /-- ROWOUT (20 R64). -/
  rowout : Memory Byte
  /-- OUT, the host's sink (20 R65). -/
  out : List Byte
  /-- WPOS (R36). -/
  wpos : Nat
  /-- The answers of the coming fallible sink operations; when it is empty they succeed (20 R75, log 4). -/
  oracle : List Bool
  /-- The host actions not yet performed, the next one first (log 1). -/
  pending : List HostAction
  /-- What the host's last read returned (log 21). -/
  returned : Returned
  /-- How many free values the run has drawn (log 7, log 30). -/
  freeTick : Nat
deriving DecidableEq, Repr

/-- Stops for an access to an element the spec says does not exist. -/
inductive Fault where
  /-- Raised by the host port on a ROWIN or ROWOUT index at or above the space's size (20 R60). Safe: the model stops. -/
  | noSuchElement
deriving DecidableEq, Repr

/-- Stops for a situation the spec gives no meaning. Every one is safe: the model stops. -/
inductive Refusal where
  /-- Raised by `exec` for an instruction that has no meaning in the model yet. -/
  | notModelled (mnemonic : String)
  /-- Raised by the host port, and by the commands other than NOP and the reserved codes, when STATE = BUSY
  (70 R249, 93 U9, U12). -/
  | hostMoveWhileBusy
  /-- Raised by ENCODE when the raster's dimensions are not WIDTH and HEIGHT (93 U8, 70 R248). -/
  | wrongRasterSize
  /-- Raised by ENCODE on a pixel the host has not defined (20 R61, 44 R213). -/
  | noValuePixel
  /-- Raised by ENCODE on a pixel of the other variant than MODE's (44 R205, 93 U8). -/
  | wrongPixelKind
  /-- Raised by ENCODE, IFF.CMAP and MemRead on a PAL entry that holds no value (44 R209, R213). -/
  | noValuePal
  /-- Raised by the RLE commands and MemRead on a ROWIN byte that holds no value (40 R132, 44 R209, R213). -/
  | noValueRowin
  /-- Raised by MemRead on a ROWOUT byte that holds no value (44 R209). -/
  | noValueRowout
  /-- Raised by IFF.BODY and MemRead on a PLN byte that holds no value (44 R209). -/
  | noValuePln
  /-- Raised by the RLE commands when ROWLEN is above ROW_CAP (40 R132). -/
  | rowlenAboveCap
  /-- Raised by RLE_DECOMPRESS when its output exceeds 2 * ROW_CAP bytes (40 R133). -/
  | rowoutAboveCap
  /-- Raised by HAM6.SET, a code that is never produced and has no meaning (30 R97, 93 U4). -/
  | hamSetNeverProduced
  /-- Raised by a sink append whose precondition `WPOS = len(OUT)` does not hold (20 R71). -/
  | sinkNotAtEnd
  /-- Raised by a sink patch whose precondition `off + 4 <= len(OUT)` and `v < 2^32` does not hold (20 R73). -/
  | patchOutsideOut
  /-- Raised by the model's own unit port on bytes that are no element of the code space (log 2). -/
  | undecodable
deriving DecidableEq, Repr

/-- The RLC registers after reset (70 R245). -/
def RlcRegs.reset : RlcRegs := { i := 0, run := 0, cnt := 0, j := 0, out := [] }

/-- The machine right after reset (70 R245): every register 0, STATE IDLE, no sink held, no memory element with a value.
OUT and the raster are the host's: nothing is assumed of them but what log 5 names (empty). -/
def State.reset : State where
  width := 0
  height := 0
  palsize := 0
  ctrl := 0
  rowlen := 0
  status := .idle
  sinkOpen := false
  cause := 0
  faultChunk := 0
  faultPlane := 0
  faultRow := 0
  faultValue := 0
  nplanes := 0
  rowbytes := 0
  outlen := 0
  phase := .idle
  x := 0
  y := 0
  p := 0
  hr := 0
  hg := 0
  hb := 0
  rlc := RlcRegs.reset
  formLenOff := 0
  bodyLenOff := 0
  bodyStart := 0
  bodyLen := 0
  fileLen := 0
  rasterWidth := 0
  rasterHeight := 0
  pix := []
  pal := []
  pln := []
  rowin := []
  rowout := []
  out := []
  wpos := 0
  oracle := []
  pending := []
  returned := .nothing
  freeTick := 0

end Sys2Proof.Machine
end

