-- ==== Sys2Proof/Machine/Ops.lean ====
section
/-! DEFINITION. The shared operations: memories, the flow of a command, raising a fault and returning from one, the sink. -/

namespace Sys2Proof.Machine

/-! ## Memories (20_memory.md R60 to R64) -/

/-- The element at `a`, none when it holds no value. -/
def memRead {α : Type} : Memory α → Nat → Option α
  | [], _ => none
  | (k, v) :: m, a => if k = a then some v else memRead m a

/-- Store `v` at `a`, keeping the keys rising. -/
def memWrite {α : Type} : Memory α → Nat → α → Memory α
  | [], a, v => [(a, v)]
  | (k, w) :: m, a, v =>
    if a < k then (a, v) :: (k, w) :: m
    else if a = k then (a, v) :: m
    else (k, w) :: memWrite m a v

/-- Store the bytes of `bs` at `a`, `a + 1`, and so on. -/
def memWriteList {α : Type} : Memory α → Nat → List α → Memory α
  | m, _, [] => m
  | m, a, v :: vs => memWriteList (memWrite m a v) (a + 1) vs

/-- The `n` elements from `a` on, none when one of them holds no value. -/
def memReadList {α : Type} (m : Memory α) : Nat → Nat → Option (List α)
  | _, 0 => some []
  | a, n + 1 =>
    match memRead m a, memReadList m (a + 1) n with
    | some v, some vs => some (v :: vs)
    | _, _ => none

/-- The key of pixel `(x, y)`: row-major with a fixed stride, which keeps the pairs of R61 apart. -/
def pixKey (x y : Nat) : Nat := y * 2 ^ 16 + x

/-- The key of `PLN[p][y][b]`. R63's own offset is not observable, "a model may index PLN by the triple directly": fixed
strides for the largest HEIGHT and ROWBYTES (R12) keep the triples apart whatever WIDTH and HEIGHT hold (log 12). -/
def plnKey (p y b : Nat) : Nat := (p * 2 ^ 16 + y) * 2 ^ 13 + b

/-- `PLN[p][y][b]`, none outside the largest bitmap (20 R60, R12) and where it holds no value. -/
def plnRead (m : Memory Byte) (p y b : Nat) : Option Byte :=
  if p < 2 ^ 3 ∧ y < 2 ^ 16 ∧ b < 2 ^ 13 then memRead m (plnKey p y b) else none

/-- `PLN[p][y][b] <- PLN[p][y][b] OR mask` (41 R142). A byte that holds no value still holds none (log 13). -/
def plnOr (m : Memory Byte) (p y b : Nat) (mask : Byte) : Memory Byte :=
  match plnRead m p y b with
  | none => m
  | some v => memWrite m (plnKey p y b) (v ||| mask)

/-- The zero-filled bitmap (41 R141): every byte of `n` planes of `h` rows of `rb` bytes is 0x00, and nothing an earlier
command left survives. -/
def plnZero (n h rb : Nat) : Memory Byte :=
  (List.range n).flatMap fun p => (List.range h).flatMap fun y => (List.range rb).map fun b => (plnKey p y b, 0x00)

/-! ## The flow of a command -/

/-- What a part of a command leads to: it went on, it raised a fault that ended the command (60 R222), or it has no
meaning. -/
inductive Flow where
  | go (s : State)
  | raised (s : State)
  | refused (r : Refusal)
deriving DecidableEq, Repr

/-- The rest of a command runs only where the part before it went on (60 R222: "the command's remaining steps are not
executed"). -/
def Flow.andThen : Flow → (State → Flow) → Flow
  | .go s, k => k s
  | .raised s, _ => .raised s
  | .refused r, _ => .refused r

/-- A command that raised a fault has ended in a next state. -/
def Flow.outcome : Flow → Host.Outcome State Fault Refusal
  | .go s => .next s
  | .raised s => .next s
  | .refused r => .refused r

/-- `for i in is: body`, in order. -/
def forEach (body : Nat → State → Flow) : List Nat → State → Flow
  | [], s => .go s
  | i :: is, s => (body i s).andThen (forEach body is)

/-! ## Taking a fault and returning from it (60_exceptions.md) -/

/-- The cause codes (60 R215). -/
def causeCode : Cause → Byte
  | .invalidPaletteSize => 1
  | .unsupportedChipset => 2
  | .ioFailure => 3
  | .invalidDimensions => 4
  | .malformedRle => 5
  | .lengthOverflow => 6

/-- The context a fault reports (60 R230). Fields not given are 0 (R222). -/
structure Context where
  chunk : Byte := 0
  row : Word := 0
  plane : Byte := 0
deriving DecidableEq, Repr

/-- FAULT_CHUNK 1, OPEN (60 R230), and the other chunk codes below. -/
def ctxOpen : Context := { chunk := 1 }
/-- FORM. -/
def ctxForm : Context := { chunk := 2 }
/-- BMHD. -/
def ctxBmhd : Context := { chunk := 3 }
/-- CAMG. -/
def ctxCamg : Context := { chunk := 4 }
/-- CMAP. -/
def ctxCmap : Context := { chunk := 5 }
/-- BODY, its tag or placeholder. -/
def ctxBody : Context := { chunk := 6 }
/-- BODY, the plane-row of the cursors Y and P (10 R31). -/
def ctxPlaneRow (s : State) : Context := { chunk := 6, row := s.y.setWidth 32, plane := s.p.setWidth 8 }
/-- BODYFIX. -/
def ctxBodyFix : Context := { chunk := 7 }
/-- FORMFIX. -/
def ctxFormFix : Context := { chunk := 8 }

/-- `SinkClose()` (20 R74). -/
def sinkClose (s : State) : State := { s with sinkOpen := false }

/-- The sink is released on every exit path (60 R222, first line). -/
def releaseSink (s : State) : State := if s.sinkOpen then sinkClose { s with phase := .close } else s

/-- `raise Fault(cause, chunk, row, plane, value)` (60 R222). -/
def raiseFault (c : Cause) (ctx : Context) (value : Word) (s : State) : State :=
  { releaseSink s with
    cause := causeCode c
    faultChunk := ctx.chunk
    faultRow := ctx.row
    faultPlane := ctx.plane
    faultValue := value
    phase := .idle
    status := .fault }

/-- The return from a fault (60 R226): what `CLEAR` writes (44 R198). -/
def clearFault (s : State) : State :=
  { s with
    status := .idle
    cause := 0
    faultChunk := 0
    faultPlane := 0
    faultRow := 0
    faultValue := 0 }

/-- `IOFailure` (60 R218) with FAULT_VALUE = `len(OUT)` at the failure; a length that does not fit the 32-bit register
leaves a free value (log 7). -/
def ioFailure (ctx : Context) (s : State) : State :=
  if s.out.length < 2 ^ 32 then raiseFault .ioFailure ctx (BitVec.ofNat 32 s.out.length) s
  else raiseFault .ioFailure ctx (Config.freeFaultValue s.freeTick) { s with freeTick := s.freeTick + 1 }

/-- After a validation fault the bytes of PLN are any value (93 U3): every byte that holds a value is drawn anew, and one
that holds none still holds none (log 30). -/
def drawPln (s : State) : State :=
  { s with
    pln := s.pln.map fun e => (e.1, Config.freePlnByte s.freeTick e.1)
    freeTick := s.freeTick + 1 }

/-- A fault of validation: no context but the offending value (60 R230), and PLN drawn (93 U3). -/
def rejectConfig (c : Cause) (value : Word) (s : State) : Flow := .raised (raiseFault c {} value (drawPln s))

/-! ## The sink (20_memory.md R70 to R75) -/

/-- The host's answer to the next fallible sink operation (20 R75). -/
def sinkAnswer (s : State) : Bool := s.oracle.headD true

/-- The state once that answer is used. -/
def answered (s : State) : State := { s with oracle := s.oracle.tail }

/-- `SinkOpen()` (20 R70). -/
def sinkCreate (s : State) : Flow :=
  if sinkAnswer s then .go { answered s with out := [], wpos := 0, sinkOpen := true }
  else .raised (ioFailure ctxOpen (answered s))

/-- `SinkAppend(b)` (20 R71). -/
def sinkAppend (ctx : Context) (b : Byte) (s : State) : Flow :=
  if s.wpos ≠ s.out.length then .refused .sinkNotAtEnd
  else if sinkAnswer s then .go { answered s with out := s.out ++ [b], wpos := s.wpos + 1 }
  else .raised (ioFailure ctx (answered s))

/-- `Append(bytes)` (00 R11). -/
def appendAll (ctx : Context) : List Byte → State → Flow
  | [], s => .go s
  | b :: bs, s => (sinkAppend ctx b s).andThen (appendAll ctx bs)

/-- `SinkTell()` (20 R72). -/
def sinkTell (s : State) : Nat := s.wpos

/-- A patch that failed has ended, and outside a patch `WPOS = len(OUT)` (20 R72; log 9). -/
def patchFailed (ctx : Context) (s : State) : Flow := .raised (ioFailure ctx { s with wpos := s.out.length })

/-- Reposition to `off`, a part of `SinkPatch32` (20 R73). -/
def sinkSeek (ctx : Context) (off : Nat) (s : State) : Flow :=
  if sinkAnswer s then .go { answered s with wpos := off } else patchFailed ctx (answered s)

/-- Overwrite the byte at WPOS, a part of `SinkPatch32` (20 R73). -/
def sinkOverwrite (ctx : Context) (b : Byte) (s : State) : Flow :=
  if sinkAnswer s then .go { answered s with out := s.out.set s.wpos b, wpos := s.wpos + 1 }
  else patchFailed ctx (answered s)

/-- Overwrite the bytes from WPOS on. -/
def overwriteAll (ctx : Context) : List Byte → State → Flow
  | [], s => .go s
  | b :: bs, s => (sinkOverwrite ctx b s).andThen (overwriteAll ctx bs)

/-- `SinkPatch32(off, v)` (20 R73): reposition, four writes, reposition to the end. -/
def sinkPatch32 (ctx : Context) (off v : Nat) (s : State) : Flow :=
  if off + 4 ≤ s.out.length ∧ v < 2 ^ 32 then
    ((sinkSeek ctx off s).andThen (overwriteAll ctx (be32 v))).andThen fun t => sinkSeek ctx t.out.length t
  else .refused .patchOutsideOut

end Sys2Proof.Machine
end

