-- ==== Sys2Proof/Machine/Flags.lean ====
section
/-! DEFINITION. The block's only status flags, STATE and SINK_OPEN, as the STATUS register shows them (10_state.md R26), and
the codes of PHASE (R30). -/

namespace Sys2Proof.Machine

/-- The code of STATUS.STATE (R26). -/
def statusCode : Status → BitVec 2
  | .idle => 0
  | .busy => 1
  | .done => 2
  | .fault => 3

/-- The code of PHASE (R30). -/
def phaseCode : Phase → BitVec 4
  | .idle => 0
  | .validate => 1
  | .pixels => 2
  | .openSink => 3
  | .form => 4
  | .bmhd => 5
  | .camg => 6
  | .cmap => 7
  | .body => 8
  | .bodyFix => 9
  | .formFix => 10
  | .close => 11
  | .rle => 12

/-- STATUS: STATE in bits 1:0, SINK_OPEN in bit 2, the rest 0 (R26). -/
def statusWord (s : State) : Word := (0#29) ++ (BitVec.ofBool s.sinkOpen) ++ (statusCode s.status)

/-- The end of a command that completed (44 R207). -/
def complete (s : State) : State := { s with phase := .idle, status := .done }

/-- Are the commands ENCODE, RLE_COMPRESS and RLE_DECOMPRESS performed in this STATE (44 R196)? -/
def accepts (st : Status) : Bool :=
  match st with
  | .idle => true
  | .done => true
  | .fault => false
  | .busy => false

/-- A command of the last column but one of 44 R196's table: performed in IDLE and DONE, ignored in FAULT, and no host
move at all in BUSY. -/
def whenAccepted (run : State → Host.Outcome State Fault Refusal) (s : State) : Host.Outcome State Fault Refusal :=
  match s.status with
  | .idle => run s
  | .done => run s
  | .fault => .next s
  | .busy => .refused .hostMoveWhileBusy

end Sys2Proof.Machine
end

