-- ==== Sys2Proof/Machine/Operands.lean ====
section
/-! DEFINITION. The operands of commands and host actions: the fields of CTRL, the derived quantities of 00_scope.md R6, the
registers by number (10_state.md R38), pixels and palette channels. -/

namespace Sys2Proof.Machine

/-! ## CTRL and the derived quantities -/

/-- CTRL.CHIPSET (10 R24). -/
def chipset (s : State) : Byte := s.ctrl.extractLsb' 0 8

/-- CTRL.COMPRESS (10 R24). -/
def compressOn (s : State) : Bool := s.ctrl.getLsbD 8

/-- CTRL.DITHER (10 R24); no rule reads it (44 R210). -/
def ditherOn (s : State) : Bool := s.ctrl.getLsbD 9

/-- MODE = HAM (00 R6). -/
def isHam (s : State) : Bool := chipset s = 1

/-- `rowBytes(W) = 2 * ceil(W / 16)` (00 R6). -/
def rowBytes (w : Nat) : Nat := 2 * ((w + 15) / 16)

/-- NPLANES as MODE and PALSIZE give it (00 R6). -/
def planeCount (s : State) : Nat := if isHam s then Config.hamPlanes else s.palsize.toNat.log2

/-- CMAP_COUNT (00 R6). -/
def cmapCount (s : State) : Nat := if isHam s then Config.hamPal else s.palsize.toNat

/-! ## Registers by number (10_state.md R38) -/

/-- `RegRead(n)` (44 R209): CMD and the reserved numbers read 0. -/
def regRead (n : BitVec 8) (s : State) : Word :=
  match n.toNat with
  | 1 => statusWord s
  | 2 => s.cause.setWidth 32
  | 3 => (0#16) ++ s.faultPlane ++ s.faultChunk
  | 4 => s.faultRow
  | 5 => s.faultValue
  | 6 => s.width
  | 7 => s.height
  | 8 => s.palsize
  | 9 => s.ctrl.setWidth 32
  | 10 => s.rowlen
  | 11 => s.nplanes
  | 12 => s.rowbytes
  | 13 => s.outlen
  | _ => 0

/-- `RegWrite(n, v)` for `n` other than CMD (44 R199): no check, and a write to a read-only or reserved register is
ignored. -/
def regWrite (n : BitVec 8) (v : Word) (s : State) : State :=
  match n.toNat with
  | 6 => { s with width := v }
  | 7 => { s with height := v }
  | 8 => { s with palsize := v }
  | 9 => { s with ctrl := v.setWidth 10 }
  | 10 => { s with rowlen := v }
  | _ => s

/-! ## Pixels and channels -/

/-- `PixRead(x, y)` (20 R61). -/
def pixRead (s : State) (x y : Nat) : Option Pixel := memRead s.pix (pixKey x y)

/-- Are the raster's dimensions WIDTH and HEIGHT (70 R248 (3))? ENCODE refuses any other raster (93 U8). -/
def rasterMatches (s : State) : Bool := s.rasterWidth = s.width ∧ s.rasterHeight = s.height

/-- A raster provided anew: its dimensions, and no pixel defined (20 R61, 70 R248). -/
def rasterProvided (width height : Word) (s : State) : State :=
  { s with rasterWidth := width, rasterHeight := height, pix := [] }

/-- The least extent that is at least `n` and holds the index `i`. -/
def extentWith (n : Word) (i : BitVec 16) : Word := if n.toNat ≤ i.toNat then BitVec.ofNat 32 (i.toNat + 1) else n

/-- The raster with its pixel `(x, y)` defined (30 R105, line `PIX`). A raster that has the pixel reaches to it (log 31). -/
def pixelDefined (x y : BitVec 16) (v : Pixel) (s : State) : State :=
  { s with
    rasterWidth := extentWith s.rasterWidth x
    rasterHeight := extentWith s.rasterHeight y
    pix := memWrite s.pix (pixKey x.toNat y.toNat) v }

/-- The mask of column `x` in its byte: `0x80 >> (x mod 8)` (20 R66). -/
def columnMask (x : Nat) : Byte := (0x80 : Byte) >>> (x % 8)

/-- `channel >> 4`, clamped to 15 (42 R151). -/
def quantise (c : Byte) : BitVec 4 := BitVec.ofNat 4 (min (c.toNat / 2 ^ 4) 15)

/-- The CMAP byte of a channel, `q(c) = (c >> 4) * 17` (43 R174). -/
def cmapByte (c : Byte) : Byte := u8 (c.toNat / 2 ^ 4 * 17)

/-- `|a - b|` on naturals (00 R9). -/
def absDiff (a b : Nat) : Nat := (a - b) + (b - a)

end Sys2Proof.Machine
end

