-- ==== Sys2Proof/Machine/Rlc.lean ====
section
/-! DEFINITION. RLC, the ByteRun1 compressor and decompressor (40_rle_byterun1.md): the blocks BR1.LIT, BR1.NOP and BR1.REP,
and the commands RLE_COMPRESS and RLE_DECOMPRESS. A row is read through the bytes from the cursor `I` on. -/

namespace Sys2Proof.Machine

/-! ## compress (R121 to R126) -/

/-- `runLength(row, I)` of the row from `I` on: the equal bytes at its head, at most 127 (R125). -/
def runLength : List Byte → Nat
  | [] => 0
  | b :: bs => min Config.rleMaxRun (1 + (bs.takeWhile (· == b)).length)

/-- `startsRun3(row, J)` of the row from `J` on (R126). -/
def startsRun3 : List Byte → Bool
  | a :: b :: c :: _ => a == b && b == c
  | _ => false

/-- The loop of `literalLength` from CNT and the row from `J` on (R126). -/
def literalScan : Nat → List Byte → Nat
  | cnt, [] => cnt
  | cnt, b :: bs => if cnt < Config.rleMaxLit ∧ ¬ startsRun3 (b :: bs) then literalScan (cnt + 1) bs else cnt

/-- `literalLength(row, I)` of the row from `I` on (R126). -/
def literalLength (row : List Byte) : Nat := literalScan 1 row.tail

/-- One turn of the loop of R121 on the row from `I` on: the trailing byte (R122), a repeat block (R123) or a literal
block (R124). -/
def compressTurn (row : List Byte) (r : RlcRegs) : RlcRegs :=
  if Config.rleTrailQuirk ∧ row.length = 1 then
    { r with out := r.out ++ [0x00] ++ row.take 1, i := r.i + 1 }
  else if Config.rleMinRun ≤ runLength row then
    { r with
      run := BitVec.ofNat 7 (runLength row)
      out := r.out ++ [u8 ((257 - runLength row) % 256)] ++ row.take 1
      i := r.i + runLength row }
  else
    { r with
      run := BitVec.ofNat 7 (runLength row)
      cnt := BitVec.ofNat 7 (literalLength row)
      j := r.i + literalLength row
      out := r.out ++ [u8 (literalLength row - 1)] ++ row.take (literalLength row)
      i := r.i + literalLength row }

/-- How many bytes of the row from `I` on that turn consumes. -/
def turnLength (row : List Byte) : Nat :=
  if Config.rleTrailQuirk ∧ row.length = 1 then 1
  else if Config.rleMinRun ≤ runLength row then runLength row
  else literalLength row

/-- The loop of R121; every turn consumes a byte, so the row's length is fuel enough. -/
def compressLoop : Nat → List Byte → RlcRegs → RlcRegs
  | 0, _, r => r
  | fuel + 1, row, r =>
    if row.isEmpty then r
    else compressLoop fuel (row.drop (turnLength row)) (compressTurn row r)

/-- `compress(row)` on the working registers (R121). -/
def compressRegs (row : List Byte) (r : RlcRegs) : RlcRegs :=
  compressLoop row.length row { r with i := 0, out := [] }

/-- `compress(row)`, which depends on the row alone (R120). -/
def compress (row : List Byte) : List Byte := (compressRegs row RlcRegs.reset).out

/-! ## decompress (R128 to R131) -/

/-- BR1.LIT on the registers: the data bytes, verbatim (R128). -/
def rlcLit (n : BitVec 7) (data : List Byte) (r : RlcRegs) : RlcRegs :=
  { r with out := r.out ++ data, i := r.i + n.toNat + 2 }

/-- BR1.NOP on the registers: the control byte alone is consumed (R129). -/
def rlcNop (r : RlcRegs) : RlcRegs := { r with i := r.i + 1 }

/-- BR1.REP on the registers: control byte `c = 128 + n`, the data byte `257 - c` times (R130). -/
def rlcRep (n : BitVec 7) (b : Byte) (r : RlcRegs) : RlcRegs :=
  { r with out := r.out ++ List.replicate (257 - (128 + n.toNat)) b, i := r.i + 2 }

/-- The decoder's step on one block. -/
def rlcBlock (i : Instr) (r : RlcRegs) : RlcRegs :=
  match i with
  | .br1Lit n data => rlcLit n data r
  | .br1Nop => rlcNop r
  | .br1Rep n b => rlcRep n b r
  | _ => r

/-- The loop of R128 on the stream from `I` on. On a stream that ends inside a block (R131) it leaves the registers as
they are when the fault is raised: `I` one past the offending control byte. -/
def decompressLoop : Nat → List Byte → RlcRegs → Except RlcRegs RlcRegs
  | 0, _, r => .ok r
  | fuel + 1, s, r =>
    if s.isEmpty then .ok r
    else
      match decode .br1 s with
      | .error _ => .error { r with i := r.i + 1 }
      | .ok (b, rest) => decompressLoop fuel rest (rlcBlock b r)

/-- `decompress(s)` on the working registers (R128); every block consumes a byte, so the stream's length is fuel
enough. -/
def decompressRegs (s : List Byte) (r : RlcRegs) : Except RlcRegs RlcRegs :=
  decompressLoop s.length s { r with i := 0, out := [] }

/-- `decompress(s)`: the bytes, or the offset of the control byte of the block that is cut off (R131). -/
def decompress (s : List Byte) : Except Nat (List Byte) :=
  match decompressRegs s RlcRegs.reset with
  | .ok r => .ok r.out
  | .error r => .error (r.i - 1)

/-! ## The blocks alone -/

/-- BR1.LIT (R128). -/
def execBr1Lit (n : BitVec 7) (data : List Byte) (s : State) : Host.Outcome State Fault Refusal :=
  .next { s with rlc := rlcLit n data s.rlc }

/-- BR1.NOP (R129). -/
def execBr1Nop (s : State) : Host.Outcome State Fault Refusal := .next { s with rlc := rlcNop s.rlc }

/-- BR1.REP (R130). -/
def execBr1Rep (n : BitVec 7) (b : Byte) (s : State) : Host.Outcome State Fault Refusal :=
  .next { s with rlc := rlcRep n b s.rlc }

/-! ## The stand-alone commands (R132, R133) -/

/-- `ROWIN[0..ROWLEN)`: refused above ROW_CAP and where a byte holds no value (R132, 44 R213). -/
def readRow (s : State) : Except Refusal (List Byte) :=
  if Config.rowCap < s.rowlen.toNat then .error .rowlenAboveCap
  else
    match memReadList s.rowin 0 s.rowlen.toNat with
    | none => .error .noValueRowin
    | some row => .ok row

/-- The command has begun: STATE BUSY, PHASE PH_RLE (44 R208). -/
def beginRle (s : State) : State := { s with status := .busy, phase := .rle }

/-- `ROWOUT[0..m) <- out, OUTLEN <- m` and the end of the command (R132, R133). -/
def finishRle (r : RlcRegs) (s : State) : State :=
  complete { s with
    rlc := r
    rowout := memWriteList s.rowout 0 r.out
    outlen := BitVec.ofNat 32 r.out.length }

/-- RLE_COMPRESS once it is accepted (R132). -/
def runRleCompress (s : State) : Flow :=
  match readRow s with
  | .error e => .refused e
  | .ok row => .go (finishRle (compressRegs row s.rlc) (beginRle s))

/-- RLE_DECOMPRESS once it is accepted (R133, R131). -/
def runRleDecompress (s : State) : Flow :=
  match readRow s with
  | .error e => .refused e
  | .ok row =>
    match decompressRegs row s.rlc with
    | .error r => .raised (raiseFault .malformedRle {} (BitVec.ofNat 32 (r.i - 1)) { beginRle s with rlc := r })
    | .ok r =>
      if 2 * Config.rowCap < r.out.length then .refused .rowoutAboveCap
      else .go (finishRle r (beginRle s))

/-- RLE_COMPRESS (R132). -/
def execRleCompress (s : State) : Host.Outcome State Fault Refusal :=
  whenAccepted (fun s => (runRleCompress s).outcome) s

/-- RLE_DECOMPRESS (R133). -/
def execRleDecompress (s : State) : Host.Outcome State Fault Refusal :=
  whenAccepted (fun s => (runRleDecompress s).outcome) s

end Sys2Proof.Machine
end

