-- ==== Sys2Proof/Machine/Chs.lean ====
section
/-! DEFINITION. CHS, the IFF chunk serializer (43_chunk_serializer.md): one operation per step of R166, and the elements of
the IFF code space as those steps. -/

namespace Sys2Proof.Machine

/-- Step 0 (R167). -/
def chsOpen (s : State) : Flow := sinkCreate { s with phase := .openSink }

/-- Step 1 up to the placeholder (R168). -/
def chsForm (s : State) : Flow :=
  (appendAll ctxForm tagForm { s with phase := .form }).andThen fun t =>
    appendAll ctxForm Config.placeholder { t with formLenOff := sinkTell t }

/-- Step 1, the form type (R168). -/
def chsIlbm (s : State) : Flow := appendAll ctxForm tagIlbm { s with phase := .form }

/-- The BMHD payload (R170, layout 30 R101). -/
def bmhdPayload (s : State) : List Byte :=
  be16 s.width.toNat ++ be16 s.height.toNat ++ be16 0 ++ be16 0
    ++ [u8 s.nplanes.toNat, u8 0, u8 (compressOn s).toNat, u8 0]
    ++ be16 0 ++ [u8 Config.xAspect, u8 Config.yAspect]
    ++ be16 s.width.toNat ++ be16 s.height.toNat

/-- Step 2 (R169). -/
def chsBmhd (s : State) : Flow :=
  appendAll ctxBmhd (tagBmhd ++ be32 20 ++ bmhdPayload s) { s with phase := .bmhd }

/-- Step 3, in HAM mode only (R171). -/
def chsCamg (s : State) : Flow :=
  if isHam s then appendAll ctxCamg (tagCamg ++ be32 4 ++ be32 Config.camgHam) { s with phase := .camg }
  else .go s

/-- The CMAP byte of a channel in the state's mode: scaled, or raw where CMAP_SCALE_HAM is false (R174, R175, 92 D12). -/
def cmapChannel (s : State) (c : Byte) : Byte :=
  if isHam s ∧ ¬ Config.cmapScaleHam then c else cmapByte c

/-- The three CMAP bytes of entry `i` (R172; FORCE_BLACK0, 92 D7). -/
def cmapTriple (s : State) (i : Nat) (c : Rgb) : List Byte :=
  if Config.forceBlack0 ∧ i = 0 then [0x00, 0x00, 0x00]
  else [cmapChannel s c.r, cmapChannel s c.g, cmapChannel s c.b]

/-- Entry `i` of CMAP (R172); an entry that holds no value has none to write (44 R213). -/
def chsCmapEntry (i : Nat) (s : State) : Flow :=
  match memRead s.pal i with
  | none => .refused .noValuePal
  | some c => appendAll ctxCmap (cmapTriple s i c) s

/-- The pad byte of an odd payload (R173, R181). -/
def padBytes (len : Nat) : List Byte := if len % 2 = 1 then [0x00] else []

/-- Step 4 (R172, R173). -/
def chsCmap (s : State) : Flow :=
  ((appendAll ctxCmap (tagCmap ++ be32 (3 * cmapCount s)) { s with phase := .cmap }).andThen fun t =>
    forEach chsCmapEntry (List.range (cmapCount s)) t).andThen fun t =>
      appendAll ctxCmap (padBytes (3 * cmapCount s)) t

/-- Step 5a (R176). -/
def chsBodyHeader (s : State) : Flow :=
  ((appendAll ctxBody tagBody { s with phase := .body }).andThen fun t =>
    appendAll ctxBody Config.placeholder { t with bodyLenOff := sinkTell t }).andThen fun t =>
      .go { t with bodyStart := sinkTell t }

/-- `PLN[p][y][b .. b+n)`, none where a byte holds no value. -/
def planeRow (m : Memory Byte) (p y : Nat) : Nat → Nat → Option (List Byte)
  | _, 0 => some []
  | b, n + 1 =>
    match plnRead m p y b, planeRow m p y (b + 1) n with
    | some v, some vs => some (v :: vs)
    | _, _ => none

/-- One plane-row, raw or compressed (R177 to R179). -/
def chsPlaneRow (y p : Nat) (s : State) : Flow :=
  match planeRow s.pln p y 0 s.rowbytes.toNat with
  | none => .refused .noValuePln
  | some row =>
    let t := { s with p := BitVec.ofNat 4 p }
    if compressOn s then
      appendAll (ctxPlaneRow t) (compressRegs row s.rlc).out { t with rlc := compressRegs row s.rlc }
    else appendAll (ctxPlaneRow t) row t

/-- The plane-rows of row `y` (R177). -/
def chsRow (y : Nat) (s : State) : Flow :=
  forEach (chsPlaneRow y) (List.range s.nplanes.toNat) { s with y := BitVec.ofNat 16 y }

/-- Step 5b (R177). -/
def chsRows (s : State) : Flow := forEach chsRow (List.range s.height.toNat) s

/-- A length patch with its overflow test before it (R180, R183). -/
def patchLength (ctx : Context) (off len : Nat) (s : State) : Flow :=
  if 2 ^ 32 ≤ len then .raised (raiseFault .lengthOverflow ctx (BitVec.ofNat 32 len) s)
  else sinkPatch32 ctx off len s

/-- Step 5c (R180). -/
def chsBodyFix (s : State) : Flow :=
  let t := { s with phase := .bodyFix, bodyLen := sinkTell s - s.bodyStart }
  patchLength ctxBodyFix t.bodyLenOff t.bodyLen t

/-- Step 5d (R181). -/
def chsBodyPad (s : State) : Flow := appendAll ctxBodyFix (padBytes s.bodyLen) s

/-- Step 5 (R176 to R181). -/
def chsBody (s : State) : Flow :=
  ((chsBodyHeader s).andThen chsRows).andThen fun t => (chsBodyFix t).andThen chsBodyPad

/-- Step 6 (R182, R183). -/
def chsFormFix (s : State) : Flow :=
  let t := { s with phase := .formFix, fileLen := sinkTell s }
  patchLength ctxFormFix t.formLenOff (t.fileLen - 8) t

/-- Step 7 (R184). -/
def chsClose (s : State) : State := sinkClose { s with phase := .close }

/-- `CHS.write()`: the sequence of R166. -/
def chsWrite (s : State) : Flow :=
  (((((((chsOpen s).andThen chsForm).andThen chsIlbm).andThen chsBmhd).andThen chsCamg).andThen chsCmap).andThen
    chsBody).andThen fun t => (chsFormFix t).andThen fun u => .go (chsClose u)

/-! ## The elements of the IFF code space -/

/-- IFF.FORM (R168). -/
def execIffForm (s : State) : Host.Outcome State Fault Refusal := (chsForm s).outcome

/-- IFF.ILBM (R168). -/
def execIffIlbm (s : State) : Host.Outcome State Fault Refusal := (chsIlbm s).outcome

/-- IFF.BMHD (R169). -/
def execIffBmhd (s : State) : Host.Outcome State Fault Refusal := (chsBmhd s).outcome

/-- IFF.CAMG (R171). -/
def execIffCamg (s : State) : Host.Outcome State Fault Refusal := (chsCamg s).outcome

/-- IFF.CMAP (R172). -/
def execIffCmap (s : State) : Host.Outcome State Fault Refusal := (chsCmap s).outcome

/-- IFF.BODY (R176 to R181). -/
def execIffBody (s : State) : Host.Outcome State Fault Refusal := (chsBody s).outcome

end Sys2Proof.Machine
end

