-- ==== Sys2Proof/Machine/Bpe.lean ====
section
/-! DEFINITION. BPE, the bitplane encoder (41_bitplane_encoder.md). -/

namespace Sys2Proof.Machine

/-- Bit `P` of a value into plane `P` at the cursors X and Y (41 R142, 42 R158). -/
def distributeBit (v : Byte) (p : Nat) (s : State) : State :=
  { s with
    p := BitVec.ofNat 4 p
    pln := if v.getLsbD p then plnOr s.pln p s.y.toNat (s.x.toNat / 8) (columnMask s.x.toNat) else s.pln }

/-- The bits of a value into the first `n` planes, in ascending order of plane. -/
def distribute (v : Byte) (n : Nat) (s : State) : State :=
  (List.range n).foldl (fun t p => distributeBit v p t) s

/-- The pixel `(x, Y)` of an indexed raster (41 R142). -/
def bpePixel (x : Nat) (s : State) : Flow :=
  match pixRead s x s.y.toNat with
  | none => .refused .noValuePixel
  | some (.trueColor _) => .refused .wrongPixelKind
  | some (.index v) => .go (distribute v s.nplanes.toNat { s with x := BitVec.ofNat 16 x })

/-- Row `y` (41 R142). -/
def bpeRow (y : Nat) (s : State) : Flow :=
  forEach bpePixel (List.range s.width.toNat) { s with y := BitVec.ofNat 16 y }

/-- `BPE.encode()` (41 R141, R142). -/
def bpeEncode (s : State) : Flow :=
  forEach bpeRow (List.range s.height.toNat)
    { s with pln := plnZero s.nplanes.toNat s.height.toNat s.rowbytes.toNat }

end Sys2Proof.Machine
end

