-- ==== Sys2Proof/Machine/Ham.lean ====
section
/-! DEFINITION. HAME, the HAM encoder (42_ham_encoder.md), and the pixel codes HAM6.SET, MODB, MODR, MODG. -/

namespace Sys2Proof.Machine

/-- A channel of the accumulator. -/
inductive Channel where
  | red
  | green
  | blue
deriving DecidableEq, Repr

/-- The channel with the largest difference, ties to red, then green (42 R153). -/
def selectChannel (dr dg db : Nat) : Channel :=
  if dr ≥ dg ∧ dr ≥ db then .red
  else if dg ≥ db then .green
  else .blue

/-- `MODR`: HR and the code `32 + d` at the cursors (42 R155, R158). -/
def hamModR (d : BitVec 4) (s : State) : State :=
  distribute (u8 (32 + d.toNat)) Config.hamPlanes { s with hr := d }

/-- `MODG`: HG and the code `48 + d` at the cursors (42 R156, R158). -/
def hamModG (d : BitVec 4) (s : State) : State :=
  distribute (u8 (48 + d.toNat)) Config.hamPlanes { s with hg := d }

/-- `MODB`: HB and the code `16 + d` at the cursors (42 R157, R158). -/
def hamModB (d : BitVec 4) (s : State) : State :=
  distribute (u8 (16 + d.toNat)) Config.hamPlanes { s with hb := d }

/-- The channel R153 selects for a quantised pixel against the accumulator (42 R152). -/
def hamSelect (qr qg qb : BitVec 4) (s : State) : Channel :=
  selectChannel (absDiff qr.toNat s.hr.toNat) (absDiff qg.toNat s.hg.toNat) (absDiff qb.toNat s.hb.toNat)

/-- A true-colour pixel at the cursors (42 R151 to R158). -/
def hamColour (c : Rgb) (s : State) : State :=
  match hamSelect (quantise c.r) (quantise c.g) (quantise c.b) s with
  | .red => hamModR (quantise c.r) s
  | .green => hamModG (quantise c.g) s
  | .blue => hamModB (quantise c.b) s

/-- The pixel `(x, Y)` of a true-colour raster (42 R159). -/
def hamPixel (x : Nat) (s : State) : Flow :=
  match pixRead s x s.y.toNat with
  | none => .refused .noValuePixel
  | some (.index _) => .refused .wrongPixelKind
  | some (.trueColor c) => .go (hamColour c { s with x := BitVec.ofNat 16 x })

/-- Row `y`, from the accumulator HAM_INIT (42 R159, 70 R247). -/
def hamRow (y : Nat) (s : State) : Flow :=
  forEach hamPixel (List.range s.width.toNat)
    { s with y := BitVec.ofNat 16 y, hr := Config.hamInit, hg := Config.hamInit, hb := Config.hamInit }

/-- `HAME.encode()` (42 R159). -/
def hamEncode (s : State) : Flow :=
  forEach hamRow (List.range s.height.toNat)
    { s with pln := plnZero Config.hamPlanes s.height.toNat s.rowbytes.toNat }

/-! ## The codes alone -/

/-- HAM6.SET: never produced, and no rule gives it a meaning (30 R97, 93 U4). -/
def execHam6Set (_d : BitVec 4) (_s : State) : Host.Outcome State Fault Refusal := .refused .hamSetNeverProduced

/-- HAM6.MODB (42 R157). -/
def execHam6ModB (d : BitVec 4) (s : State) : Host.Outcome State Fault Refusal := .next (hamModB d s)

/-- HAM6.MODR (42 R155). -/
def execHam6ModR (d : BitVec 4) (s : State) : Host.Outcome State Fault Refusal := .next (hamModR d s)

/-- HAM6.MODG (42 R156). -/
def execHam6ModG (d : BitVec 4) (s : State) : Host.Outcome State Fault Refusal := .next (hamModG d s)

end Sys2Proof.Machine
end

