-- ==== Sys2Proof/Machine/Seq.lean ====
section
/-! DEFINITION. SEQ, the sequencer (44_sequencer.md): the commands NOP, CLEAR, ENCODE and the reserved codes. -/

namespace Sys2Proof.Machine

/-! ## Validation and selection (R201 to R204) -/

/-- Chipset check (R201). -/
def checkChipset (s : State) : Flow :=
  if chipset s = 0 ∨ chipset s = 1 then .go s
  else rejectConfig .unsupportedChipset ((chipset s).setWidth 32) s

/-- Is a dimension legal (R202)? -/
def dimensionOk (v : Word) : Bool := 0 < v.toNat ∧ v.toNat ≤ Config.maxDim

/-- Dimension check, WIDTH before HEIGHT (R202). -/
def checkDimensions (s : State) : Flow :=
  if ¬ dimensionOk s.width then rejectConfig .invalidDimensions s.width s
  else if ¬ dimensionOk s.height then rejectConfig .invalidDimensions s.height s
  else .go s

/-- Is a palette size a power of two in [2, 256] (R203)? -/
def paletteSizeOk (v : Word) : Bool :=
  Config.palMin ≤ v.toNat ∧ v.toNat ≤ Config.palMax ∧ 2 ^ v.toNat.log2 = v.toNat

/-- Palette size check (R203). -/
def checkPalette (s : State) : Flow :=
  if ¬ paletteSizeOk s.palsize then rejectConfig .invalidPaletteSize s.palsize s
  else if isHam s ∧ s.palsize.toNat < Config.hamPal then rejectConfig .invalidPaletteSize s.palsize s
  else .go s

/-- Mode selection: NPLANES and ROWBYTES take their new values (R204). -/
def selectMode (s : State) : State :=
  { s with
    nplanes := BitVec.ofNat 32 (planeCount s)
    rowbytes := BitVec.ofNat 32 (rowBytes s.width.toNat) }

/-- The checks in their order (R200, 60 R225). -/
def validate (s : State) : Flow :=
  ((checkChipset { s with phase := .validate }).andThen checkDimensions).andThen checkPalette

/-- Pixel encoding: exactly one of BPE and HAME (R205), on a raster of the dimensions WIDTH and HEIGHT; any other is refused
(93 U8). -/
def encodePixels (s : State) : Flow :=
  if rasterMatches s = false then .refused .wrongRasterSize
  else if isHam s then hamEncode { s with phase := .pixels } else bpeEncode { s with phase := .pixels }

/-- ENCODE once it is accepted (R200). -/
def runEncode (s : State) : Flow :=
  (((validate { s with status := .busy }).andThen fun t => encodePixels (selectMode t)).andThen chsWrite).andThen
    fun t => .go (complete t)

/-! ## The commands -/

/-- NOP (R197). -/
def execNop (s : State) : Host.Outcome State Fault Refusal := .next s

/-- ENCODE (R200, acceptance R196). -/
def execEncode (s : State) : Host.Outcome State Fault Refusal := whenAccepted (fun s => (runEncode s).outcome) s

/-- CLEAR (R198), performed in every STATE in which the host has a move (R196). -/
def execClear (s : State) : Host.Outcome State Fault Refusal :=
  if s.status = .busy then .refused .hostMoveWhileBusy else .next (clearFault s)

/-- A reserved code is ignored (R211). -/
def ignored (s : State) : Host.Outcome State Fault Refusal := .next s

/-- Code 0x05 (R211). -/
def execReserved05 (s : State) : Host.Outcome State Fault Refusal := ignored s

/-- Codes 0x06, 0x07 (R211). -/
def execReserved0607 (_lo : BitVec 1) (s : State) : Host.Outcome State Fault Refusal := ignored s

/-- Codes 0x08 to 0x0F (R211). -/
def execReserved080F (_lo : BitVec 3) (s : State) : Host.Outcome State Fault Refusal := ignored s

/-- Codes 0x10 to 0x1F (R211). -/
def execReserved101F (_lo : BitVec 4) (s : State) : Host.Outcome State Fault Refusal := ignored s

/-- Codes 0x20 to 0x3F (R211). -/
def execReserved203F (_lo : BitVec 5) (s : State) : Host.Outcome State Fault Refusal := ignored s

/-- Codes 0x40 to 0x7F (R211). -/
def execReserved407F (_lo : BitVec 6) (s : State) : Host.Outcome State Fault Refusal := ignored s

/-- Codes 0x80 to 0xFF (R211). -/
def execReserved80FF (_lo : BitVec 7) (s : State) : Host.Outcome State Fault Refusal := ignored s

end Sys2Proof.Machine
end

