-- ==== Sys2Proof/Machine/Dispatch.lean ====
section
/-! DEFINITION. The meaning of every code element, one arm per constructor. -/

namespace Sys2Proof.Machine

def exec (i : Instr) (s : State) : Host.Outcome State Fault Refusal :=
  match i with
  | .nop => Sys2Proof.Machine.execNop s
  | .encode => Sys2Proof.Machine.execEncode s
  | .rleCompress => Sys2Proof.Machine.execRleCompress s
  | .rleDecompress => Sys2Proof.Machine.execRleDecompress s
  | .clear => Sys2Proof.Machine.execClear s
  | .reserved05 => Sys2Proof.Machine.execReserved05 s
  | .reserved0607 lo => Sys2Proof.Machine.execReserved0607 lo s
  | .reserved080F lo => Sys2Proof.Machine.execReserved080F lo s
  | .reserved101F lo => Sys2Proof.Machine.execReserved101F lo s
  | .reserved203F lo => Sys2Proof.Machine.execReserved203F lo s
  | .reserved407F lo => Sys2Proof.Machine.execReserved407F lo s
  | .reserved80FF lo => Sys2Proof.Machine.execReserved80FF lo s
  | .br1Lit n data => Sys2Proof.Machine.execBr1Lit n data s
  | .br1Nop => Sys2Proof.Machine.execBr1Nop s
  | .br1Rep n data => Sys2Proof.Machine.execBr1Rep n data s
  | .ham6Set d => Sys2Proof.Machine.execHam6Set d s
  | .ham6ModB d => Sys2Proof.Machine.execHam6ModB d s
  | .ham6ModR d => Sys2Proof.Machine.execHam6ModR d s
  | .ham6ModG d => Sys2Proof.Machine.execHam6ModG d s
  | .iffForm => Sys2Proof.Machine.execIffForm s
  | .iffIlbm => Sys2Proof.Machine.execIffIlbm s
  | .iffBmhd => Sys2Proof.Machine.execIffBmhd s
  | .iffCamg => Sys2Proof.Machine.execIffCamg s
  | .iffCmap => Sys2Proof.Machine.execIffCmap s
  | .iffBody => Sys2Proof.Machine.execIffBody s

end Sys2Proof.Machine
end

