-- ==== Sys2Proof/Machine/Port.lean ====
section
/-! DEFINITION. The host port: what each host action does (44_sequencer.md R195, R199, R209), fetching the code of a command,
and hardware reset (70_reset_and_hazards.md R245). -/

namespace Sys2Proof.Machine

/-- The code space and bytes the next host action presents to the decoder: the low byte of a write to CMD (30 R91), or
what the model's own unit port holds (log 2). -/
def fetch (a : HostAction) : Option (CodeSpace × List Byte) :=
  match a with
  | .regWrite n v => if n = 0 then some (.cmd, [v.setWidth 8]) else none
  | .unit sp bytes => some (sp, bytes)
  | _ => none

/-- Is this an action of the spec's host? All are but the model's own unit port. -/
def HostAction.isHost : HostAction → Bool
  | .unit _ _ => false
  | .regWrite _ _ => true
  | .regRead _ => true
  | .palWrite _ _ => true
  | .palRead _ => true
  | .rowinWrite _ _ => true
  | .rowinRead _ => true
  | .rowoutWrite _ _ => true
  | .rowoutRead _ => true
  | .plnWrite _ _ _ _ => true
  | .plnRead _ _ _ => true
  | .rasterProvide _ _ => true
  | .pixDefine _ _ _ => true
  | .setOracle _ => true
  | .hardReset => true

/-- Answers of the oracle are for the next command alone (30 R105); the ones it leaves over are dropped (log 4). -/
def dropOracle : Host.Outcome State Fault Refusal → Host.Outcome State Fault Refusal
  | .next s => .next { s with oracle := [] }
  | .fault f => .fault f
  | .refused r => .refused r

/-- Run what the action presents to the decoder. -/
def runFetched (a : HostAction) (sp : CodeSpace) (bytes : List Byte) (s : State) : Host.Outcome State Fault Refusal :=
  match decode sp bytes with
  | .error _ => .refused .undecodable
  | .ok (i, _) => if a.isHost then dropOracle (exec i s) else exec i s

/-- A read of an element: what it returns, refused where there is no value (44 R209). -/
def readElement {α : Type} (v : Option α) (r : Refusal) (ret : α → Returned) (s : State) :
    Host.Outcome State Fault Refusal :=
  match v with
  | none => .refused r
  | some a => .next { s with returned := ret a }

/-- Hardware reset: the block's own state; the raster, OUT and what the host holds stay (70 R245, log 5). -/
def hardwareReset (s : State) : State :=
  { State.reset with
    rasterWidth := s.rasterWidth
    rasterHeight := s.rasterHeight
    pix := s.pix
    out := s.out
    wpos := s.wpos
    oracle := s.oracle
    pending := s.pending
    returned := s.returned
    freeTick := s.freeTick }

/-- A host action that is no command. -/
def hostAccess (a : HostAction) (s : State) : Host.Outcome State Fault Refusal :=
  match a with
  | .regWrite n v => .next (regWrite n v s)
  | .regRead n => .next { s with returned := .word (regRead n s) }
  | .palWrite i c => .next { s with pal := memWrite s.pal i.toNat c }
  | .palRead i => readElement (memRead s.pal i.toNat) .noValuePal .triple s
  | .rowinWrite i v =>
    if i < Config.rowCap then .next { s with rowin := memWrite s.rowin i v } else .fault .noSuchElement
  | .rowinRead i =>
    if i < Config.rowCap then readElement (memRead s.rowin i) .noValueRowin .byte s else .fault .noSuchElement
  | .rowoutWrite _ _ => .next s
  | .rowoutRead i =>
    if i < 2 * Config.rowCap then readElement (memRead s.rowout i) .noValueRowout .byte s else .fault .noSuchElement
  | .plnWrite _ _ _ _ => .next s
  | .plnRead p y b => readElement (plnRead s.pln p.toNat y.toNat b.toNat) .noValuePln .byte s
  | .rasterProvide w h => .next (rasterProvided w h s)
  | .pixDefine x y v => .next (pixelDefined x y v s)
  | .setOracle answers => .next { s with oracle := answers }
  | .hardReset => .next (hardwareReset s)
  | .unit _ _ => .refused .undecodable

/-- One host action, on a state from whose queue it has been taken. The host has no move while STATE = BUSY (20 R79,
70 R249, 93 U9, U12). -/
def perform (a : HostAction) (s : State) : Host.Outcome State Fault Refusal :=
  if a.isHost ∧ s.status = .busy then .refused .hostMoveWhileBusy
  else
    match fetch a with
    | some (sp, bytes) => runFetched a sp bytes s
    | none => hostAccess a s

end Sys2Proof.Machine
end

