-- ==== Sys2Proof/Machine/Step.lean ====
section
/-! DEFINITION. One step: the next pending host action; with none pending the block waits (60_exceptions.md R231). -/

namespace Sys2Proof.Machine

/-- One step of the machine (00 R2, log 1). -/
def step (s : State) : Host.Outcome State Fault Refusal :=
  match s.pending with
  | [] => .next s
  | a :: rest => perform a { s with pending := rest }

/-- The host action that presents a table word to the decoder: a command by a write to CMD, an element of another code
space by the unit port (log 2, log 3). -/
def tableWordAction (nbits w : Nat) : HostAction :=
  match tableWordBytes nbits w with
  | some (.cmd, _) => .regWrite 0 (BitVec.ofNat 32 w)
  | some (sp, bytes) => .unit sp bytes
  | none => .unit .iff []

/-- The state whose next step runs the table word: its action stands first in the queue (log 1). -/
def State.withFetchWord (s : State) (nbits w : Nat) : State :=
  { s with pending := tableWordAction nbits w :: s.pending }

end Sys2Proof.Machine
end

