-- ==== Sys2Proof/Machine/Image.lean ====
section
/-! DEFINITION. The file ENCODE writes as a function of the configuration, the palette and the raster alone (the laws of the
output, 43_chunk_serializer.md R185 to R187, with 30_encoding.md R98 to R104, 41 R142 and 42 R159). Claims about ENCODE are
stated against it. -/

namespace Sys2Proof.Machine

/-- The index of pixel `(x, y)`; it is only used where the pixel holds one. -/
def indexAt (s : State) (x y : Nat) : Byte :=
  match pixRead s x y with
  | some (.index v) => v
  | some (.trueColor _) => 0
  | none => 0

/-- The colour of pixel `(x, y)`; it is only used where the pixel holds one. -/
def colourAt (s : State) (x y : Nat) : Rgb :=
  match pixRead s x y with
  | some (.trueColor c) => c
  | some (.index _) => ⟨0, 0, 0⟩
  | none => ⟨0, 0, 0⟩

/-- The HAM codes of the pixels of a row from an accumulator on (42 R151 to R157). -/
def hamCodes : BitVec 4 → BitVec 4 → BitVec 4 → List Rgb → List Byte
  | _, _, _, [] => []
  | r, g, b, c :: cs =>
    match selectChannel (absDiff (quantise c.r).toNat r.toNat) (absDiff (quantise c.g).toNat g.toNat)
        (absDiff (quantise c.b).toNat b.toNat) with
    | .red => u8 (32 + (quantise c.r).toNat) :: hamCodes (quantise c.r) g b cs
    | .green => u8 (48 + (quantise c.g).toNat) :: hamCodes r (quantise c.g) b cs
    | .blue => u8 (16 + (quantise c.b).toNat) :: hamCodes r g (quantise c.b) cs

/-- The values whose bits go into the planes, for the columns of row `y`: indices, or HAM codes from HAM_INIT on. -/
def codeRow (s : State) (y : Nat) : List Byte :=
  if isHam s then
    hamCodes Config.hamInit Config.hamInit Config.hamInit ((List.range s.width.toNat).map fun x => colourAt s x y)
  else (List.range s.width.toNat).map fun x => indexAt s x y

/-- Byte `b` of plane `p` of a row of values: column `8 b + j` gives bit `7 - j`, columns past the row give 0
(20 R66, 41 R143). -/
def planeByte (codes : List Byte) (p b : Nat) : Byte :=
  (List.range 8).foldl
    (fun acc j => acc ||| if (codes.getD (8 * b + j) 0).getLsbD p then columnMask j else 0) 0

/-- Plane-row `(p, y)` (30 R104). -/
def imagePlaneRow (s : State) (p y : Nat) : List Byte :=
  (List.range (rowBytes s.width.toNat)).map fun b => planeByte (codeRow s y) p b

/-- What BODY stores of a plane-row (43 R178, R179). -/
def storedRow (s : State) (p y : Nat) : List Byte :=
  if compressOn s then compress (imagePlaneRow s p y) else imagePlaneRow s p y

/-- The BODY payload (30 R104). -/
def imageBody (s : State) : List Byte :=
  (List.range s.height.toNat).flatMap fun y => (List.range (planeCount s)).flatMap fun p => storedRow s p y

/-- A chunk with its pad (30 R98). -/
def chunk (tag payload : List Byte) : List Byte := tag ++ be32 payload.length ++ payload ++ padBytes payload.length

/-- The BMHD payload (30 R101). -/
def imageBmhd (s : State) : List Byte :=
  be16 s.width.toNat ++ be16 s.height.toNat ++ be16 0 ++ be16 0
    ++ [u8 (planeCount s), 0x00, if compressOn s then 0x01 else 0x00, 0x00]
    ++ be16 0 ++ [u8 Config.xAspect, u8 Config.yAspect]
    ++ be16 s.width.toNat ++ be16 s.height.toNat

/-- The CMAP payload (30 R103). -/
def imageCmap (s : State) : List Byte :=
  (List.range (cmapCount s)).flatMap fun i =>
    match memRead s.pal i with
    | some c => [cmapByte c.r, cmapByte c.g, cmapByte c.b]
    | none => []

/-- The chunks before BODY (43 R185). -/
def imageHead (s : State) : List Byte :=
  chunk tagBmhd (imageBmhd s) ++ (if isHam s then chunk tagCamg (be32 0x800) else []) ++ chunk tagCmap (imageCmap s)

/-- Everything after the form type (43 R185). -/
def imageChunks (s : State) : List Byte := imageHead s ++ chunk tagBody (imageBody s)

/-- The file (43 R185): its FORM length counts the form type and the chunks. -/
def imageFile (s : State) : List Byte :=
  tagForm ++ be32 (4 + (imageChunks s).length) ++ tagIlbm ++ imageChunks s

/-- The configuration passes the checks of 44 R201 to R203. -/
def configLegal (s : State) : Bool :=
  (chipset s = 0 ∨ chipset s = 1) ∧ dimensionOk s.width ∧ dimensionOk s.height ∧ paletteSizeOk s.palsize ∧
    (isHam s → Config.hamPal ≤ s.palsize.toNat)

/-- Does a pixel hold the variant MODE reads (20 R61)? -/
def pixelFits (s : State) (v : Option Pixel) : Bool :=
  match v with
  | some (.index _) => !isHam s
  | some (.trueColor _) => isHam s
  | none => false

/-- The host has provided the raster, with the dimensions it wrote (70 R248 (3)). -/
def rasterReady (s : State) : Prop :=
  rasterMatches s = true ∧ ∀ x < s.width.toNat, ∀ y < s.height.toNat, pixelFits s (pixRead s x y) = true

/-- The host has provided the palette entries CMAP takes (70 R248 (2)). -/
def paletteReady (s : State) : Prop := ∀ i < cmapCount s, (memRead s.pal i).isSome = true

/-- Both patched lengths fit their four bytes (60 R221). -/
def lengthsFit (s : State) : Prop :=
  (imageBody s).length < 2 ^ 32 ∧ 4 + (imageChunks s).length < 2 ^ 32

/-- The context under which the append of each byte fails, up to the BODY patch, with the codes of 60 R230: FORM, BMHD, CAMG,
CMAP, BODY, and BODY with the row and the plane of a plane-row (43 R166). -/
def imageContexts (s : State) : List Context :=
  List.replicate 12 { chunk := 2 } ++ List.replicate 28 { chunk := 3 }
    ++ (if isHam s then List.replicate 12 { chunk := 4 } else [])
    ++ List.replicate (8 + 3 * cmapCount s) { chunk := 5 } ++ List.replicate 8 { chunk := 6 }
    ++ (List.range s.height.toNat).flatMap fun y => (List.range (planeCount s)).flatMap fun p =>
      List.replicate (storedRow s p y).length { chunk := 6, row := BitVec.ofNat 32 y, plane := BitVec.ofNat 8 p }

/-- Every fallible sink operation of ENCODE in order (20 R70 to R73, 43 R166), each with the context it fails under and
`len(OUT)` at that moment: opening (OPEN), one append a byte, the six operations of the BODY patch and the pad (BODYFIX),
and the six of the FORM patch (FORMFIX). -/
def imageOperations (s : State) : List (Context × Nat) :=
  ({ chunk := 1 }, s.out.length) :: ((imageContexts s).zipIdx
    ++ List.replicate (6 + (imageBody s).length % 2) ({ chunk := 7 }, (imageFile s).length - (imageBody s).length % 2)
    ++ List.replicate 6 ({ chunk := 8 }, (imageFile s).length))

end Sys2Proof.Machine
end

