-- ==== Sys2Proof/Safety.lean ====
section
/-! DEFINITION. What holds of the machine between two host actions, in the terms claims use: the quiescent states. -/

namespace Sys2Proof.Machine

/-- What the spec says of the block between commands. Every reachable state in whose queue stands no action of the model's
own unit port is quiescent. -/
structure Quiescent (s : State) : Prop where
  /-- No element of a code space is run outside a command. -/
  hostOnly : ∀ a ∈ s.pending, a.isHost = true
  /-- STATE is BUSY only inside a command (10 R26). -/
  notBusy : s.status ≠ .busy
  /-- PHASE is PH_IDLE whenever STATE is not BUSY (10 R30). -/
  phaseIdle : s.phase = .idle
  /-- `SINK_OPEN = 0` whenever STATE is not BUSY (70 R250). -/
  sinkReleased : s.sinkOpen = false
  /-- CAUSE and the context registers are 0 when STATE is not FAULT (10 R27, R28). -/
  noContext : s.status ≠ .fault →
    s.cause = 0 ∧ s.faultChunk = 0 ∧ s.faultPlane = 0 ∧ s.faultRow = 0 ∧ s.faultValue = 0
  /-- CAUSE is a code of 60 R215 when STATE is FAULT (10 R27). -/
  causeKnown : s.status = .fault → ∃ c, s.cause = causeCode c
  /-- `WPOS = len(OUT)` outside a patch (20 R72). -/
  atEnd : s.wpos = s.out.length
  /-- Every memory is in its canonical form. -/
  pixWf : Memory.wf s.pix
  palWf : Memory.wf s.pal
  plnWf : Memory.wf s.pln
  rowinWf : Memory.wf s.rowin
  rowoutWf : Memory.wf s.rowout
  /-- No element outside its space (20 R60): PIX and PLN below the bound of `pixKey` and `plnKey`, the coordinates of 10 R31
  and the largest bitmap of 00 R12. -/
  pixInside : ∀ e ∈ s.pix, e.1 < 2 ^ 32
  /-- Every pixel that is defined stands inside the raster's own dimensions (20 R61). -/
  pixInRaster : ∀ e ∈ s.pix, e.1 % 2 ^ 16 < s.rasterWidth.toNat ∧ e.1 / 2 ^ 16 < s.rasterHeight.toNat
  plnInside : ∀ e ∈ s.pln, e.1 < 2 ^ 32
  palInside : ∀ e ∈ s.pal, e.1 < 256
  rowinInside : ∀ e ∈ s.rowin, e.1 < Config.rowCap
  rowoutInside : ∀ e ∈ s.rowout, e.1 < 2 * Config.rowCap
  /-- `ROWOUT[0..OUTLEN)` is defined (70 R245). -/
  rowoutDefined : ∀ i < s.outlen.toNat, (memRead s.rowout i).isSome = true
  /-- NPLANES and ROWBYTES hold values of 00 R6, or 0 (10 R29). -/
  planesBound : s.nplanes.toNat ≤ 8
  rowbytesBound : s.rowbytes.toNat ≤ 8192
  rowbytesEven : s.rowbytes.toNat % 2 = 0

end Sys2Proof.Machine
end

