-- ==== Sys2Proof/Certificates/Slice0/Obligations.lean ====
section
/-! DEFINITION. The statements for the provers. Each docstring names the rule of spec/ it formalises. -/

open Sys2Proof Sys2Proof.Machine

/-! ## Words the statements use -/

/-- The block takes a command: STATE is IDLE or DONE (44 R196). -/
def Sys2Proof.Claims.Ready (s : State) : Prop := s.status = .idle ∨ s.status = .done

/-- The host lets the next `n` fallible sink operations succeed (20 R75). -/
def Sys2Proof.Claims.Succeed (n : Nat) (s : State) : Prop := ∀ a ∈ s.oracle.take n, a = true

/-- The host lets the next `k` fallible sink operations succeed and fails the one after them (20 R75). -/
def Sys2Proof.Claims.FailAt (k : Nat) (s : State) : Prop :=
  (∀ a ∈ s.oracle.take k, a = true) ∧ s.oracle[k]? = some false

/-- ROWIN[0..ROWLEN) holds the bytes of `row` (40 R132). -/
def Sys2Proof.Claims.RowinIs (row : List Byte) (s : State) : Prop :=
  s.rowlen.toNat ≤ 65535 ∧ row.length = s.rowlen.toNat ∧ ∀ i < s.rowlen.toNat, memRead s.rowin i = row[i]?

/-- ROWOUT[0..m) holds the bytes of `out` and every other byte of it is as before. -/
def Sys2Proof.Claims.RowoutBecomes (out : List Byte) (s t : State) : Prop :=
  (∀ i < out.length, memRead t.rowout i = out[i]?) ∧ ∀ i, out.length ≤ i → memRead t.rowout i = memRead s.rowout i

/-- Each set bit `p < 6` of a pixel code is OR-ed into plane `p` at the cursors X, Y, and every other byte of PLN reads as
before (42 R158). A byte that holds no value still holds none (log 13). -/
def Sys2Proof.Claims.CodeWritten (code : Nat) (s t : State) : Prop :=
  ∀ p y b, plnRead t.pln p y b =
    if p < 6 ∧ code.testBit p = true ∧ y = s.y.toNat ∧ b = s.x.toNat / 8 then
      (plnRead s.pln p y b).map (· ||| columnMask s.x.toNat)
    else plnRead s.pln p y b

/-- The plane-rows of PLN as step 5b appends them (43 R177 to R179), for a PLN whose bytes hold values. -/
def Sys2Proof.Claims.planeBody (s : State) : List Byte :=
  (List.range s.height.toNat).flatMap fun y => (List.range s.nplanes.toNat).flatMap fun p =>
    let row := (List.range s.rowbytes.toNat).map fun b => (plnRead s.pln p y b).getD 0
    if compressOn s then compress row else row

/-- The configuration registers, PAL, the raster, ROWIN, ROWOUT, OUTLEN and what the host holds, which no ENCODE changes
(60 R222, 40 R132, 20 R60). -/
def Sys2Proof.Claims.EncodeKeeps (s t : State) : Prop :=
  t.width = s.width ∧ t.height = s.height ∧ t.palsize = s.palsize ∧ t.ctrl = s.ctrl ∧ t.rowlen = s.rowlen ∧
  t.outlen = s.outlen ∧ t.rasterWidth = s.rasterWidth ∧ t.rasterHeight = s.rasterHeight ∧ t.pix = s.pix ∧ t.pal = s.pal ∧ t.rowin = s.rowin ∧ t.rowout = s.rowout ∧
  t.pending = s.pending ∧ t.returned = s.returned

/-- ENCODE takes a validation fault (60 R222): of the state only the fault registers, STATE, PHASE, the released sink and
PLN change; the bytes of PLN are any value (93 U3), where they held one (log 30). -/
def Sys2Proof.Claims.TakesValidationFault (s : State) (cause : Byte) (value : Word) : Prop :=
  ∃ t, exec .encode s = .next t ∧
    t = { s with
      cause := cause, faultChunk := 0, faultPlane := 0, faultRow := 0, faultValue := value
      status := .fault, phase := .idle, sinkOpen := false, pln := t.pln, freeTick := t.freeTick } ∧
    ∀ p y b, (plnRead t.pln p y b).isSome = (plnRead s.pln p y b).isSome

open Sys2Proof.Claims

/-! ## Encoding -/

/-- Every operand of every well-formed code element survives encoding and decoding (30 R91 to R99). -/
def Obligations.DecodeOfEncodeIsTheInstruction : Prop :=
  ∀ (i : Instr) (rest : List Byte), i.wellFormed = true → decode i.space (encode i ++ rest) = .ok (i, rest)

/-- What decodes is well formed, of its code space, and encoded by the bytes it was read from (30 R91 to R99). -/
def Obligations.DecodeReadsOnlyEncodings : Prop :=
  ∀ (sp : CodeSpace) (bs rest : List Byte) (i : Instr), decode sp bs = .ok (i, rest) →
    i.wellFormed = true ∧ i.space = sp ∧ bs = encode i ++ rest

/-- Words written out from the spec's tables (30 R91, R93, R96, R99). -/
def Obligations.SpecWordsDecode : Prop :=
  decode .cmd [0x01] = .ok (.encode, []) ∧
  decode .cmd [0x7F] = .ok (.reserved407F 0x3F, []) ∧
  decode .br1 [0x02, 0x41, 0x42, 0x43, 0x99] = .ok (.br1Lit 2 [0x41, 0x42, 0x43], [0x99]) ∧
  decode .br1 [0x80, 0x41] = .ok (.br1Nop, [0x41]) ∧
  decode .br1 [0xFE, 0x41] = .ok (.br1Rep 0x7E 0x41, []) ∧
  decode .ham6 [0b101111] = .ok (.ham6ModR 15, []) ∧
  decode .ham6 [0b111000] = .ok (.ham6ModG 8, []) ∧
  decode .ham6 [0b011000] = .ok (.ham6ModB 8, []) ∧
  decode .iff [0x42, 0x4D, 0x48, 0x44] = .ok (.iffBmhd, [])

/-- A write to CMD runs the command its low byte decodes to, after the action has left the queue; answers the oracle held
for it are dropped afterwards (30 R91; the queue and the oracle are the model's, logs 1 and 4). -/
def Obligations.StepRunsTheDecodedCommand : Prop :=
  ∀ (s : State) (v : Word) (rest : List HostAction), s.status ≠ .busy → s.pending = .regWrite 0 v :: rest →
    ∃ i, decode .cmd [v.setWidth 8] = .ok (i, []) ∧ step s = dropOracle (exec i { s with pending := rest })

/-- The model's unit port runs exactly the element whose bytes it holds (log 2). -/
def Obligations.StepRunsTheEncodedElement : Prop :=
  ∀ (s : State) (i : Instr) (rest : List HostAction), i.wellFormed = true →
    s.pending = .unit i.space (encode i) :: rest → step s = exec i { s with pending := rest }

/-! ## Commands without a unit -/

/-- NOP changes no state in any STATE (44 R197). -/
def Obligations.NopChangesNothing : Prop := ∀ s : State, exec .nop s = .next s

/-- Writing a reserved code changes nothing: every code from 0x05 on decodes to a reserved row, and every reserved row
leaves the state as it is (30 R92, 44 R211). -/
def Obligations.ReservedCodesChangeNothing : Prop :=
  (∀ (c : Byte) (s : State), 5 ≤ c.toNat → exec (decodeCmd c) s = .next s) ∧
  ∀ (s : State) (l1 : BitVec 1) (l3 : BitVec 3) (l4 : BitVec 4) (l5 : BitVec 5) (l6 : BitVec 6) (l7 : BitVec 7),
    exec .reserved05 s = .next s ∧ exec (.reserved0607 l1) s = .next s ∧ exec (.reserved080F l3) s = .next s ∧
    exec (.reserved101F l4) s = .next s ∧ exec (.reserved203F l5) s = .next s ∧ exec (.reserved407F l6) s = .next s ∧
    exec (.reserved80FF l7) s = .next s

/-- CLEAR writes STATE, CAUSE and the context registers and nothing else (44 R198, 60 R226). -/
def Obligations.ClearReturnsToIdle : Prop :=
  ∀ s : State, s.status ≠ .busy →
    exec .clear s = .next { s with
      status := .idle, cause := 0, faultChunk := 0, faultPlane := 0, faultRow := 0, faultValue := 0 }

/-- In FAULT the three working commands change nothing (44 R196). -/
def Obligations.WorkingCommandsIgnoredInFault : Prop :=
  ∀ s : State, s.status = .fault →
    exec .encode s = .next s ∧ exec .rleCompress s = .next s ∧ exec .rleDecompress s = .next s

/-- The host has no move while STATE = BUSY (20 R79, 70 R249): the model refuses one. -/
def Obligations.HostHasNoMoveWhileBusy : Prop :=
  ∀ (s : State) (a : HostAction) (rest : List HostAction), s.status = .busy → a.isHost = true →
    s.pending = a :: rest → step s = .refused .hostMoveWhileBusy

/-- With no host action pending the block waits (60 R231; an idle step that changes nothing is the model's, log 23). -/
def Obligations.WaitsForTheHost : Prop := ∀ s : State, s.pending = [] → step s = .next s

/-! ## RLC -/

/-- compress and decompress are exact inverses on every row (40 R134). -/
def Obligations.DecompressInvertsCompress : Prop := ∀ row : List Byte, decompress (compress row) = .ok row

/-- The output of compress is at most twice its input, and with no three equal bytes in sequence it is the row and one
control byte per 127 (40 R127 (c)). -/
def Obligations.CompressedLength : Prop :=
  (∀ row : List Byte, (compress row).length ≤ 2 * row.length) ∧
  ∀ row : List Byte, (∀ k, startsRun3 (row.drop k) = false) →
    (compress row).length = row.length + (row.length + 126) / 127

/-- The output of compress is a concatenation of LIT blocks of at most 127 bytes and REP blocks of 3 to 127, so the
control bytes 0x7F, 0x80, 0x81 and 0xFF never occur (40 R127 (a), (b); 30 R95). -/
def Obligations.CompressEmitsCappedBlocks : Prop :=
  ∀ row : List Byte, ∃ blocks : List Instr, compress row = blocks.flatMap encode ∧
    ∀ b ∈ blocks, b.wellFormed = true ∧
      ((∃ n data, b = .br1Lit n data ∧ n.toNat ≤ 126) ∨ ∃ n v, b = .br1Rep n v ∧ 2 ≤ n.toNat ∧ n.toNat ≤ 126)

/-- A run of 3 to 127 equal bytes, ended by another byte, by the row's end or by the cap, is one repeat block, and the
scan restarts on the remainder (40 R123). -/
def Obligations.RunBecomesOneRepeatBlock : Prop :=
  ∀ (b : Byte) (run : Nat) (rest : List Byte), 3 ≤ run → run ≤ 127 → (run = 127 ∨ rest.head? ≠ some b) →
    compress (List.replicate run b ++ rest) = u8 ((257 - run) % 256) :: b :: compress rest

/-- A literal block: 1 to 127 bytes at none of which three equal bytes start, ended by the cap, by the row's end or by
three equal bytes, are one literal block (40 R122, R124, R126). -/
def Obligations.LiteralStopsBeforeRun : Prop :=
  ∀ (lit rest : List Byte), 1 ≤ lit.length → lit.length ≤ 127 →
    (∀ k < lit.length, startsRun3 ((lit ++ rest).drop k) = false) →
    (lit.length = 127 ∨ rest = [] ∨ startsRun3 rest = true) →
    compress (lit ++ rest) = u8 (lit.length - 1) :: lit ++ compress rest

/-- The three block classes as the decoder reads them, whatever follows (40 R128, R129, R130; 30 R93). -/
def Obligations.DecoderReadsEachBlockClass : Prop :=
  ∀ (c : Byte) (rest out : List Byte), decompress rest = .ok out →
    (∀ data, c.toNat ≤ 127 → data.length = c.toNat + 1 → decompress (c :: data ++ rest) = .ok (data ++ out)) ∧
    (c.toNat = 128 → decompress (c :: rest) = .ok out) ∧
    ∀ b, 128 < c.toNat → decompress (c :: b :: rest) = .ok (List.replicate (257 - c.toNat) b ++ out)

/-- A stream that ends inside a block is malformed at the offset of that block's control byte (40 R131). -/
def Obligations.CutOffBlockIsMalformed : Prop :=
  ∀ (whole out data : List Byte) (c : Byte), decompress whole = .ok out →
    ((c.toNat ≤ 127 ∧ data.length < c.toNat + 1) ∨ (128 < c.toNat ∧ data = [])) →
    decompress (whole ++ c :: data) = .error whole.length

/-- RLE_COMPRESS: ROWOUT, OUTLEN and STATE take their values, and of the rest only RLC's working registers change
(40 R132). That ROWOUT from the output's end on is as before is the model's (log 14). -/
def Obligations.RleCompressResult : Prop :=
  ∀ (s : State) (row : List Byte), Ready s → RowinIs row s →
    ∃ t, exec .rleCompress s = .next t ∧ RowoutBecomes (compress row) s t ∧ t.outlen.toNat = (compress row).length ∧
      t = { s with status := .done, phase := .idle, rlc := t.rlc, rowout := t.rowout, outlen := t.outlen }

/-- RLE_DECOMPRESS on a well-formed stream whose output fits ROWOUT (40 R133). That ROWOUT from the output's end on is as
before is the model's (log 14). -/
def Obligations.RleDecompressResult : Prop :=
  ∀ (s : State) (row out : List Byte), Ready s → RowinIs row s → decompress row = .ok out → out.length ≤ 131070 →
    ∃ t, exec .rleDecompress s = .next t ∧ RowoutBecomes out s t ∧ t.outlen.toNat = out.length ∧
      t = { s with status := .done, phase := .idle, rlc := t.rlc, rowout := t.rowout, outlen := t.outlen }

/-- RLE_DECOMPRESS on an ill-formed stream takes the fault MalformedRLE with the control byte's offset, and ROWOUT and
OUTLEN keep their values (40 R131, 60 R220, R222). -/
def Obligations.RleDecompressTakesMalformedFault : Prop :=
  ∀ (s : State) (row : List Byte) (off : Nat), Ready s → RowinIs row s → decompress row = .error off →
    ∃ t, exec .rleDecompress s = .next t ∧
      t = { s with
        cause := 5, faultChunk := 0, faultPlane := 0, faultRow := 0, faultValue := BitVec.ofNat 32 off
        status := .fault, phase := .idle, sinkOpen := false, rlc := t.rlc }

/-- When the RLE commands have no meaning: ROWLEN above ROW_CAP, a ROWIN byte that holds no value, or an output above
2 * ROW_CAP (40 R132, R133; 44 R213). -/
def Obligations.RleCommandsRefuseWhatHasNoMeaning : Prop :=
  (∀ s : State, Ready s → 65535 < s.rowlen.toNat →
    exec .rleCompress s = .refused .rowlenAboveCap ∧ exec .rleDecompress s = .refused .rowlenAboveCap) ∧
  (∀ (s : State) (i : Nat), Ready s → s.rowlen.toNat ≤ 65535 → i < s.rowlen.toNat → memRead s.rowin i = none →
    exec .rleCompress s = .refused .noValueRowin ∧ exec .rleDecompress s = .refused .noValueRowin) ∧
  ∀ (s : State) (row out : List Byte), Ready s → RowinIs row s → decompress row = .ok out → 131070 < out.length →
    exec .rleDecompress s = .refused .rowoutAboveCap

/-- One decoder block run alone: its bytes are appended to `out`, the cursor moves past the block, and nothing else
changes (40 R128, R129, R130). -/
def Obligations.DecoderBlocksRun : Prop :=
  ∀ (s : State) (n : BitVec 7) (data : List Byte) (b : Byte),
    exec (.br1Lit n data) s = .next { s with
      rlc := { s.rlc with out := s.rlc.out ++ data, i := s.rlc.i + n.toNat + 2 } } ∧
    exec .br1Nop s = .next { s with rlc := { s.rlc with i := s.rlc.i + 1 } } ∧
    exec (.br1Rep n b) s = .next { s with
      rlc := { s.rlc with out := s.rlc.out ++ List.replicate (129 - n.toNat) b, i := s.rlc.i + 2 } }

/-! ## BPE and HAME -/

/-- MODR, MODG and MODB: the one accumulator channel, the code's bits in the six planes at the cursors, and nothing else
but the plane cursor (42 R155 to R158). -/
def Obligations.HamCodesModifyOneChannel : Prop :=
  ∀ (s : State) (d : BitVec 4),
    (∃ t, exec (.ham6ModR d) s = .next t ∧ t = { s with hr := d, p := t.p, pln := t.pln } ∧
      CodeWritten (32 + d.toNat) s t) ∧
    (∃ t, exec (.ham6ModG d) s = .next t ∧ t = { s with hg := d, p := t.p, pln := t.pln } ∧
      CodeWritten (48 + d.toNat) s t) ∧
    ∃ t, exec (.ham6ModB d) s = .next t ∧ t = { s with hb := d, p := t.p, pln := t.pln } ∧
      CodeWritten (16 + d.toNat) s t

/-- HAM6.SET is never produced and has no meaning: the model stops (30 R97). -/
def Obligations.HamSetHasNoMeaning : Prop :=
  ∀ (s : State) (d : BitVec 4), exec (.ham6Set d) s = .refused .hamSetNeverProduced

/-- The selected channel has the largest difference; red wins ties, then green (42 R153). -/
def Obligations.HamSelectsLargestDifference : Prop :=
  ∀ dr dg db : Nat,
    (selectChannel dr dg db = .red ↔ dg ≤ dr ∧ db ≤ dr) ∧
    (selectChannel dr dg db = .green ↔ dr < dg ∧ db ≤ dg) ∧
    (selectChannel dr dg db = .blue ↔ dr < db ∧ dg < db)

/-- HAME emits one code per pixel, never one below 16 (42 R160, 30 R97), and a code depends on no pixel to its right. -/
def Obligations.HamEmitsOnlyModifyCodes : Prop :=
  ∀ (r g b : BitVec 4) (left right : List Rgb),
    (hamCodes r g b left).length = left.length ∧
    (∀ c ∈ hamCodes r g b left, 16 ≤ c.toNat ∧ c.toNat < 64) ∧
    hamCodes r g b left <+: hamCodes r g b (left ++ right)

/-- Where each column's bit lies in its plane byte, and that columns past the row give 0 (20 R66, 41 R143). -/
def Obligations.ColumnBitPosition : Prop :=
  ∀ (codes : List Byte) (p x : Nat), (planeByte codes p (x / 8)).getLsbD (7 - x % 8) = (codes.getD x 0).getLsbD p

/-- Pixel encoding fills PLN with exactly the bits of every pixel's index, or of its HAM code with the accumulator reset
at every row; it raises no fault and changes only the cursors, the accumulator, PHASE and PLN
(41 R141, R142; 42 R159; 44 R205). That no byte outside the bitmap holds a value is the model's (log 12). -/
def Obligations.PixelsFillThePlanes : Prop :=
  ∀ s : State, configLegal s = true → rasterReady s → s.nplanes.toNat = planeCount s →
    s.rowbytes.toNat = rowBytes s.width.toNat →
    ∃ t, encodePixels s = .go t ∧
      t = { s with phase := .pixels, x := t.x, y := t.y, p := t.p, hr := t.hr, hg := t.hg, hb := t.hb, pln := t.pln } ∧
      ∀ p y b, plnRead t.pln p y b =
        if p < planeCount s ∧ y < s.height.toNat ∧ b < rowBytes s.width.toNat then
          some (planeByte (codeRow s y) p b)
        else none

/-- Reading bit `p` of every plane `p` at a pixel gives its index back, modulo `2 ^ NPLANES` (41 R145, R144). -/
def Obligations.PlanesGiveTheIndexBack : Prop :=
  ∀ (s t : State) (x y : Nat), configLegal s = true → isHam s = false → s.nplanes.toNat = planeCount s →
    s.rowbytes.toNat = rowBytes s.width.toNat → encodePixels s = .go t → x < s.width.toNat → y < s.height.toNat →
    (((List.range s.nplanes.toNat).map fun p =>
        2 ^ p * (((plnRead t.pln p y (x / 8)).getD 0 >>> (7 - x % 8)).toNat % 2)).sum)
      = (indexAt s x y).toNat % 2 ^ s.nplanes.toNat

/-! ## CHS -/

/-- IFF.FORM and IFF.ILBM, step 1 (43 R168), where the sink does not fail: every field. -/
def Obligations.FormHeaderIsAppended : Prop :=
  ∀ s : State, s.wpos = s.out.length →
    (Succeed 8 s → exec .iffForm s = .next { s with
      phase := .form, formLenOff := s.out.length + 4
      out := s.out ++ [0x46, 0x4F, 0x52, 0x4D, 0, 0, 0, 0], wpos := s.wpos + 8, oracle := s.oracle.drop 8 }) ∧
    (Succeed 4 s → exec .iffIlbm s = .next { s with
      phase := .form, out := s.out ++ [0x49, 0x4C, 0x42, 0x4D], wpos := s.wpos + 4, oracle := s.oracle.drop 4 })

/-- IFF.BMHD, step 2: the header and the 20 bytes of the payload in their order (43 R169, R170; 30 R101). The widths of
the last nine fields are the spec's own, from general knowledge (92 D31). -/
def Obligations.BmhdIsAppended : Prop :=
  ∀ s : State, s.wpos = s.out.length → Succeed 28 s → exec .iffBmhd s = .next { s with
    phase := .bmhd
    out := s.out ++ [0x42, 0x4D, 0x48, 0x44, 0, 0, 0, 20] ++ be16 s.width.toNat ++ be16 s.height.toNat
      ++ [0, 0, 0, 0, u8 s.nplanes.toNat, 0, if s.ctrl.getLsbD 8 then 1 else 0, 0, 0, 0, 1, 1]
      ++ be16 s.width.toNat ++ be16 s.height.toNat
    wpos := s.wpos + 28, oracle := s.oracle.drop 28 }

/-- IFF.CAMG, step 3: twelve bytes in HAM mode, nothing at all in Indexed mode (43 R171). -/
def Obligations.CamgOnlyInHamMode : Prop :=
  ∀ s : State, s.wpos = s.out.length → Succeed 12 s →
    (chipset s = 1 → exec .iffCamg s = .next { s with
      phase := .camg
      out := s.out ++ [0x43, 0x41, 0x4D, 0x47, 0, 0, 0, 4, 0, 0, 8, 0]
      wpos := s.wpos + 12, oracle := s.oracle.drop 12 }) ∧
    (chipset s = 0 → exec .iffCamg s = .next s)

/-- IFF.CMAP, step 4: the header and three bytes per entry, each channel's high nibble times 17 (43 R172 to R175). -/
def Obligations.CmapIsAppended : Prop :=
  ∀ s : State, s.wpos = s.out.length → paletteReady s → Succeed (8 + 3 * cmapCount s + cmapCount s % 2) s →
    exec .iffCmap s = .next { s with
      phase := .cmap
      out := s.out ++ chunk [0x43, 0x4D, 0x41, 0x50] ((List.range (cmapCount s)).flatMap fun i =>
        let c := (memRead s.pal i).getD ⟨0, 0, 0⟩
        [u8 (c.r.toNat / 16 * 17), u8 (c.g.toNat / 16 * 17), u8 (c.b.toNat / 16 * 17)])
      wpos := s.wpos + (8 + 3 * cmapCount s + cmapCount s % 2)
      oracle := s.oracle.drop (8 + 3 * cmapCount s + cmapCount s % 2) }

/-- IFF.BODY, step 5: the plane-rows in row-major, plane-minor order, raw or each compressed on its own, the patched length
without the pad, and the pad byte of an odd length (43 R176 to R181). -/
def Obligations.BodyIsAppended : Prop :=
  ∀ s : State, s.wpos = s.out.length → (∀ a ∈ s.oracle, a = true) → (planeBody s).length < 2 ^ 32 →
    (∀ y < s.height.toNat, ∀ p < s.nplanes.toNat, ∀ b < s.rowbytes.toNat, (plnRead s.pln p y b).isSome = true) →
    ∃ t, exec .iffBody s = .next t ∧
      t.out = s.out ++ chunk [0x42, 0x4F, 0x44, 0x59] (planeBody s) ∧
      t.bodyLenOff = s.out.length + 4 ∧ t.bodyStart = s.out.length + 8 ∧ t.bodyLen = (planeBody s).length ∧
      t = { s with
        phase := .bodyFix, y := t.y, p := t.p, rlc := t.rlc, bodyLenOff := t.bodyLenOff, bodyStart := t.bodyStart
        bodyLen := t.bodyLen, out := t.out, wpos := t.out.length, oracle := t.oracle }

/-- A failed append or patch leaves exactly the bytes before it and raises IOFailure with its context: any bytes under any
context, `SinkPatch32` under any context (its operation 0 is the reposition, 1 to 4 the writes, 5 the reposition back), and
the whole of IFF.BMHD, whose chunk code is 3 (20 R71, R73; 60 R218, R222, R230). WPOS after a failed patch is the model's
(log 9). -/
def Obligations.FailedAppendKeepsTheBytesBefore : Prop :=
  (∀ (ctx : Context) (bs : List Byte) (s : State) (k : Nat), s.wpos = s.out.length → k < bs.length → FailAt k s →
    s.out.length + k < 2 ^ 32 →
    appendAll ctx bs s = .raised { s with
      out := s.out ++ bs.take k, wpos := s.wpos + k, oracle := s.oracle.drop (k + 1)
      cause := 3, faultChunk := ctx.chunk, faultRow := ctx.row, faultPlane := ctx.plane
      faultValue := BitVec.ofNat 32 (s.out.length + k), status := .fault, phase := .idle, sinkOpen := false }) ∧
  (∀ (ctx : Context) (off v : Nat) (s : State) (k : Nat), off + 4 ≤ s.out.length → v < 2 ^ 32 → k < 6 → FailAt k s →
    s.out.length < 2 ^ 32 →
    ∃ t, sinkPatch32 ctx off v s = .raised t ∧ t.out.length = s.out.length ∧
      (∀ i < s.out.length, t.out[i]? =
        if off ≤ i ∧ i < off + (k - 1) then (be32 v)[i - off]? else s.out[i]?) ∧
      t = { s with
        out := t.out, wpos := s.out.length, oracle := s.oracle.drop (k + 1)
        cause := 3, faultChunk := ctx.chunk, faultRow := ctx.row, faultPlane := ctx.plane
        faultValue := BitVec.ofNat 32 s.out.length, status := .fault, phase := .idle, sinkOpen := false }) ∧
  ∀ (s : State) (k : Nat), s.wpos = s.out.length → k < 28 → FailAt k s → s.out.length + k < 2 ^ 32 →
    ∃ t, exec .iffBmhd s = .next t ∧
      t.out = s.out ++ (tagBmhd ++ be32 20 ++ bmhdPayload s).take k ∧
      t = { s with
        out := t.out, wpos := s.wpos + k, oracle := s.oracle.drop (k + 1)
        cause := 3, faultChunk := 3, faultRow := 0, faultPlane := 0, faultValue := BitVec.ofNat 32 (s.out.length + k)
        status := .fault, phase := .idle, sinkOpen := false }

/-! ## ENCODE -/

/-- A chipset other than ECS and HAM is rejected first, with the offending value (44 R201; 60 R217, R225). -/
def Obligations.ChipsetRejectedFirst : Prop :=
  ∀ s : State, Ready s → chipset s ≠ 0 → chipset s ≠ 1 →
    TakesValidationFault s 2 ((chipset s).setWidth 32)

/-- An illegal WIDTH, then an illegal HEIGHT, is rejected with its value (44 R202; 60 R219, R225). -/
def Obligations.DimensionsRejectedSecond : Prop :=
  ∀ s : State, Ready s → (chipset s = 0 ∨ chipset s = 1) →
    ((s.width.toNat = 0 ∨ 65535 < s.width.toNat) → TakesValidationFault s 4 s.width) ∧
    (1 ≤ s.width.toNat → s.width.toNat ≤ 65535 → (s.height.toNat = 0 ∨ 65535 < s.height.toNat) →
      TakesValidationFault s 4 s.height)

/-- A palette size that is no power of two from 2 to 256, or one below 16 in HAM mode, is rejected with its value
(44 R203; 60 R216, R225). -/
def Obligations.PaletteSizeRejectedThird : Prop :=
  ∀ s : State, Ready s → (chipset s = 0 ∨ chipset s = 1) → 1 ≤ s.width.toNat → s.width.toNat ≤ 65535 →
    1 ≤ s.height.toNat → s.height.toNat ≤ 65535 →
    (s.palsize.toNat ∉ [2, 4, 8, 16, 32, 64, 128, 256] ∨ (chipset s = 1 ∧ s.palsize.toNat < 16)) →
    TakesValidationFault s 1 s.palsize

/-- ENCODE of a legal configuration with its inputs provided and a sink that does not fail writes exactly the file of
43 R185 and ends in DONE with the sink released, NPLANES and ROWBYTES new, PLN the bitmap, and nothing else changed but
working registers (44 R200, R204, R207). -/
def Obligations.EncodeWritesTheFile : Prop :=
  ∀ s : State, Ready s → configLegal s = true → rasterReady s → paletteReady s → lengthsFit s →
    (∀ a ∈ s.oracle, a = true) →
    ∃ t, exec .encode s = .next t ∧ t.status = .done ∧ t.phase = .idle ∧ t.sinkOpen = false ∧ t.out = imageFile s ∧
      t.nplanes.toNat = planeCount s ∧ t.rowbytes.toNat = rowBytes s.width.toNat ∧
      t.cause = s.cause ∧ t.faultChunk = s.faultChunk ∧ t.faultPlane = s.faultPlane ∧ t.faultRow = s.faultRow ∧
      t.faultValue = s.faultValue ∧ EncodeKeeps s t ∧
      ∀ p y b, plnRead t.pln p y b =
        if p < planeCount s ∧ y < s.height.toNat ∧ b < rowBytes s.width.toNat then
          some (planeByte (codeRow s y) p b)
        else none

/-- Whatever the sink answers, ENCODE of a legal configuration with its inputs provided ends in DONE or takes IOFailure or
LengthOverflow, with the sink released (44 R200, 60 R218, R222, 70 R250). Where a length does not fit and the sink does not
fail it takes LengthOverflow: BODY's length before its patch, else FORM's before its own, with the length modulo 2^32 and
exactly the bytes written so far (60 R221; 43 R180, R183). -/
def Obligations.EncodeEndsWhateverTheSinkAnswers : Prop :=
  (∀ s : State, Ready s → configLegal s = true → rasterReady s → paletteReady s →
    ∃ t, exec .encode s = .next t ∧ t.sinkOpen = false ∧ t.phase = .idle ∧
      (t.status = .done ∨ (t.status = .fault ∧ (t.cause = 3 ∨ t.cause = 6)))) ∧
  ∀ s : State, Ready s → configLegal s = true → rasterReady s → paletteReady s → ¬ lengthsFit s →
    (∀ a ∈ s.oracle, a = true) →
    ∃ t, exec .encode s = .next t ∧ t.sinkOpen = false ∧ t.phase = .idle ∧ t.status = .fault ∧ t.cause = 6 ∧
      t.faultRow = 0 ∧ t.faultPlane = 0 ∧ EncodeKeeps s t ∧
      if 2 ^ 32 ≤ (imageBody s).length then
        t.faultChunk = 7 ∧ t.faultValue = BitVec.ofNat 32 (imageBody s).length ∧
        t.out = tagForm ++ [0, 0, 0, 0] ++ tagIlbm ++ imageHead s ++ tagBody ++ [0, 0, 0, 0] ++ imageBody s
      else
        t.faultChunk = 8 ∧ t.faultValue = BitVec.ofNat 32 (4 + (imageChunks s).length) ∧
        t.out = tagForm ++ [0, 0, 0, 0] ++ tagIlbm ++ imageChunks s

/-- The sink operation that fails decides the fault context: operation `k` of the list `imageOperations`, which names OPEN,
FORM, BMHD, CAMG, CMAP, BODY with the plane-row's Y and P, BODYFIX and FORMFIX, each with `len(OUT)` at the failure
(60 R218, R230; 43 R166). A length of 2^32 or more has no stated FAULT_VALUE (log 7). -/
def Obligations.FailedOperationGivesItsContext : Prop :=
  ∀ (s : State) (k : Nat) (ctx : Context) (len : Nat), Ready s → configLegal s = true → rasterReady s → paletteReady s →
    lengthsFit s → FailAt k s → (imageOperations s)[k]? = some (ctx, len) →
    ∃ t, exec .encode s = .next t ∧ t.status = .fault ∧ t.cause = 3 ∧ t.faultChunk = ctx.chunk ∧
      t.faultRow = ctx.row ∧ t.faultPlane = ctx.plane ∧ t.out.length = len ∧
      (len < 2 ^ 32 → t.faultValue = BitVec.ofNat 32 len) ∧ t.phase = .idle ∧ t.sinkOpen = false ∧
      t.oracle = s.oracle.drop (k + 1) ∧ EncodeKeeps s t

/-- An ENCODE that ends in DONE, whatever the sink answered on the way, had a legal configuration and has written the
whole file of its configuration, palette and raster (44 R207, 43 R185). -/
def Obligations.DoneMeansTheWholeFile : Prop :=
  ∀ s t : State, Ready s → exec .encode s = .next t → t.status = .done → configLegal s = true ∧ t.out = imageFile s

/-- After an ENCODE that failed once the sink was open, OUT is the file cut to its length, but for the two length fields
(60 R218; 20 R71, R73; 43 R188). -/
def Obligations.FailedEncodeKeepsAPrefix : Prop :=
  ∀ s t : State, Ready s → configLegal s = true → rasterReady s → paletteReady s →
    exec .encode s = .next t → t.status = .fault → t.faultChunk ≠ 1 →
    t.out.length ≤ (imageFile s).length ∧
    ∀ k < t.out.length, ¬ (4 ≤ k ∧ k < 8) →
      ¬ (52 + (if isHam s then 12 else 0) + 3 * cmapCount s ≤ k ∧
        k < 56 + (if isHam s then 12 else 0) + 3 * cmapCount s) →
      t.out[k]? = (imageFile s)[k]?

/-- A sink that cannot be created: IOFailure with chunk OPEN, and OUT is as it was (20 R70, 43 R167). -/
def Obligations.OpenFailureLeavesOut : Prop :=
  ∀ s : State, Ready s → configLegal s = true → rasterReady s → FailAt 0 s →
    s.out.length < 2 ^ 32 →
    ∃ t, exec .encode s = .next t ∧ t.status = .fault ∧ t.cause = 3 ∧ t.faultChunk = 1 ∧ t.faultRow = 0 ∧
      t.faultPlane = 0 ∧ t.faultValue = BitVec.ofNat 32 s.out.length ∧ t.out = s.out ∧ t.sinkOpen = false ∧
      t.oracle = s.oracle.tail ∧ EncodeKeeps s t

/-- ENCODE of a legal configuration is refused where the raster's dimensions are not WIDTH and HEIGHT (93 U8, 70 R248), where a
pixel has no value of MODE's variant (44 R213, 20 R61, 93 U8), and, with a sink that does not fail, where a PAL entry it reads
has none (44 R213). -/
def Obligations.EncodeRefusesInputsWithoutValue : Prop :=
  (∀ s : State, Ready s → configLegal s = true → (s.rasterWidth ≠ s.width ∨ s.rasterHeight ≠ s.height) →
    exec .encode s = .refused .wrongRasterSize) ∧
  (∀ s : State, Ready s → configLegal s = true → s.rasterWidth = s.width → s.rasterHeight = s.height → ¬ rasterReady s →
    exec .encode s = .refused .noValuePixel ∨ exec .encode s = .refused .wrongPixelKind) ∧
  ∀ s : State, Ready s → configLegal s = true → rasterReady s → ¬ paletteReady s → (∀ a ∈ s.oracle, a = true) →
    exec .encode s = .refused .noValuePal

/-- Whatever path an ENCODE takes, the configuration, PAL, the raster, ROWIN, ROWOUT and OUTLEN are unchanged (60 R222). -/
def Obligations.EncodeFrame : Prop := ∀ s t : State, exec .encode s = .next t → EncodeKeeps s t

/-- The two length fields of a finished file and its length: FORM's is the file's length minus 8, BODY's the payload
without the pad, and the file's length is even (43 R180, R183, R186, R187). -/
def Obligations.LengthFieldsOfTheFile : Prop :=
  ∀ s t : State, Ready s → exec .encode s = .next t → t.status = .done →
    t.out.length = 56 + (if isHam s then 12 else 0) + 3 * cmapCount s + t.bodyLen + t.bodyLen % 2 ∧
    t.out.length % 2 = 0 ∧
    (t.out.drop 4).take 4 = be32 (t.out.length - 8) ∧
    (t.out.drop (52 + (if isHam s then 12 else 0) + 3 * cmapCount s)).take 4 = be32 t.bodyLen

/-- Without compression BODY holds HEIGHT * NPLANES * ROWBYTES bytes (43 R178), and the lengths always fit (60 R221). -/
def Obligations.UncompressedBodyLength : Prop :=
  ∀ s t : State, Ready s → compressOn s = false → paletteReady s → exec .encode s = .next t →
    (t.status = .done → t.bodyLen = s.height.toNat * planeCount s * rowBytes s.width.toNat) ∧
    (s.cause ≠ 6 → t.cause ≠ 6)

/-- DITHER has no effect: ENCODE commutes with any change of that bit (44 R210). -/
def Obligations.DitherHasNoEffect : Prop :=
  ∀ (s : State) (c : BitVec 10), c.extractLsb' 0 9 = s.ctrl.extractLsb' 0 9 →
    (∀ t, exec .encode s = .next t → exec .encode { s with ctrl := c } = .next { t with ctrl := c }) ∧
    ∀ r, exec .encode s = .refused r → exec .encode { s with ctrl := c } = .refused r

/-! ## The host port -/

/-- Register read after register write, for every pair of numbers: the five configuration registers hold what is written
(CTRL its bits 9:0), every other write is ignored (44 R199, 10 R38). Register 0 is a command, not a write. -/
def Obligations.RegisterReadAfterWrite : Prop :=
  ∀ (n m : BitVec 8) (v : Word) (s : State),
    regRead m (regWrite n v s) =
      if m = n ∧ (n = 6 ∨ n = 7 ∨ n = 8 ∨ n = 10) then v
      else if m = n ∧ n = 9 then v &&& 0x3FF
      else regRead m s

/-- What each register number reads (10 R26, R27, R28, R38; 44 R209). -/
def Obligations.RegisterMap : Prop :=
  ∀ s : State,
    (regRead 1 s).toNat = (match s.status with | .idle => 0 | .busy => 1 | .done => 2 | .fault => 3)
      + 4 * s.sinkOpen.toNat ∧
    (regRead 2 s).toNat = s.cause.toNat ∧
    (regRead 3 s).toNat = s.faultChunk.toNat + 256 * s.faultPlane.toNat ∧
    regRead 4 s = s.faultRow ∧ regRead 5 s = s.faultValue ∧ regRead 6 s = s.width ∧ regRead 7 s = s.height ∧
    regRead 8 s = s.palsize ∧ (regRead 9 s).toNat = s.ctrl.toNat ∧ regRead 10 s = s.rowlen ∧
    regRead 11 s = s.nplanes ∧ regRead 12 s = s.rowbytes ∧ regRead 13 s = s.outlen ∧
    ∀ n : BitVec 8, (n = 0 ∨ 14 ≤ n.toNat) → regRead n s = 0

/-- Host accesses at the port outside BUSY: RegRead only returns, RegWrite to a register other than CMD only stores, and
neither runs a command (44 R199, R209). -/
def Obligations.RegisterAccessSteps : Prop :=
  ∀ (s : State) (n : BitVec 8) (v : Word) (rest : List HostAction), s.status ≠ .busy →
    (s.pending = .regRead n :: rest →
      step s = .next { s with pending := rest, returned := .word (regRead n s) }) ∧
    (s.pending = .regWrite n v :: rest → n ≠ 0 → step s = .next (regWrite n v { s with pending := rest }))

/-- Memory writes of the host: PAL and ROWIN store one element and keep every other, PLN and ROWOUT ignore the write
(44 R199). A ROWIN index the space does not have stops the model (20 R60, log 15). A raster provided anew has
its dimensions and no pixel; a pixel defined keeps every other, and the raster reaches to it (20 R61, 70 R248, 30 R105; log 31).
The oracle takes the answers it is given (20 R75, log 4). -/
def Obligations.HostMemoryWrites : Prop :=
  ∀ (s : State) (rest : List HostAction), s.status ≠ .busy →
    (∀ i c, s.pending = .palWrite i c :: rest →
      ∃ t, step s = .next t ∧ t = { s with pending := rest, pal := t.pal } ∧
        ∀ k, memRead t.pal k = if k = i.toNat then some c else memRead s.pal k) ∧
    (∀ i v, s.pending = .rowinWrite i v :: rest → i < 65535 →
      ∃ t, step s = .next t ∧ t = { s with pending := rest, rowin := t.rowin } ∧
        ∀ k, memRead t.rowin k = if k = i then some v else memRead s.rowin k) ∧
    (∀ i v, s.pending = .rowinWrite i v :: rest → 65535 ≤ i → step s = .fault .noSuchElement) ∧
    (∀ p y b v, s.pending = .plnWrite p y b v :: rest → step s = .next { s with pending := rest }) ∧
    (∀ i v, s.pending = .rowoutWrite i v :: rest → step s = .next { s with pending := rest }) ∧
    (∀ w h, s.pending = .rasterProvide w h :: rest →
      step s = .next { s with pending := rest, rasterWidth := w, rasterHeight := h, pix := [] }) ∧
    (∀ x y v, s.pending = .pixDefine x y v :: rest →
      ∃ t, step s = .next t ∧
        t = { s with pending := rest, rasterWidth := t.rasterWidth, rasterHeight := t.rasterHeight, pix := t.pix } ∧
        t.rasterWidth.toNat = max s.rasterWidth.toNat (x.toNat + 1) ∧
        t.rasterHeight.toNat = max s.rasterHeight.toNat (y.toNat + 1) ∧
        ∀ x' y' : BitVec 16, pixRead t x'.toNat y'.toNat =
          if x' = x ∧ y' = y then some v else pixRead s x'.toNat y'.toNat) ∧
    ∀ answers, s.pending = .setOracle answers :: rest → step s = .next { s with pending := rest, oracle := answers }

/-- Memory reads of the host return the stored element with no side effect, and are refused where there is no value
(44 R209). A ROWIN or ROWOUT index the space does not have stops the model (20 R60, log 15). -/
def Obligations.HostMemoryReads : Prop :=
  ∀ (s : State) (rest : List HostAction), s.status ≠ .busy →
    (∀ i, s.pending = .palRead i :: rest →
      (∀ c, memRead s.pal i.toNat = some c → step s = .next { s with pending := rest, returned := .triple c }) ∧
      (memRead s.pal i.toNat = none → step s = .refused .noValuePal)) ∧
    (∀ i, s.pending = .rowinRead i :: rest →
      (∀ v, i < 65535 → memRead s.rowin i = some v →
        step s = .next { s with pending := rest, returned := .byte v }) ∧
      (i < 65535 → memRead s.rowin i = none → step s = .refused .noValueRowin) ∧
      (65535 ≤ i → step s = .fault .noSuchElement)) ∧
    (∀ i, s.pending = .rowoutRead i :: rest →
      (∀ v, i < 131070 → memRead s.rowout i = some v →
        step s = .next { s with pending := rest, returned := .byte v }) ∧
      (i < 131070 → memRead s.rowout i = none → step s = .refused .noValueRowout) ∧
      (131070 ≤ i → step s = .fault .noSuchElement)) ∧
    ∀ p y b, s.pending = .plnRead p y b :: rest →
      (∀ v, plnRead s.pln p.toNat y.toNat b.toNat = some v →
        step s = .next { s with pending := rest, returned := .byte v }) ∧
      (plnRead s.pln p.toNat y.toNat b.toNat = none → step s = .refused .noValuePln)

/-- Hardware reset: every register of the block 0, STATE IDLE, no sink held, no element of PAL, PLN, ROWIN, ROWOUT with a
value; OUT and the raster untouched (70 R245). -/
def Obligations.HardwareResetState : Prop :=
  ∀ (s : State) (rest : List HostAction), s.status ≠ .busy → s.pending = .hardReset :: rest →
    ∃ t, step s = .next t ∧
      t.status = .idle ∧ t.sinkOpen = false ∧ t.cause = 0 ∧ t.faultChunk = 0 ∧ t.faultPlane = 0 ∧ t.faultRow = 0 ∧
      t.faultValue = 0 ∧ t.width = 0 ∧ t.height = 0 ∧ t.palsize = 0 ∧ t.ctrl = 0 ∧ t.rowlen = 0 ∧ t.nplanes = 0 ∧
      t.rowbytes = 0 ∧ t.outlen = 0 ∧ t.phase = .idle ∧ t.x = 0 ∧ t.y = 0 ∧ t.p = 0 ∧ t.hr = 0 ∧ t.hg = 0 ∧ t.hb = 0 ∧
      t.rlc = ⟨0, 0, 0, 0, []⟩ ∧ t.formLenOff = 0 ∧ t.bodyLenOff = 0 ∧ t.bodyStart = 0 ∧ t.bodyLen = 0 ∧
      t.fileLen = 0 ∧ t.pal = [] ∧ t.pln = [] ∧ t.rowin = [] ∧ t.rowout = [] ∧ t.out = s.out ∧
      t.rasterWidth = s.rasterWidth ∧ t.rasterHeight = s.rasterHeight ∧ t.pix = s.pix

/-! ## Arithmetic -/

/-- `rowBytes` is even, has a bit for every column, and is the least such value (00 R6). -/
def Obligations.RowBytesIsLeastEven : Prop :=
  ∀ w : Nat, rowBytes w % 2 = 0 ∧ w ≤ 8 * rowBytes w ∧ (∀ n, n % 2 = 0 → w ≤ 8 * n → rowBytes w ≤ n) ∧
    rowBytes 320 = 40 ∧ rowBytes 321 = 42

/-- The CMAP byte of a channel: its high nibble times 17, the channel itself exactly on the multiples of 17 (43 R174). -/
def Obligations.CmapByteOfAChannel : Prop :=
  ∀ c : Byte, (cmapByte c).toNat = c.toNat / 16 * 17 ∧ (cmapByte c = c ↔ c.toNat % 17 = 0)

/-! ## The machine as a whole -/

/-- The reset state is quiescent (70 R245; what it holds of OUT, the raster and WPOS is log 5). -/
def Obligations.ResetIsQuiescent : Prop := Quiescent State.reset

/-- Every step from a quiescent state leaves a quiescent state: between two host actions STATE is never BUSY, the sink is
released, PHASE is PH_IDLE, CAUSE and the context are 0 outside FAULT, WPOS is at the end of OUT, and every memory is in
canonical form inside its space, PIX and PLN inside the largest raster and bitmap (10 R26 to R31; 20 R60, R72; 70 R250). -/
def Obligations.StepKeepsQuiescent : Prop := ∀ s t : State, Quiescent s → step s = .next t → Quiescent t
end

