-- ==== Sys2Proof/Laws/Rlc.lean ====
section
/-! SUPPORT. RLC: what a turn of the compressor consumes and emits, that the loops need no more fuel than their input has
bytes, and that their output does not depend on the working registers they begin with. -/

namespace Sys2Proof.Machine

/-! ## Runs -/

theorem takeWhile_eq_replicate (b : Byte) (bs : List Byte) :
    bs.takeWhile (· == b) = List.replicate (bs.takeWhile (· == b)).length b := by
  refine List.eq_replicate_iff.mpr ⟨rfl, fun c hc => ?_⟩
  have := List.mem_takeWhile_imp hc
  simpa using this

/-- A run is at least 1, at most 127 and at most the row (40 R125). -/
theorem runLength_bounds (b : Byte) (bs : List Byte) :
    1 ≤ runLength (b :: bs) ∧ runLength (b :: bs) ≤ 127 ∧ runLength (b :: bs) ≤ bs.length + 1 := by
  have := (List.takeWhile_prefix (l := bs) (· == b)).length_le
  simp only [runLength, Config.rleMaxRun]
  omega

/-- The bytes of a run are equal (40 R125). -/
theorem take_runLength (b : Byte) (bs : List Byte) :
    (b :: bs).take (runLength (b :: bs)) = List.replicate (runLength (b :: bs)) b := by
  obtain ⟨k, hk⟩ : ∃ k, runLength (b :: bs) = k + 1 := ⟨runLength (b :: bs) - 1, by have := runLength_bounds b bs; omega⟩
  have hle : k ≤ (bs.takeWhile (· == b)).length := by
    simp only [runLength, Config.rleMaxRun] at hk
    omega
  rw [hk, List.take_succ_cons, List.replicate_succ]
  congr 1
  obtain ⟨rest, hrest⟩ := List.takeWhile_prefix (l := bs) (· == b)
  rw [← hrest, List.take_append_of_le_length hle, takeWhile_eq_replicate b bs, List.take_replicate]
  congr 1
  simpa using hle

/-- Three equal bytes start a row exactly when its run is at least 3. -/
theorem startsRun3_iff (row : List Byte) : startsRun3 row = true ↔ 3 ≤ runLength row := by
  match row with
  | [] => simp [startsRun3, runLength]
  | [a] => simp [startsRun3, runLength, Config.rleMaxRun]
  | [a, b] =>
    have := (runLength_bounds a [b]).2.2
    simp only [startsRun3, Bool.false_eq_true, false_iff]
    simp at this
    omega
  | a :: b :: c :: rest =>
    simp only [startsRun3, runLength, Config.rleMaxRun, List.takeWhile_cons, Bool.and_eq_true, beq_iff_eq]
    by_cases h1 : b = a
    · subst h1
      by_cases h2 : c = b
      · subst h2
        simp
        omega
      · simp [h2, Ne.symm h2]
    · simp [h1, Ne.symm h1]

/-! ## Literals -/

theorem literalScan_bounds (bs : List Byte) (cnt : Nat) :
    cnt ≤ literalScan cnt bs ∧ literalScan cnt bs ≤ cnt + bs.length ∧ literalScan cnt bs ≤ max cnt 127 := by
  induction bs generalizing cnt with
  | nil => simp [literalScan]
  | cons b bs ih =>
    have := ih (cnt + 1)
    simp only [literalScan, Config.rleMaxLit, List.length_cons]
    by_cases h : cnt < 127 ∧ ¬ startsRun3 (b :: bs) = true
    · rw [if_pos h]
      omega
    · rw [if_neg h]
      omega

/-- A literal block takes 1 to 127 bytes of the row (40 R124, R126). -/
theorem literalLength_bounds (b : Byte) (bs : List Byte) :
    1 ≤ literalLength (b :: bs) ∧ literalLength (b :: bs) ≤ 127 ∧ literalLength (b :: bs) ≤ bs.length + 1 := by
  have := literalScan_bounds bs 1
  simp only [literalLength, List.tail_cons]
  omega

/-- Where a scan of `k` bytes meets no start of a run, and what stops it after them (40 R126). -/
theorem literalScan_eq (bs rest : List Byte) (cnt : Nat) (hcap : cnt + bs.length ≤ 127)
    (hno : ∀ k < bs.length, startsRun3 ((bs ++ rest).drop k) = false)
    (hstop : cnt + bs.length = 127 ∨ rest = [] ∨ startsRun3 rest = true) :
    literalScan cnt (bs ++ rest) = cnt + bs.length := by
  induction bs generalizing cnt with
  | nil =>
    cases rest with
    | nil => simp [literalScan]
    | cons c cs =>
      rcases hstop with h | h | h
      · simp only [List.length_nil, Nat.add_zero] at h
        simp [literalScan, Config.rleMaxLit, h]
      · simp at h
      · simp [literalScan, h]
  | cons b bs ih =>
    have h0 := hno 0 (by simp)
    simp only [List.drop_zero, List.cons_append] at h0
    simp only [List.length_cons] at hcap hstop ⊢
    have hlt : cnt < 127 := by omega
    simp only [List.cons_append, literalScan, Config.rleMaxLit, h0, hlt, Bool.false_eq_true, not_false_eq_true, and_self,
      if_true]
    rw [ih (cnt + 1) (by omega) (fun k hk => by simpa using hno (k + 1) (by simpa using hk))
      (hstop.imp (fun h => by omega) id)]
    omega

/-! ## Turns of the compressor -/

/-- The block one turn appends to `out` (40 R122 to R124). -/
def turnBlock (row : List Byte) : List Byte :=
  if Config.rleTrailQuirk ∧ row.length = 1 then [0x00] ++ row.take 1
  else if Config.rleMinRun ≤ runLength row then [u8 ((257 - runLength row) % 256)] ++ row.take 1
  else [u8 (literalLength row - 1)] ++ row.take (literalLength row)

theorem compressTurn_out (row : List Byte) (r : RlcRegs) : (compressTurn row r).out = r.out ++ turnBlock row := by
  simp only [compressTurn, turnBlock]
  split
  · simp
  · split <;> simp

/-- A turn consumes at least one byte of a row and not more than the row, and at most 127. -/
theorem turnLength_bounds (b : Byte) (bs : List Byte) :
    1 ≤ turnLength (b :: bs) ∧ turnLength (b :: bs) ≤ bs.length + 1 ∧ turnLength (b :: bs) ≤ 127 := by
  have h1 := runLength_bounds b bs
  have h2 := literalLength_bounds b bs
  simp only [turnLength, List.length_cons]
  split
  · omega
  · split <;> omega

/-- `out` of the loop is what it was, with bytes that depend on the row alone after it. -/
theorem compressLoop_out (fuel : Nat) (row : List Byte) (r : RlcRegs) :
    (compressLoop fuel row r).out = r.out ++ (compressLoop fuel row RlcRegs.reset).out := by
  induction fuel generalizing row r with
  | zero => simp [compressLoop, RlcRegs.reset]
  | succ fuel ih =>
    simp only [compressLoop]
    split
    · simp [RlcRegs.reset]
    · rw [ih, ih (r := compressTurn row RlcRegs.reset), compressTurn_out, compressTurn_out]
      simp [RlcRegs.reset]

/-- The row's length is fuel enough: more of it changes nothing. -/
theorem compressLoop_fuel (m n : Nat) (row : List Byte) (r : RlcRegs) (hm : row.length ≤ m) (hn : row.length ≤ n) :
    compressLoop m row r = compressLoop n row r := by
  induction m generalizing n row r with
  | zero =>
    obtain rfl : row = [] := by simpa using hm
    cases n <;> simp [compressLoop]
  | succ m ih =>
    cases row with
    | nil => cases n <;> simp [compressLoop]
    | cons b bs =>
      cases n with
      | zero => simp at hn
      | succ n =>
        have hb := turnLength_bounds b bs
        simp only [List.length_cons] at hm hn
        simp only [compressLoop, List.isEmpty_cons, Bool.false_eq_true, if_false]
        exact ih n _ _ (by simp only [List.length_drop, List.length_cons]; omega)
          (by simp only [List.length_drop, List.length_cons]; omega)

/-- compress depends on the row alone, not on what the working registers hold (40 R120, 70 R246). -/
theorem compressRegs_out (row : List Byte) (r : RlcRegs) : (compressRegs row r).out = compress row := by
  rw [compressRegs, compressLoop_out, compress, compressRegs, compressLoop_out row.length row]
  simp [RlcRegs.reset]

@[simp] theorem compress_nil : compress [] = [] := rfl

/-- compress as a recursion over turns: the block of the first turn, then the rest on its own. -/
theorem compress_cons (b : Byte) (bs : List Byte) :
    compress (b :: bs) = turnBlock (b :: bs) ++ compress ((b :: bs).drop (turnLength (b :: bs))) := by
  have hb := turnLength_bounds b bs
  conv => lhs; simp only [compress, compressRegs, List.length_cons, compressLoop, List.isEmpty_cons, Bool.false_eq_true, if_false]
  rw [compressLoop_out, compressTurn_out, List.nil_append]
  congr 1
  rw [compress, compressRegs, compressLoop_fuel _ bs.length _ _ (Nat.le_refl _)
    (by simp only [List.length_drop, List.length_cons]; omega)]
  rfl

/-! ## The decompressor -/

/-- The output of one block. -/
def blockOutput (i : Instr) : List Byte := (rlcBlock i RlcRegs.reset).out

/-- The bytes of a stream one block takes. -/
def blockSize (i : Instr) : Nat := (rlcBlock i RlcRegs.reset).i

theorem rlcBlock_out (i : Instr) (r : RlcRegs) : (rlcBlock i r).out = r.out ++ blockOutput i := by
  cases i <;> simp [rlcBlock, blockOutput, rlcLit, rlcNop, rlcRep, RlcRegs.reset]

theorem rlcBlock_i (i : Instr) (r : RlcRegs) : (rlcBlock i r).i = r.i + blockSize i := by
  cases i <;> simp [rlcBlock, blockSize, rlcLit, rlcNop, rlcRep, RlcRegs.reset, Nat.add_assoc]

/-- A block that decodes consumes at least its control byte. -/
theorem decodeBr1_length {c : Byte} {cs rest : List Byte} {i : Instr} (h : decode .br1 (c :: cs) = .ok (i, rest)) :
    rest.length ≤ cs.length := by
  simp only [decode, decodeBr1] at h
  split at h
  · split at h
    · simp at h
    · obtain ⟨_, rfl⟩ := by simpa using h
      simp
  · split at h
    · obtain ⟨_, rfl⟩ := by simpa using h
      exact Nat.le_refl _
    · split at h
      · simp at h
      · obtain ⟨_, rfl⟩ := by simpa using h
        simp

theorem decompressLoop_fuel (m n : Nat) (s : List Byte) (r : RlcRegs) (hm : s.length ≤ m) (hn : s.length ≤ n) :
    decompressLoop m s r = decompressLoop n s r := by
  induction m generalizing n s r with
  | zero =>
    obtain rfl : s = [] := by simpa using hm
    cases n <;> simp [decompressLoop]
  | succ m ih =>
    cases s with
    | nil => cases n <;> simp [decompressLoop]
    | cons c cs =>
      cases n with
      | zero => simp at hn
      | succ n =>
        simp only [decompressLoop, List.isEmpty_cons, Bool.false_eq_true, if_false]
        cases hd : decode .br1 (c :: cs) with
        | error e => rfl
        | ok p =>
          obtain ⟨b, rest⟩ := p
          have := decodeBr1_length hd
          simp only [List.length_cons] at hm hn
          exact ih n rest _ (by omega) (by omega)

/-- What the loop answers, from what it answers from cleared registers: the output after what stood in `out`, the offset
after where the cursor stood. -/
theorem decompressLoop_shift (fuel : Nat) (s : List Byte) (r : RlcRegs) :
    (∀ u, decompressLoop fuel s RlcRegs.reset = .ok u →
      ∃ v, decompressLoop fuel s r = .ok v ∧ v.out = r.out ++ u.out ∧ v.i = r.i + u.i) ∧
    (∀ u, decompressLoop fuel s RlcRegs.reset = .error u →
      ∃ v, decompressLoop fuel s r = .error v ∧ v.i = r.i + u.i ∧ 1 ≤ u.i) := by
  induction fuel generalizing s r with
  | zero =>
    refine ⟨fun u hu => ?_, fun u hu => ?_⟩
    · obtain rfl : RlcRegs.reset = u := by simpa [decompressLoop] using hu
      exact ⟨r, rfl, by simp [RlcRegs.reset], by simp [RlcRegs.reset]⟩
    · simp [decompressLoop] at hu
  | succ fuel ih =>
    cases s with
    | nil =>
      refine ⟨fun u hu => ?_, fun u hu => ?_⟩
      · obtain rfl : RlcRegs.reset = u := by simpa [decompressLoop] using hu
        exact ⟨r, by simp [decompressLoop], by simp [RlcRegs.reset], by simp [RlcRegs.reset]⟩
      · simp [decompressLoop] at hu
    | cons c cs =>
      simp only [decompressLoop, List.isEmpty_cons, Bool.false_eq_true, if_false]
      cases decode .br1 (c :: cs) with
      | error e =>
        refine ⟨fun u hu => by simp at hu, fun u hu => ?_⟩
        obtain rfl : { RlcRegs.reset with i := RlcRegs.reset.i + 1 } = u := by simpa using hu
        exact ⟨_, rfl, by simp [RlcRegs.reset], by simp [RlcRegs.reset]⟩
      | ok p =>
        obtain ⟨b, rest⟩ := p
        obtain ⟨ho1, he1⟩ := ih rest (rlcBlock b RlcRegs.reset)
        obtain ⟨ho2, he2⟩ := ih rest (rlcBlock b r)
        simp only
        cases hz : decompressLoop fuel rest RlcRegs.reset with
        | ok z =>
          obtain ⟨v1, hv1, hv1o, hv1i⟩ := ho1 z hz
          obtain ⟨v2, hv2, hv2o, hv2i⟩ := ho2 z hz
          refine ⟨fun u hu => ?_, fun u hu => by simp [hv1] at hu⟩
          obtain rfl : v1 = u := by simpa [hv1] using hu
          exact ⟨v2, hv2, by simp [hv1o, hv2o, rlcBlock_out, RlcRegs.reset], by
            rw [hv1i, hv2i, rlcBlock_i, rlcBlock_i]; simp [RlcRegs.reset]; omega⟩
        | error z =>
          obtain ⟨v1, hv1, hv1i, hz1⟩ := he1 z hz
          obtain ⟨v2, hv2, hv2i, _⟩ := he2 z hz
          refine ⟨fun u hu => by simp [hv1] at hu, fun u hu => ?_⟩
          obtain rfl : v1 = u := by simpa [hv1] using hu
          exact ⟨v2, hv2, by rw [hv1i, hv2i, rlcBlock_i, rlcBlock_i]; simp [RlcRegs.reset]; omega, by omega⟩

/-- decompress does not depend on what the working registers hold. -/
theorem decompressRegs_ok {s out : List Byte} (h : decompress s = .ok out) (r : RlcRegs) :
    ∃ v, decompressRegs s r = .ok v ∧ v.out = out := by
  simp only [decompress] at h
  obtain ⟨ho, he⟩ := decompressLoop_shift s.length s { r with i := 0, out := [] }
  cases hz : decompressRegs s RlcRegs.reset with
  | error z => simp [hz] at h
  | ok z =>
    obtain rfl : z.out = out := by simpa [hz] using h
    obtain ⟨v, hv, hvo, _⟩ := ho z hz
    exact ⟨v, hv, by simpa using hvo⟩

theorem decompressRegs_error {s : List Byte} {off : Nat} (h : decompress s = .error off) (r : RlcRegs) :
    ∃ v, decompressRegs s r = .error v ∧ v.i - 1 = off := by
  simp only [decompress] at h
  obtain ⟨ho, he⟩ := decompressLoop_shift s.length s { r with i := 0, out := [] }
  cases hz : decompressRegs s RlcRegs.reset with
  | ok z => simp [hz] at h
  | error z =>
    have hz' : z.i - 1 = off := by simpa [hz] using h
    obtain ⟨v, hv, hvi, _⟩ := he z hz
    exact ⟨v, hv, by simp only at hvi; omega⟩

@[simp] theorem decompress_nil : decompress [] = .ok [] := rfl

/-- decompress as a recursion over blocks. -/
theorem decompress_cons (c : Byte) (cs : List Byte) :
    decompress (c :: cs) =
      match decode .br1 (c :: cs) with
      | .error _ => .error 0
      | .ok (b, rest) =>
        match decompress rest with
        | .ok out => .ok (blockOutput b ++ out)
        | .error n => .error (blockSize b + n) := by
  simp only [decompress, decompressRegs, List.length_cons, decompressLoop, List.isEmpty_cons, Bool.false_eq_true, if_false]
  cases hd : decode .br1 (c :: cs) with
  | error e => simp
  | ok p =>
    obtain ⟨b, rest⟩ := p
    have hlen := decodeBr1_length hd
    obtain ⟨ho, he⟩ := decompressLoop_shift cs.length rest (rlcBlock b { RlcRegs.reset with i := 0, out := [] })
    simp only
    rw [decompressLoop_fuel rest.length cs.length rest _ (Nat.le_refl _) hlen]
    change _ = match (match decompressLoop cs.length rest RlcRegs.reset with
        | .ok r => Except.ok r.out | .error r => .error (r.i - 1) : Except Nat (List Byte)) with
      | .ok out => Except.ok (blockOutput b ++ out)
      | .error n => Except.error (blockSize b + n)
    cases hz : decompressLoop cs.length rest RlcRegs.reset with
    | ok z =>
      obtain ⟨v, hv, hvo, _⟩ := ho z hz
      simp [hv, hvo, rlcBlock_out]
    | error z =>
      obtain ⟨v, hv, hvi, h1⟩ := he z hz
      rw [rlcBlock_i] at hvi
      simp only [hv]
      congr 1
      simp only at hvi
      omega

/-! ## Induction over turns and blocks -/

/-- A property of rows holds of every row if it holds of the empty row and passes from the rest after a turn to the row. -/
theorem turn_induction {P : List Byte → Prop} (h0 : P [])
    (h : ∀ b bs, P ((b :: bs).drop (turnLength (b :: bs))) → P (b :: bs)) : ∀ row, P row := by
  have key : ∀ n row, row.length ≤ n → P row := by
    intro n
    induction n with
    | zero =>
      intro row hr
      obtain rfl : row = [] := by simpa using hr
      exact h0
    | succ n ih =>
      intro row hr
      cases row with
      | nil => exact h0
      | cons b bs =>
        have hb := turnLength_bounds b bs
        simp only [List.length_cons] at hr
        exact h b bs (ih _ (by simp only [List.length_drop, List.length_cons]; omega))
  exact fun row => key _ row (Nat.le_refl _)

/-- The value of a LIT control byte. -/
theorem litByte_toNat (n : BitVec 7) : ((0b0#1) ++ n : BitVec 8).toNat = n.toNat := by
  rw [BitVec.toNat_append]
  simp

/-- The value of a REP control byte. -/
theorem repByte_toNat (n : BitVec 7) : ((0b1#1) ++ n : BitVec 8).toNat = 128 + n.toNat := by
  have hn := n.isLt
  have h1 : (1#1).toNat <<< 7 = 2 ^ 7 * 1 := rfl
  rw [BitVec.toNat_append, h1, ← Nat.two_pow_add_eq_or_of_lt hn]

/-- The sizes of a block and of the bytes after it. -/
theorem blockSize_add {c : Byte} {cs rest : List Byte} {i : Instr} (h : decode .br1 (c :: cs) = .ok (i, rest)) :
    blockSize i + rest.length = cs.length + 1 := by
  simp only [decode, decodeBr1] at h
  split at h
  · split at h
    · simp at h
    · rename_i h1 h2
      obtain ⟨rfl, rfl⟩ := by simpa using h
      have hn : (c.extractLsb' 0 7).toNat = c.toNat := by
        rw [BitVec.extractLsb'_toNat]
        simp
        omega
      simp only [blockSize, rlcBlock, rlcLit, RlcRegs.reset, hn, List.length_drop]
      omega
  · split at h
    · obtain ⟨rfl, rfl⟩ := by simpa using h
      simp only [blockSize, rlcBlock, rlcNop, RlcRegs.reset]
      omega
    · split at h
      · simp at h
      · obtain ⟨rfl, rfl⟩ := by simpa using h
        simp only [blockSize, rlcBlock, rlcRep, RlcRegs.reset, List.length_cons]
        omega

/-- What follows a block does not change how it decodes. -/
theorem decodeBr1_append {c : Byte} {cs rest tail : List Byte} {i : Instr}
    (h : decode .br1 (c :: cs) = .ok (i, rest)) : decode .br1 (c :: (cs ++ tail)) = .ok (i, rest ++ tail) := by
  simp only [decode, decodeBr1] at h ⊢
  split at h
  · split at h
    · simp at h
    · rename_i h1 h2
      obtain ⟨rfl, rfl⟩ := by simpa using h
      rw [if_pos h1, if_neg (by simp; omega), List.take_append_of_le_length (by omega),
        List.drop_append_of_le_length (by omega)]
  · rename_i h1
    rw [if_neg h1]
    split at h
    · rename_i h2
      obtain ⟨rfl, rfl⟩ := by simpa using h
      rw [if_pos h2]
    · rename_i h2
      rw [if_neg h2]
      split at h
      · simp at h
      · obtain ⟨rfl, rfl⟩ := by simpa using h
        simp

end Sys2Proof.Machine
end

