-- ==== Sys2Proof/Laws/Flow.lean ====
section
/-! SUPPORT. How a property passes through a command: the rules of `andThen` and `forEach`. -/

namespace Sys2Proof.Machine

/-- A part of a command that goes on leaves a state with `Q`; one that raises a fault leaves a state with `R`. -/
def Flow.Ends (Q R : State → Prop) : Flow → Prop
  | .go s => Q s
  | .raised s => R s
  | .refused _ => True

@[simp] theorem andThen_go (s : State) (k : State → Flow) : (Flow.go s).andThen k = k s := rfl
@[simp] theorem andThen_raised (s : State) (k : State → Flow) : (Flow.raised s).andThen k = .raised s := rfl
@[simp] theorem andThen_refused (r : Refusal) (k : State → Flow) : (Flow.refused r).andThen k = .refused r := rfl
@[simp] theorem outcome_go (s : State) : (Flow.go s).outcome = .next s := rfl
@[simp] theorem outcome_raised (s : State) : (Flow.raised s).outcome = .next s := rfl
@[simp] theorem outcome_refused (r : Refusal) : (Flow.refused r).outcome = .refused r := rfl
@[simp] theorem ends_go (Q R : State → Prop) (s : State) : (Flow.go s).Ends Q R = Q s := rfl
@[simp] theorem ends_raised (Q R : State → Prop) (s : State) : (Flow.raised s).Ends Q R = R s := rfl
@[simp] theorem ends_refused (Q R : State → Prop) (r : Refusal) : (Flow.refused r).Ends Q R = True := rfl
@[simp] theorem forEach_nil (body : Nat → State → Flow) (s : State) : forEach body [] s = .go s := rfl
@[simp] theorem forEach_cons (body : Nat → State → Flow) (i : Nat) (is : List Nat) (s : State) :
    forEach body (i :: is) s = (body i s).andThen (forEach body is) := rfl

theorem andThen_assoc (f : Flow) (g k : State → Flow) :
    (f.andThen g).andThen k = f.andThen fun s => (g s).andThen k := by
  cases f <;> rfl

theorem Flow.Ends.mono {Q Q' R R' : State → Prop} {f : Flow} (h : f.Ends Q R) (hq : ∀ s, Q s → Q' s)
    (hr : ∀ s, R s → R' s) : f.Ends Q' R' := by
  cases f with
  | go s => exact hq s h
  | raised s => exact hr s h
  | refused r => trivial

theorem andThen_ends {P Q R : State → Prop} {f : Flow} {k : State → Flow} (hf : f.Ends P R)
    (hk : ∀ s, P s → (k s).Ends Q R) : (f.andThen k).Ends Q R := by
  cases f with
  | go s => exact hk s hf
  | raised s => exact hf
  | refused r => trivial

/-- The loop rule with a loop invariant that knows the number of turns made: what holds before turn `j` of a `for` from 0
holds after it of `j + 1`. -/
theorem forEach_range_ends {P : Nat → State → Prop} {R : State → Prop} {body : Nat → State → Flow} (n : Nat) {s : State}
    (h0 : P 0 s) (hstep : ∀ j < n, ∀ t, P j t → (body j t).Ends (P (j + 1)) R) :
    (forEach body (List.range n) s).Ends (P n) R := by
  have key : ∀ m j t, j + m = n → P j t → (forEach body (List.range' j m) t).Ends (P n) R := by
    intro m
    induction m with
    | zero =>
      intro j t hj hp
      obtain rfl : j = n := by omega
      simpa using hp
    | succ m ih =>
      intro j t hj hp
      rw [List.range'_succ, forEach_cons]
      exact andThen_ends (hstep j (by omega) t hp) fun u hu => ih (j + 1) u (by omega) hu
  simpa [List.range_eq_range'] using key n 0 s (by omega) h0

/-- A loop whose body never raises a fault nor refuses on states with `P` goes on. -/
theorem forEach_range_goes {P : Nat → State → Prop} {body : Nat → State → Flow} (n : Nat) {s : State}
    (h0 : P 0 s) (hstep : ∀ j < n, ∀ t, P j t → ∃ u, body j t = .go u ∧ P (j + 1) u) :
    ∃ u, forEach body (List.range n) s = .go u ∧ P n u := by
  have key : ∀ m j t, j + m = n → P j t → ∃ u, forEach body (List.range' j m) t = .go u ∧ P n u := by
    intro m
    induction m with
    | zero =>
      intro j t hj hp
      obtain rfl : j = n := by omega
      exact ⟨t, rfl, hp⟩
    | succ m ih =>
      intro j t hj hp
      obtain ⟨u, hu, hpu⟩ := hstep j (by omega) t hp
      rw [List.range'_succ, forEach_cons, hu]
      exact ih (j + 1) u (by omega) hpu
  simpa [List.range_eq_range'] using key n 0 s (by omega) h0

/-- A loop whose every turn goes on or is refused with `B`: it goes on to its end, or it is refused with `B`. -/
theorem forEach_range_goes_or_refuses {P : Nat → State → Prop} {B : Refusal → Prop} {body : Nat → State → Flow} (n : Nat)
    {s : State} (h0 : P 0 s)
    (hstep : ∀ j < n, ∀ t, P j t → (∃ u, body j t = .go u ∧ P (j + 1) u) ∨ ∃ r, body j t = .refused r ∧ B r) :
    (∃ u, forEach body (List.range n) s = .go u ∧ P n u) ∨ ∃ r, forEach body (List.range n) s = .refused r ∧ B r := by
  have key : ∀ m j t, j + m = n → P j t →
      (∃ u, forEach body (List.range' j m) t = .go u ∧ P n u) ∨
      ∃ r, forEach body (List.range' j m) t = .refused r ∧ B r := by
    intro m
    induction m with
    | zero =>
      intro j t hj hp
      obtain rfl : j = n := by omega
      exact .inl ⟨t, rfl, hp⟩
    | succ m ih =>
      intro j t hj hp
      rw [List.range'_succ, forEach_cons]
      rcases hstep j (by omega) t hp with ⟨u, hu, hpu⟩ | ⟨r, hr, hb⟩
      · rw [hu]
        exact ih (j + 1) u (by omega) hpu
      · rw [hr]
        exact .inr ⟨r, rfl, hb⟩
  simpa [List.range_eq_range'] using key n 0 s (by omega) h0

/-- What a command that answers a next state went through. -/
theorem outcome_next {f : Flow} {t : State} (h : f.outcome = .next t) : f = .go t ∨ f = .raised t := by
  cases f with
  | go s => exact .inl (by simpa using h)
  | raised s => exact .inr (by simpa using h)
  | refused r => simp at h

theorem ends_of_outcome {Q : State → Prop} {f : Flow} {t : State} (he : f.Ends Q Q) (h : f.outcome = .next t) : Q t := by
  rcases outcome_next h with rfl | rfl
  · exact he
  · exact he

/-- The four cases of a command that only IDLE and DONE accept (44 R196). -/
theorem whenAccepted_idle {run : State → Host.Outcome State Fault Refusal} {s : State} (h : s.status = .idle ∨ s.status = .done) :
    whenAccepted run s = run s := by
  rcases h with h | h <;> simp [whenAccepted, h]

theorem whenAccepted_fault {run : State → Host.Outcome State Fault Refusal} {s : State} (h : s.status = .fault) :
    whenAccepted run s = .next s := by
  simp [whenAccepted, h]

theorem whenAccepted_busy {run : State → Host.Outcome State Fault Refusal} {s : State} (h : s.status = .busy) :
    whenAccepted run s = .refused .hostMoveWhileBusy := by
  simp [whenAccepted, h]

/-- A command that only IDLE and DONE accept and that answers a next state was run, or left the state as it was. -/
theorem whenAccepted_next {run : State → Host.Outcome State Fault Refusal} {s t : State} (h : whenAccepted run s = .next t) :
    ((s.status = .idle ∨ s.status = .done) ∧ run s = .next t) ∨ (s.status = .fault ∧ t = s) := by
  cases hs : s.status with
  | idle => exact .inl ⟨.inl rfl, by rwa [whenAccepted_idle (.inl hs)] at h⟩
  | done => exact .inl ⟨.inr rfl, by rwa [whenAccepted_idle (.inr hs)] at h⟩
  | fault => exact .inr ⟨rfl, by rw [whenAccepted_fault hs] at h; simpa using h.symm⟩
  | busy => rw [whenAccepted_busy hs] at h; simp at h

end Sys2Proof.Machine
end

