-- ==== Sys2Proof/Laws/Sink.lean ====
section
/-! SUPPORT. What each sink operation can do, said once: it goes on with all its effect, or the host fails it and the fault
is raised with exactly the effect before the failure (20_memory.md R70 to R75, 60_exceptions.md R223). -/

namespace Sys2Proof.Machine

/-- A failure of the sink raises a fault: the state it leaves differs from `raiseFault`'s only in the free value of a
length that does not fit 32 bits. -/
theorem ioFailure_eq (ctx : Context) (s : State) :
    ∃ v n, ioFailure ctx s = raiseFault .ioFailure ctx v { s with freeTick := n } ∧
      (s.out.length < 2 ^ 32 → v = BitVec.ofNat 32 s.out.length ∧ n = s.freeTick) := by
  unfold ioFailure
  split
  · exact ⟨_, s.freeTick, rfl, fun _ => ⟨rfl, rfl⟩⟩
  · rename_i h
    exact ⟨_, _, rfl, fun h' => absurd h' h⟩

theorem sinkCreate_cases (s : State) :
    (sinkAnswer s = true ∧ sinkCreate s = .go { answered s with out := [], wpos := 0, sinkOpen := true }) ∨
    (sinkAnswer s = false ∧ sinkCreate s = .raised (ioFailure ctxOpen (answered s))) := by
  unfold sinkCreate
  cases sinkAnswer s <;> simp

/-- All answers the next `n` sink operations get are yes. -/
def answersYes (n : Nat) (o : List Bool) : Prop := ∀ a ∈ o.take n, a = true

/-- The first no among the answers of the next operations is the one of operation `k`. -/
def firstNo (k : Nat) (o : List Bool) : Prop := answersYes k o ∧ o[k]? = some false

theorem answersYes_zero (o : List Bool) : answersYes 0 o := by simp [answersYes]

theorem answersYes_succ {n : Nat} {o : List Bool} : answersYes (n + 1) o ↔ o.headD true = true ∧ answersYes n o.tail := by
  cases o with
  | nil => simp [answersYes]
  | cons a o => simp [answersYes]

theorem answersYes_add {m n : Nat} {o : List Bool} : answersYes (m + n) o ↔ answersYes m o ∧ answersYes n (o.drop m) := by
  induction m generalizing o with
  | zero => simp [answersYes_zero]
  | succ m ih =>
    rw [show m + 1 + n = m + n + 1 by omega, answersYes_succ, answersYes_succ, ih, List.drop_tail]
    simp [and_assoc]

theorem answersYes_of_all {n : Nat} {o : List Bool} (h : ∀ a ∈ o, a = true) : answersYes n o :=
  fun a ha => h a (List.mem_of_mem_take ha)

theorem firstNo_succ {k : Nat} {o : List Bool} : firstNo (k + 1) o ↔ o.headD true = true ∧ firstNo k o.tail := by
  simp only [firstNo, answersYes_succ, and_assoc]
  cases o with
  | nil => simp
  | cons a o => simp

theorem firstNo_zero {o : List Bool} : firstNo 0 o ↔ o.headD true = false := by
  cases o with
  | nil => simp [firstNo]
  | cons a o => simp [firstNo, answersYes]

/-- `n` operations all succeed, or one of them is the first to fail. -/
theorem answers_cases (n : Nat) (o : List Bool) : answersYes n o ∨ ∃ k < n, firstNo k o := by
  induction n generalizing o with
  | zero => exact .inl (answersYes_zero o)
  | succ n ih =>
    cases h : o.headD true with
    | false => exact .inr ⟨0, by omega, firstNo_zero.mpr h⟩
    | true =>
      rcases ih o.tail with h' | ⟨k, hk, h'⟩
      · exact .inl (answersYes_succ.mpr ⟨h, h'⟩)
      · exact .inr ⟨k + 1, by omega, firstNo_succ.mpr ⟨h, h'⟩⟩

theorem firstNo_add {k n : Nat} {o : List Bool} (hy : answersYes n o) (hn : firstNo k (o.drop n)) : firstNo (n + k) o :=
  ⟨answersYes_add.mpr ⟨hy, hn.1⟩, by simpa [List.getElem?_drop] using hn.2⟩

/-- An operation that fails is not among operations that succeed. -/
theorem answersYes_not_firstNo {k n : Nat} {o : List Bool} (hy : answersYes n o) (hn : firstNo k o) : n ≤ k := by
  refine Nat.le_of_not_lt fun hlt => ?_
  obtain ⟨hk, hget⟩ := List.getElem?_eq_some_iff.mp hn.2
  have := hy _ (List.mem_take_iff_getElem.mpr ⟨k, by omega, hget⟩)
  simp at this

/-- A host that fails an operation does not answer yes to all. -/
theorem firstNo_not_all {k : Nat} {o : List Bool} (hn : firstNo k o) : ¬ ∀ a ∈ o, a = true := fun h => by
  have := answersYes_not_firstNo (answersYes_of_all (n := k + 1) h) hn
  omega

/-- The first operation that fails is one. -/
theorem firstNo_unique {j k : Nat} {o : List Bool} (hj : firstNo j o) (hk : firstNo k o) : j = k :=
  Nat.le_antisymm (answersYes_not_firstNo hj.1 hk) (answersYes_not_firstNo hk.1 hj)

/-- `Append(bytes)` where every answer is yes (20 R71). -/
theorem appendAll_yes (ctx : Context) (bs : List Byte) {s : State} (hw : s.wpos = s.out.length)
    (ho : answersYes bs.length s.oracle) :
    appendAll ctx bs s =
      .go { s with out := s.out ++ bs, wpos := s.wpos + bs.length, oracle := s.oracle.drop bs.length } := by
  induction bs generalizing s with
  | nil => simp [appendAll]
  | cons b bs ih =>
    obtain ⟨h1, h2⟩ := answersYes_succ.mp ho
    simp only [appendAll, sinkAppend, hw, ne_eq, not_true_eq_false, if_false, sinkAnswer, h1, if_true, andThen_go]
    rw [ih (by simp) (by simpa [answered] using h2)]
    simp [answered, Nat.add_assoc, Nat.add_comm 1, List.drop_tail]

/-- `Append(bytes)` that fails at byte `k`: exactly the bytes before it are in OUT (20 R71). -/
theorem appendAll_no (ctx : Context) (bs : List Byte) {s : State} {k : Nat} (hw : s.wpos = s.out.length)
    (hk : k < bs.length) (ho : firstNo k s.oracle) :
    appendAll ctx bs s =
      .raised (ioFailure ctx
        { s with out := s.out ++ bs.take k, wpos := s.wpos + k, oracle := s.oracle.drop (k + 1) }) := by
  induction bs generalizing s k with
  | nil => simp at hk
  | cons b bs ih =>
    cases k with
    | zero =>
      have h : sinkAnswer s = false := firstNo_zero.mp ho
      simp [appendAll, sinkAppend, hw, h, answered]
    | succ k =>
      obtain ⟨h1, h2⟩ := firstNo_succ.mp ho
      simp only [appendAll, sinkAppend, hw, ne_eq, not_true_eq_false, if_false, sinkAnswer, h1, if_true, andThen_go]
      rw [ih (by simp) (by simpa using hk) (by simpa [answered] using h2)]
      simp [answered, Nat.add_assoc, Nat.add_comm 1, List.drop_tail]

/-- What `Append(bytes)` can do. -/
theorem appendAll_cases (ctx : Context) (bs : List Byte) {s : State} (hw : s.wpos = s.out.length) :
    (answersYes bs.length s.oracle ∧ appendAll ctx bs s =
      .go { s with out := s.out ++ bs, wpos := s.wpos + bs.length, oracle := s.oracle.drop bs.length }) ∨
    ∃ k < bs.length, firstNo k s.oracle ∧ appendAll ctx bs s =
      .raised (ioFailure ctx
        { s with out := s.out ++ bs.take k, wpos := s.wpos + k, oracle := s.oracle.drop (k + 1) }) := by
  rcases answers_cases bs.length s.oracle with h | ⟨k, hk, h⟩
  · exact .inl ⟨h, appendAll_yes ctx bs hw h⟩
  · exact .inr ⟨k, hk, h, appendAll_no ctx bs hw hk h⟩

/-- The bytes of `bs` written over those of `out` from `off` on. -/
def overwrite (out : List Byte) : Nat → List Byte → List Byte
  | _, [] => out
  | off, b :: bs => overwrite (out.set off b) (off + 1) bs

@[simp] theorem overwrite_length (out : List Byte) (off : Nat) (bs : List Byte) :
    (overwrite out off bs).length = out.length := by
  induction bs generalizing out off with
  | nil => rfl
  | cons b bs ih => simp [overwrite, ih]

/-- What overwriting leaves at every offset. -/
theorem overwrite_get (bs : List Byte) (out : List Byte) (off k : Nat) (hk : k < out.length) :
    (overwrite out off bs)[k]? = if off ≤ k ∧ k < off + bs.length then bs[k - off]? else out[k]? := by
  induction bs generalizing out off with
  | nil =>
    have : ¬ (off ≤ k ∧ k < off) := by omega
    simp [overwrite, this]
  | cons b bs ih =>
    simp only [overwrite, ih (out.set off b) (off + 1) (by simpa using hk), List.length_cons]
    by_cases h0 : k = off
    · subst h0
      simp [hk]
    · by_cases h1 : off + 1 ≤ k ∧ k < off + 1 + bs.length
      · rw [if_pos h1, if_pos (by omega), show k - off = (k - (off + 1)) + 1 by omega, List.getElem?_cons_succ]
      · rw [if_neg h1, if_neg (by omega), List.getElem?_set_ne (Ne.symm h0)]

/-- Overwriting the middle of three parts. -/
theorem overwrite_middle (a x b bs : List Byte) (h : x.length = bs.length) :
    overwrite (a ++ x ++ b) a.length bs = a ++ bs ++ b := by
  refine List.ext_getElem? fun k => ?_
  rcases Nat.lt_or_ge k (a ++ x ++ b).length with hk | hk
  · rw [overwrite_get _ _ _ _ hk]
    split
    · rw [List.append_assoc, List.getElem?_append_right (by omega), List.getElem?_append_left (by omega)]
    · rcases Nat.lt_or_ge k a.length with h1 | h1
      · rw [List.append_assoc, List.append_assoc, List.getElem?_append_left h1, List.getElem?_append_left h1]
      · rw [List.getElem?_append_right (by simp; omega), List.getElem?_append_right (by simp; omega)]
        simp [h]
  · rw [List.getElem?_eq_none (by rw [overwrite_length]; exact hk), List.getElem?_eq_none (by simp at hk ⊢; omega)]

theorem overwriteAll_yes (ctx : Context) (bs : List Byte) {s : State} (ho : answersYes bs.length s.oracle) :
    overwriteAll ctx bs s =
      .go { s with
        out := overwrite s.out s.wpos bs, wpos := s.wpos + bs.length, oracle := s.oracle.drop bs.length } := by
  induction bs generalizing s with
  | nil => simp [overwriteAll, overwrite]
  | cons b bs ih =>
    obtain ⟨h1, h2⟩ := answersYes_succ.mp ho
    simp only [overwriteAll, sinkOverwrite, sinkAnswer, h1, if_true, andThen_go]
    rw [ih (by simpa [answered] using h2)]
    simp [answered, overwrite, Nat.add_assoc, Nat.add_comm 1, List.drop_tail]

theorem overwriteAll_no (ctx : Context) (bs : List Byte) {s : State} {k : Nat} (hk : k < bs.length)
    (ho : firstNo k s.oracle) :
    overwriteAll ctx bs s =
      .raised (ioFailure ctx { s with
        out := overwrite s.out s.wpos (bs.take k), wpos := s.out.length, oracle := s.oracle.drop (k + 1) }) := by
  induction bs generalizing s k with
  | nil => simp at hk
  | cons b bs ih =>
    cases k with
    | zero =>
      have h : sinkAnswer s = false := firstNo_zero.mp ho
      simp [overwriteAll, sinkOverwrite, h, answered, patchFailed, overwrite]
    | succ k =>
      obtain ⟨h1, h2⟩ := firstNo_succ.mp ho
      simp only [overwriteAll, sinkOverwrite, sinkAnswer, h1, if_true, andThen_go]
      rw [ih (by simpa using hk) (by simpa [answered] using h2)]
      simp [answered, overwrite, List.drop_tail]

/-- What `SinkPatch32` can do where its precondition holds: all of it, or a failure that leaves `j` of the four bytes
(20 R73). -/
theorem sinkPatch32_cases (ctx : Context) {off v : Nat} {s : State} (hoff : off + 4 ≤ s.out.length) (hv : v < 2 ^ 32) :
    (answersYes 6 s.oracle ∧ sinkPatch32 ctx off v s =
      .go { s with out := overwrite s.out off (be32 v), wpos := s.out.length, oracle := s.oracle.drop 6 }) ∨
    ∃ k < 6, firstNo k s.oracle ∧ sinkPatch32 ctx off v s =
      .raised (ioFailure ctx { s with
        out := overwrite s.out off ((be32 v).take (k - 1)), wpos := s.out.length, oracle := s.oracle.drop (k + 1) }) := by
  have hp : off + 4 ≤ s.out.length ∧ v < 2 ^ 32 := ⟨hoff, hv⟩
  have hlen : (be32 v).length = 4 := rfl
  simp only [sinkPatch32, if_pos hp]
  cases h0 : sinkAnswer s with
  | false =>
    refine .inr ⟨0, by omega, firstNo_zero.mpr h0, ?_⟩
    simp [sinkSeek, h0, patchFailed, answered, overwrite]
  | true =>
    simp only [sinkSeek, h0, if_true, andThen_go]
    rcases answers_cases 4 s.oracle.tail with h4 | ⟨k, hk, h4⟩
    · rw [overwriteAll_yes ctx (be32 v) (by simpa [answered, hlen] using h4)]
      simp only [andThen_go, sinkAnswer, answered, hlen, overwrite_length]
      cases h5 : (s.oracle.tail.drop 4).headD true with
      | false =>
        refine .inr ⟨5, by omega, ?_, ?_⟩
        · rw [show (5 : Nat) = 4 + 1 by rfl, firstNo_succ]
          refine ⟨h0, ?_⟩
          have h5' := firstNo_zero.mpr h5
          exact ⟨h4, by simpa [firstNo] using h5'.2⟩
        · simp [patchFailed, be32]
      | true =>
        refine .inl ⟨?_, ?_⟩
        · rw [show (6 : Nat) = 5 + 1 by rfl, answersYes_succ]
          refine ⟨h0, ?_⟩
          rw [show (5 : Nat) = 4 + 1 by rfl, answersYes_add]
          exact ⟨h4, answersYes_succ.mpr ⟨h5, answersYes_zero _⟩⟩
        · simp
    · rw [overwriteAll_no ctx (be32 v) (by simpa [hlen] using hk) (by simpa [answered] using h4)]
      refine .inr ⟨k + 1, by omega, firstNo_succ.mpr ⟨h0, h4⟩, ?_⟩
      simp [answered, List.drop_tail]

theorem sinkPatch32_yes (ctx : Context) {off v : Nat} {s : State} (hoff : off + 4 ≤ s.out.length) (hv : v < 2 ^ 32)
    (ho : answersYes 6 s.oracle) :
    sinkPatch32 ctx off v s =
      .go { s with out := overwrite s.out off (be32 v), wpos := s.out.length, oracle := s.oracle.drop 6 } := by
  rcases sinkPatch32_cases ctx hoff hv with ⟨_, h⟩ | ⟨k, hk, hno, _⟩
  · exact h
  · have := answersYes_not_firstNo ho hno
    omega

/-- `SinkPatch32` that fails at its operation `k`: the bytes before the failing one are patched (20 R73). -/
theorem sinkPatch32_no (ctx : Context) {off v k : Nat} {s : State} (hoff : off + 4 ≤ s.out.length) (hv : v < 2 ^ 32)
    (hk : k < 6) (ho : firstNo k s.oracle) :
    sinkPatch32 ctx off v s =
      .raised (ioFailure ctx { s with
        out := overwrite s.out off ((be32 v).take (k - 1)), wpos := s.out.length, oracle := s.oracle.drop (k + 1) }) := by
  rcases sinkPatch32_cases ctx hoff hv with ⟨hy, _⟩ | ⟨j, _, hno, h⟩
  · have := answersYes_not_firstNo hy ho
    omega
  · rw [firstNo_unique ho hno]
    exact h

end Sys2Proof.Machine
end

