-- ==== Sys2Proof/Laws/State.lean ====
section
/-! SUPPORT. What each named update of State leaves in each field, one lemma a field, so that no proof unfolds an update. -/

namespace Sys2Proof.Machine

/-! ## answered -/

@[simp] theorem answered_width (s : State) : (answered s).width = s.width := rfl
@[simp] theorem answered_height (s : State) : (answered s).height = s.height := rfl
@[simp] theorem answered_palsize (s : State) : (answered s).palsize = s.palsize := rfl
@[simp] theorem answered_ctrl (s : State) : (answered s).ctrl = s.ctrl := rfl
@[simp] theorem answered_rowlen (s : State) : (answered s).rowlen = s.rowlen := rfl
@[simp] theorem answered_status (s : State) : (answered s).status = s.status := rfl
@[simp] theorem answered_sinkOpen (s : State) : (answered s).sinkOpen = s.sinkOpen := rfl
@[simp] theorem answered_cause (s : State) : (answered s).cause = s.cause := rfl
@[simp] theorem answered_faultChunk (s : State) : (answered s).faultChunk = s.faultChunk := rfl
@[simp] theorem answered_faultPlane (s : State) : (answered s).faultPlane = s.faultPlane := rfl
@[simp] theorem answered_faultRow (s : State) : (answered s).faultRow = s.faultRow := rfl
@[simp] theorem answered_faultValue (s : State) : (answered s).faultValue = s.faultValue := rfl
@[simp] theorem answered_nplanes (s : State) : (answered s).nplanes = s.nplanes := rfl
@[simp] theorem answered_rowbytes (s : State) : (answered s).rowbytes = s.rowbytes := rfl
@[simp] theorem answered_outlen (s : State) : (answered s).outlen = s.outlen := rfl
@[simp] theorem answered_phase (s : State) : (answered s).phase = s.phase := rfl
@[simp] theorem answered_x (s : State) : (answered s).x = s.x := rfl
@[simp] theorem answered_y (s : State) : (answered s).y = s.y := rfl
@[simp] theorem answered_p (s : State) : (answered s).p = s.p := rfl
@[simp] theorem answered_hr (s : State) : (answered s).hr = s.hr := rfl
@[simp] theorem answered_hg (s : State) : (answered s).hg = s.hg := rfl
@[simp] theorem answered_hb (s : State) : (answered s).hb = s.hb := rfl
@[simp] theorem answered_rlc (s : State) : (answered s).rlc = s.rlc := rfl
@[simp] theorem answered_formLenOff (s : State) : (answered s).formLenOff = s.formLenOff := rfl
@[simp] theorem answered_bodyLenOff (s : State) : (answered s).bodyLenOff = s.bodyLenOff := rfl
@[simp] theorem answered_bodyStart (s : State) : (answered s).bodyStart = s.bodyStart := rfl
@[simp] theorem answered_bodyLen (s : State) : (answered s).bodyLen = s.bodyLen := rfl
@[simp] theorem answered_fileLen (s : State) : (answered s).fileLen = s.fileLen := rfl
@[simp] theorem answered_rasterWidth (s : State) : (answered s).rasterWidth = s.rasterWidth := rfl
@[simp] theorem answered_rasterHeight (s : State) : (answered s).rasterHeight = s.rasterHeight := rfl
@[simp] theorem answered_pix (s : State) : (answered s).pix = s.pix := rfl
@[simp] theorem answered_pal (s : State) : (answered s).pal = s.pal := rfl
@[simp] theorem answered_pln (s : State) : (answered s).pln = s.pln := rfl
@[simp] theorem answered_rowin (s : State) : (answered s).rowin = s.rowin := rfl
@[simp] theorem answered_rowout (s : State) : (answered s).rowout = s.rowout := rfl
@[simp] theorem answered_out (s : State) : (answered s).out = s.out := rfl
@[simp] theorem answered_wpos (s : State) : (answered s).wpos = s.wpos := rfl
@[simp] theorem answered_oracle (s : State) : (answered s).oracle = s.oracle.tail := rfl
@[simp] theorem answered_pending (s : State) : (answered s).pending = s.pending := rfl
@[simp] theorem answered_returned (s : State) : (answered s).returned = s.returned := rfl
@[simp] theorem answered_freeTick (s : State) : (answered s).freeTick = s.freeTick := rfl

/-! ## sinkClose -/

@[simp] theorem sinkClose_width (s : State) : (sinkClose s).width = s.width := rfl
@[simp] theorem sinkClose_height (s : State) : (sinkClose s).height = s.height := rfl
@[simp] theorem sinkClose_palsize (s : State) : (sinkClose s).palsize = s.palsize := rfl
@[simp] theorem sinkClose_ctrl (s : State) : (sinkClose s).ctrl = s.ctrl := rfl
@[simp] theorem sinkClose_rowlen (s : State) : (sinkClose s).rowlen = s.rowlen := rfl
@[simp] theorem sinkClose_status (s : State) : (sinkClose s).status = s.status := rfl
@[simp] theorem sinkClose_sinkOpen (s : State) : (sinkClose s).sinkOpen = false := rfl
@[simp] theorem sinkClose_cause (s : State) : (sinkClose s).cause = s.cause := rfl
@[simp] theorem sinkClose_faultChunk (s : State) : (sinkClose s).faultChunk = s.faultChunk := rfl
@[simp] theorem sinkClose_faultPlane (s : State) : (sinkClose s).faultPlane = s.faultPlane := rfl
@[simp] theorem sinkClose_faultRow (s : State) : (sinkClose s).faultRow = s.faultRow := rfl
@[simp] theorem sinkClose_faultValue (s : State) : (sinkClose s).faultValue = s.faultValue := rfl
@[simp] theorem sinkClose_nplanes (s : State) : (sinkClose s).nplanes = s.nplanes := rfl
@[simp] theorem sinkClose_rowbytes (s : State) : (sinkClose s).rowbytes = s.rowbytes := rfl
@[simp] theorem sinkClose_outlen (s : State) : (sinkClose s).outlen = s.outlen := rfl
@[simp] theorem sinkClose_phase (s : State) : (sinkClose s).phase = s.phase := rfl
@[simp] theorem sinkClose_x (s : State) : (sinkClose s).x = s.x := rfl
@[simp] theorem sinkClose_y (s : State) : (sinkClose s).y = s.y := rfl
@[simp] theorem sinkClose_p (s : State) : (sinkClose s).p = s.p := rfl
@[simp] theorem sinkClose_hr (s : State) : (sinkClose s).hr = s.hr := rfl
@[simp] theorem sinkClose_hg (s : State) : (sinkClose s).hg = s.hg := rfl
@[simp] theorem sinkClose_hb (s : State) : (sinkClose s).hb = s.hb := rfl
@[simp] theorem sinkClose_rlc (s : State) : (sinkClose s).rlc = s.rlc := rfl
@[simp] theorem sinkClose_formLenOff (s : State) : (sinkClose s).formLenOff = s.formLenOff := rfl
@[simp] theorem sinkClose_bodyLenOff (s : State) : (sinkClose s).bodyLenOff = s.bodyLenOff := rfl
@[simp] theorem sinkClose_bodyStart (s : State) : (sinkClose s).bodyStart = s.bodyStart := rfl
@[simp] theorem sinkClose_bodyLen (s : State) : (sinkClose s).bodyLen = s.bodyLen := rfl
@[simp] theorem sinkClose_fileLen (s : State) : (sinkClose s).fileLen = s.fileLen := rfl
@[simp] theorem sinkClose_rasterWidth (s : State) : (sinkClose s).rasterWidth = s.rasterWidth := rfl
@[simp] theorem sinkClose_rasterHeight (s : State) : (sinkClose s).rasterHeight = s.rasterHeight := rfl
@[simp] theorem sinkClose_pix (s : State) : (sinkClose s).pix = s.pix := rfl
@[simp] theorem sinkClose_pal (s : State) : (sinkClose s).pal = s.pal := rfl
@[simp] theorem sinkClose_pln (s : State) : (sinkClose s).pln = s.pln := rfl
@[simp] theorem sinkClose_rowin (s : State) : (sinkClose s).rowin = s.rowin := rfl
@[simp] theorem sinkClose_rowout (s : State) : (sinkClose s).rowout = s.rowout := rfl
@[simp] theorem sinkClose_out (s : State) : (sinkClose s).out = s.out := rfl
@[simp] theorem sinkClose_wpos (s : State) : (sinkClose s).wpos = s.wpos := rfl
@[simp] theorem sinkClose_oracle (s : State) : (sinkClose s).oracle = s.oracle := rfl
@[simp] theorem sinkClose_pending (s : State) : (sinkClose s).pending = s.pending := rfl
@[simp] theorem sinkClose_returned (s : State) : (sinkClose s).returned = s.returned := rfl
@[simp] theorem sinkClose_freeTick (s : State) : (sinkClose s).freeTick = s.freeTick := rfl

/-! ## drawPln -/

@[simp] theorem drawPln_width (s : State) : (drawPln s).width = s.width := rfl
@[simp] theorem drawPln_height (s : State) : (drawPln s).height = s.height := rfl
@[simp] theorem drawPln_palsize (s : State) : (drawPln s).palsize = s.palsize := rfl
@[simp] theorem drawPln_ctrl (s : State) : (drawPln s).ctrl = s.ctrl := rfl
@[simp] theorem drawPln_rowlen (s : State) : (drawPln s).rowlen = s.rowlen := rfl
@[simp] theorem drawPln_status (s : State) : (drawPln s).status = s.status := rfl
@[simp] theorem drawPln_sinkOpen (s : State) : (drawPln s).sinkOpen = s.sinkOpen := rfl
@[simp] theorem drawPln_cause (s : State) : (drawPln s).cause = s.cause := rfl
@[simp] theorem drawPln_faultChunk (s : State) : (drawPln s).faultChunk = s.faultChunk := rfl
@[simp] theorem drawPln_faultPlane (s : State) : (drawPln s).faultPlane = s.faultPlane := rfl
@[simp] theorem drawPln_faultRow (s : State) : (drawPln s).faultRow = s.faultRow := rfl
@[simp] theorem drawPln_faultValue (s : State) : (drawPln s).faultValue = s.faultValue := rfl
@[simp] theorem drawPln_nplanes (s : State) : (drawPln s).nplanes = s.nplanes := rfl
@[simp] theorem drawPln_rowbytes (s : State) : (drawPln s).rowbytes = s.rowbytes := rfl
@[simp] theorem drawPln_outlen (s : State) : (drawPln s).outlen = s.outlen := rfl
@[simp] theorem drawPln_phase (s : State) : (drawPln s).phase = s.phase := rfl
@[simp] theorem drawPln_x (s : State) : (drawPln s).x = s.x := rfl
@[simp] theorem drawPln_y (s : State) : (drawPln s).y = s.y := rfl
@[simp] theorem drawPln_p (s : State) : (drawPln s).p = s.p := rfl
@[simp] theorem drawPln_hr (s : State) : (drawPln s).hr = s.hr := rfl
@[simp] theorem drawPln_hg (s : State) : (drawPln s).hg = s.hg := rfl
@[simp] theorem drawPln_hb (s : State) : (drawPln s).hb = s.hb := rfl
@[simp] theorem drawPln_rlc (s : State) : (drawPln s).rlc = s.rlc := rfl
@[simp] theorem drawPln_formLenOff (s : State) : (drawPln s).formLenOff = s.formLenOff := rfl
@[simp] theorem drawPln_bodyLenOff (s : State) : (drawPln s).bodyLenOff = s.bodyLenOff := rfl
@[simp] theorem drawPln_bodyStart (s : State) : (drawPln s).bodyStart = s.bodyStart := rfl
@[simp] theorem drawPln_bodyLen (s : State) : (drawPln s).bodyLen = s.bodyLen := rfl
@[simp] theorem drawPln_fileLen (s : State) : (drawPln s).fileLen = s.fileLen := rfl
@[simp] theorem drawPln_rasterWidth (s : State) : (drawPln s).rasterWidth = s.rasterWidth := rfl
@[simp] theorem drawPln_rasterHeight (s : State) : (drawPln s).rasterHeight = s.rasterHeight := rfl
@[simp] theorem drawPln_pix (s : State) : (drawPln s).pix = s.pix := rfl
@[simp] theorem drawPln_pal (s : State) : (drawPln s).pal = s.pal := rfl
@[simp] theorem drawPln_pln (s : State) :
    (drawPln s).pln = s.pln.map fun e => (e.1, Config.freePlnByte s.freeTick e.1) := rfl
@[simp] theorem drawPln_rowin (s : State) : (drawPln s).rowin = s.rowin := rfl
@[simp] theorem drawPln_rowout (s : State) : (drawPln s).rowout = s.rowout := rfl
@[simp] theorem drawPln_out (s : State) : (drawPln s).out = s.out := rfl
@[simp] theorem drawPln_wpos (s : State) : (drawPln s).wpos = s.wpos := rfl
@[simp] theorem drawPln_oracle (s : State) : (drawPln s).oracle = s.oracle := rfl
@[simp] theorem drawPln_pending (s : State) : (drawPln s).pending = s.pending := rfl
@[simp] theorem drawPln_returned (s : State) : (drawPln s).returned = s.returned := rfl
@[simp] theorem drawPln_freeTick (s : State) : (drawPln s).freeTick = s.freeTick + 1 := rfl

/-! ## releaseSink -/

@[simp] theorem releaseSink_width (s : State) : (releaseSink s).width = s.width := by
  cases h : s.sinkOpen <;> simp [releaseSink, h]
@[simp] theorem releaseSink_height (s : State) : (releaseSink s).height = s.height := by
  cases h : s.sinkOpen <;> simp [releaseSink, h]
@[simp] theorem releaseSink_palsize (s : State) : (releaseSink s).palsize = s.palsize := by
  cases h : s.sinkOpen <;> simp [releaseSink, h]
@[simp] theorem releaseSink_ctrl (s : State) : (releaseSink s).ctrl = s.ctrl := by
  cases h : s.sinkOpen <;> simp [releaseSink, h]
@[simp] theorem releaseSink_rowlen (s : State) : (releaseSink s).rowlen = s.rowlen := by
  cases h : s.sinkOpen <;> simp [releaseSink, h]
@[simp] theorem releaseSink_status (s : State) : (releaseSink s).status = s.status := by
  cases h : s.sinkOpen <;> simp [releaseSink, h]
@[simp] theorem releaseSink_sinkOpen (s : State) : (releaseSink s).sinkOpen = false := by
  cases h : s.sinkOpen <;> simp [releaseSink, h]
@[simp] theorem releaseSink_cause (s : State) : (releaseSink s).cause = s.cause := by
  cases h : s.sinkOpen <;> simp [releaseSink, h]
@[simp] theorem releaseSink_faultChunk (s : State) : (releaseSink s).faultChunk = s.faultChunk := by
  cases h : s.sinkOpen <;> simp [releaseSink, h]
@[simp] theorem releaseSink_faultPlane (s : State) : (releaseSink s).faultPlane = s.faultPlane := by
  cases h : s.sinkOpen <;> simp [releaseSink, h]
@[simp] theorem releaseSink_faultRow (s : State) : (releaseSink s).faultRow = s.faultRow := by
  cases h : s.sinkOpen <;> simp [releaseSink, h]
@[simp] theorem releaseSink_faultValue (s : State) : (releaseSink s).faultValue = s.faultValue := by
  cases h : s.sinkOpen <;> simp [releaseSink, h]
@[simp] theorem releaseSink_nplanes (s : State) : (releaseSink s).nplanes = s.nplanes := by
  cases h : s.sinkOpen <;> simp [releaseSink, h]
@[simp] theorem releaseSink_rowbytes (s : State) : (releaseSink s).rowbytes = s.rowbytes := by
  cases h : s.sinkOpen <;> simp [releaseSink, h]
@[simp] theorem releaseSink_outlen (s : State) : (releaseSink s).outlen = s.outlen := by
  cases h : s.sinkOpen <;> simp [releaseSink, h]
@[simp] theorem releaseSink_phase (s : State) : (releaseSink s).phase = if s.sinkOpen then .close else s.phase := by
  cases h : s.sinkOpen <;> simp [releaseSink, h]
@[simp] theorem releaseSink_x (s : State) : (releaseSink s).x = s.x := by
  cases h : s.sinkOpen <;> simp [releaseSink, h]
@[simp] theorem releaseSink_y (s : State) : (releaseSink s).y = s.y := by
  cases h : s.sinkOpen <;> simp [releaseSink, h]
@[simp] theorem releaseSink_p (s : State) : (releaseSink s).p = s.p := by
  cases h : s.sinkOpen <;> simp [releaseSink, h]
@[simp] theorem releaseSink_hr (s : State) : (releaseSink s).hr = s.hr := by
  cases h : s.sinkOpen <;> simp [releaseSink, h]
@[simp] theorem releaseSink_hg (s : State) : (releaseSink s).hg = s.hg := by
  cases h : s.sinkOpen <;> simp [releaseSink, h]
@[simp] theorem releaseSink_hb (s : State) : (releaseSink s).hb = s.hb := by
  cases h : s.sinkOpen <;> simp [releaseSink, h]
@[simp] theorem releaseSink_rlc (s : State) : (releaseSink s).rlc = s.rlc := by
  cases h : s.sinkOpen <;> simp [releaseSink, h]
@[simp] theorem releaseSink_formLenOff (s : State) : (releaseSink s).formLenOff = s.formLenOff := by
  cases h : s.sinkOpen <;> simp [releaseSink, h]
@[simp] theorem releaseSink_bodyLenOff (s : State) : (releaseSink s).bodyLenOff = s.bodyLenOff := by
  cases h : s.sinkOpen <;> simp [releaseSink, h]
@[simp] theorem releaseSink_bodyStart (s : State) : (releaseSink s).bodyStart = s.bodyStart := by
  cases h : s.sinkOpen <;> simp [releaseSink, h]
@[simp] theorem releaseSink_bodyLen (s : State) : (releaseSink s).bodyLen = s.bodyLen := by
  cases h : s.sinkOpen <;> simp [releaseSink, h]
@[simp] theorem releaseSink_fileLen (s : State) : (releaseSink s).fileLen = s.fileLen := by
  cases h : s.sinkOpen <;> simp [releaseSink, h]
@[simp] theorem releaseSink_rasterWidth (s : State) : (releaseSink s).rasterWidth = s.rasterWidth := by
  cases h : s.sinkOpen <;> simp [releaseSink, h]
@[simp] theorem releaseSink_rasterHeight (s : State) : (releaseSink s).rasterHeight = s.rasterHeight := by
  cases h : s.sinkOpen <;> simp [releaseSink, h]
@[simp] theorem releaseSink_pix (s : State) : (releaseSink s).pix = s.pix := by
  cases h : s.sinkOpen <;> simp [releaseSink, h]
@[simp] theorem releaseSink_pal (s : State) : (releaseSink s).pal = s.pal := by
  cases h : s.sinkOpen <;> simp [releaseSink, h]
@[simp] theorem releaseSink_pln (s : State) : (releaseSink s).pln = s.pln := by
  cases h : s.sinkOpen <;> simp [releaseSink, h]
@[simp] theorem releaseSink_rowin (s : State) : (releaseSink s).rowin = s.rowin := by
  cases h : s.sinkOpen <;> simp [releaseSink, h]
@[simp] theorem releaseSink_rowout (s : State) : (releaseSink s).rowout = s.rowout := by
  cases h : s.sinkOpen <;> simp [releaseSink, h]
@[simp] theorem releaseSink_out (s : State) : (releaseSink s).out = s.out := by
  cases h : s.sinkOpen <;> simp [releaseSink, h]
@[simp] theorem releaseSink_wpos (s : State) : (releaseSink s).wpos = s.wpos := by
  cases h : s.sinkOpen <;> simp [releaseSink, h]
@[simp] theorem releaseSink_oracle (s : State) : (releaseSink s).oracle = s.oracle := by
  cases h : s.sinkOpen <;> simp [releaseSink, h]
@[simp] theorem releaseSink_pending (s : State) : (releaseSink s).pending = s.pending := by
  cases h : s.sinkOpen <;> simp [releaseSink, h]
@[simp] theorem releaseSink_returned (s : State) : (releaseSink s).returned = s.returned := by
  cases h : s.sinkOpen <;> simp [releaseSink, h]
@[simp] theorem releaseSink_freeTick (s : State) : (releaseSink s).freeTick = s.freeTick := by
  cases h : s.sinkOpen <;> simp [releaseSink, h]

/-! ## raiseFault -/

@[simp] theorem raiseFault_width (c : Cause) (ctx : Context) (v : Word) (s : State) : (raiseFault c ctx v s).width = s.width := by simp [raiseFault]
@[simp] theorem raiseFault_height (c : Cause) (ctx : Context) (v : Word) (s : State) : (raiseFault c ctx v s).height = s.height := by simp [raiseFault]
@[simp] theorem raiseFault_palsize (c : Cause) (ctx : Context) (v : Word) (s : State) : (raiseFault c ctx v s).palsize = s.palsize := by simp [raiseFault]
@[simp] theorem raiseFault_ctrl (c : Cause) (ctx : Context) (v : Word) (s : State) : (raiseFault c ctx v s).ctrl = s.ctrl := by simp [raiseFault]
@[simp] theorem raiseFault_rowlen (c : Cause) (ctx : Context) (v : Word) (s : State) : (raiseFault c ctx v s).rowlen = s.rowlen := by simp [raiseFault]
@[simp] theorem raiseFault_status (c : Cause) (ctx : Context) (v : Word) (s : State) : (raiseFault c ctx v s).status = .fault := rfl
@[simp] theorem raiseFault_sinkOpen (c : Cause) (ctx : Context) (v : Word) (s : State) : (raiseFault c ctx v s).sinkOpen = false := by simp [raiseFault]
@[simp] theorem raiseFault_cause (c : Cause) (ctx : Context) (v : Word) (s : State) : (raiseFault c ctx v s).cause = causeCode c := rfl
@[simp] theorem raiseFault_faultChunk (c : Cause) (ctx : Context) (v : Word) (s : State) : (raiseFault c ctx v s).faultChunk = ctx.chunk := rfl
@[simp] theorem raiseFault_faultPlane (c : Cause) (ctx : Context) (v : Word) (s : State) : (raiseFault c ctx v s).faultPlane = ctx.plane := rfl
@[simp] theorem raiseFault_faultRow (c : Cause) (ctx : Context) (v : Word) (s : State) : (raiseFault c ctx v s).faultRow = ctx.row := rfl
@[simp] theorem raiseFault_faultValue (c : Cause) (ctx : Context) (v : Word) (s : State) : (raiseFault c ctx v s).faultValue = v := rfl
@[simp] theorem raiseFault_nplanes (c : Cause) (ctx : Context) (v : Word) (s : State) : (raiseFault c ctx v s).nplanes = s.nplanes := by simp [raiseFault]
@[simp] theorem raiseFault_rowbytes (c : Cause) (ctx : Context) (v : Word) (s : State) : (raiseFault c ctx v s).rowbytes = s.rowbytes := by simp [raiseFault]
@[simp] theorem raiseFault_outlen (c : Cause) (ctx : Context) (v : Word) (s : State) : (raiseFault c ctx v s).outlen = s.outlen := by simp [raiseFault]
@[simp] theorem raiseFault_phase (c : Cause) (ctx : Context) (v : Word) (s : State) : (raiseFault c ctx v s).phase = .idle := rfl
@[simp] theorem raiseFault_x (c : Cause) (ctx : Context) (v : Word) (s : State) : (raiseFault c ctx v s).x = s.x := by simp [raiseFault]
@[simp] theorem raiseFault_y (c : Cause) (ctx : Context) (v : Word) (s : State) : (raiseFault c ctx v s).y = s.y := by simp [raiseFault]
@[simp] theorem raiseFault_p (c : Cause) (ctx : Context) (v : Word) (s : State) : (raiseFault c ctx v s).p = s.p := by simp [raiseFault]
@[simp] theorem raiseFault_hr (c : Cause) (ctx : Context) (v : Word) (s : State) : (raiseFault c ctx v s).hr = s.hr := by simp [raiseFault]
@[simp] theorem raiseFault_hg (c : Cause) (ctx : Context) (v : Word) (s : State) : (raiseFault c ctx v s).hg = s.hg := by simp [raiseFault]
@[simp] theorem raiseFault_hb (c : Cause) (ctx : Context) (v : Word) (s : State) : (raiseFault c ctx v s).hb = s.hb := by simp [raiseFault]
@[simp] theorem raiseFault_rlc (c : Cause) (ctx : Context) (v : Word) (s : State) : (raiseFault c ctx v s).rlc = s.rlc := by simp [raiseFault]
@[simp] theorem raiseFault_formLenOff (c : Cause) (ctx : Context) (v : Word) (s : State) : (raiseFault c ctx v s).formLenOff = s.formLenOff := by simp [raiseFault]
@[simp] theorem raiseFault_bodyLenOff (c : Cause) (ctx : Context) (v : Word) (s : State) : (raiseFault c ctx v s).bodyLenOff = s.bodyLenOff := by simp [raiseFault]
@[simp] theorem raiseFault_bodyStart (c : Cause) (ctx : Context) (v : Word) (s : State) : (raiseFault c ctx v s).bodyStart = s.bodyStart := by simp [raiseFault]
@[simp] theorem raiseFault_bodyLen (c : Cause) (ctx : Context) (v : Word) (s : State) : (raiseFault c ctx v s).bodyLen = s.bodyLen := by simp [raiseFault]
@[simp] theorem raiseFault_fileLen (c : Cause) (ctx : Context) (v : Word) (s : State) : (raiseFault c ctx v s).fileLen = s.fileLen := by simp [raiseFault]
@[simp] theorem raiseFault_rasterWidth (c : Cause) (ctx : Context) (v : Word) (s : State) :
    (raiseFault c ctx v s).rasterWidth = s.rasterWidth := by simp [raiseFault]
@[simp] theorem raiseFault_rasterHeight (c : Cause) (ctx : Context) (v : Word) (s : State) :
    (raiseFault c ctx v s).rasterHeight = s.rasterHeight := by simp [raiseFault]
@[simp] theorem raiseFault_pix (c : Cause) (ctx : Context) (v : Word) (s : State) : (raiseFault c ctx v s).pix = s.pix := by simp [raiseFault]
@[simp] theorem raiseFault_pal (c : Cause) (ctx : Context) (v : Word) (s : State) : (raiseFault c ctx v s).pal = s.pal := by simp [raiseFault]
@[simp] theorem raiseFault_pln (c : Cause) (ctx : Context) (v : Word) (s : State) : (raiseFault c ctx v s).pln = s.pln := by simp [raiseFault]
@[simp] theorem raiseFault_rowin (c : Cause) (ctx : Context) (v : Word) (s : State) : (raiseFault c ctx v s).rowin = s.rowin := by simp [raiseFault]
@[simp] theorem raiseFault_rowout (c : Cause) (ctx : Context) (v : Word) (s : State) : (raiseFault c ctx v s).rowout = s.rowout := by simp [raiseFault]
@[simp] theorem raiseFault_out (c : Cause) (ctx : Context) (v : Word) (s : State) : (raiseFault c ctx v s).out = s.out := by simp [raiseFault]
@[simp] theorem raiseFault_wpos (c : Cause) (ctx : Context) (v : Word) (s : State) : (raiseFault c ctx v s).wpos = s.wpos := by simp [raiseFault]
@[simp] theorem raiseFault_oracle (c : Cause) (ctx : Context) (v : Word) (s : State) : (raiseFault c ctx v s).oracle = s.oracle := by simp [raiseFault]
@[simp] theorem raiseFault_pending (c : Cause) (ctx : Context) (v : Word) (s : State) : (raiseFault c ctx v s).pending = s.pending := by simp [raiseFault]
@[simp] theorem raiseFault_returned (c : Cause) (ctx : Context) (v : Word) (s : State) : (raiseFault c ctx v s).returned = s.returned := by simp [raiseFault]
@[simp] theorem raiseFault_freeTick (c : Cause) (ctx : Context) (v : Word) (s : State) : (raiseFault c ctx v s).freeTick = s.freeTick := by simp [raiseFault]

/-! ## clearFault -/

@[simp] theorem clearFault_width (s : State) : (clearFault s).width = s.width := rfl
@[simp] theorem clearFault_height (s : State) : (clearFault s).height = s.height := rfl
@[simp] theorem clearFault_palsize (s : State) : (clearFault s).palsize = s.palsize := rfl
@[simp] theorem clearFault_ctrl (s : State) : (clearFault s).ctrl = s.ctrl := rfl
@[simp] theorem clearFault_rowlen (s : State) : (clearFault s).rowlen = s.rowlen := rfl
@[simp] theorem clearFault_status (s : State) : (clearFault s).status = .idle := rfl
@[simp] theorem clearFault_sinkOpen (s : State) : (clearFault s).sinkOpen = s.sinkOpen := rfl
@[simp] theorem clearFault_cause (s : State) : (clearFault s).cause = 0 := rfl
@[simp] theorem clearFault_faultChunk (s : State) : (clearFault s).faultChunk = 0 := rfl
@[simp] theorem clearFault_faultPlane (s : State) : (clearFault s).faultPlane = 0 := rfl
@[simp] theorem clearFault_faultRow (s : State) : (clearFault s).faultRow = 0 := rfl
@[simp] theorem clearFault_faultValue (s : State) : (clearFault s).faultValue = 0 := rfl
@[simp] theorem clearFault_nplanes (s : State) : (clearFault s).nplanes = s.nplanes := rfl
@[simp] theorem clearFault_rowbytes (s : State) : (clearFault s).rowbytes = s.rowbytes := rfl
@[simp] theorem clearFault_outlen (s : State) : (clearFault s).outlen = s.outlen := rfl
@[simp] theorem clearFault_phase (s : State) : (clearFault s).phase = s.phase := rfl
@[simp] theorem clearFault_x (s : State) : (clearFault s).x = s.x := rfl
@[simp] theorem clearFault_y (s : State) : (clearFault s).y = s.y := rfl
@[simp] theorem clearFault_p (s : State) : (clearFault s).p = s.p := rfl
@[simp] theorem clearFault_hr (s : State) : (clearFault s).hr = s.hr := rfl
@[simp] theorem clearFault_hg (s : State) : (clearFault s).hg = s.hg := rfl
@[simp] theorem clearFault_hb (s : State) : (clearFault s).hb = s.hb := rfl
@[simp] theorem clearFault_rlc (s : State) : (clearFault s).rlc = s.rlc := rfl
@[simp] theorem clearFault_formLenOff (s : State) : (clearFault s).formLenOff = s.formLenOff := rfl
@[simp] theorem clearFault_bodyLenOff (s : State) : (clearFault s).bodyLenOff = s.bodyLenOff := rfl
@[simp] theorem clearFault_bodyStart (s : State) : (clearFault s).bodyStart = s.bodyStart := rfl
@[simp] theorem clearFault_bodyLen (s : State) : (clearFault s).bodyLen = s.bodyLen := rfl
@[simp] theorem clearFault_fileLen (s : State) : (clearFault s).fileLen = s.fileLen := rfl
@[simp] theorem clearFault_rasterWidth (s : State) : (clearFault s).rasterWidth = s.rasterWidth := rfl
@[simp] theorem clearFault_rasterHeight (s : State) : (clearFault s).rasterHeight = s.rasterHeight := rfl
@[simp] theorem clearFault_pix (s : State) : (clearFault s).pix = s.pix := rfl
@[simp] theorem clearFault_pal (s : State) : (clearFault s).pal = s.pal := rfl
@[simp] theorem clearFault_pln (s : State) : (clearFault s).pln = s.pln := rfl
@[simp] theorem clearFault_rowin (s : State) : (clearFault s).rowin = s.rowin := rfl
@[simp] theorem clearFault_rowout (s : State) : (clearFault s).rowout = s.rowout := rfl
@[simp] theorem clearFault_out (s : State) : (clearFault s).out = s.out := rfl
@[simp] theorem clearFault_wpos (s : State) : (clearFault s).wpos = s.wpos := rfl
@[simp] theorem clearFault_oracle (s : State) : (clearFault s).oracle = s.oracle := rfl
@[simp] theorem clearFault_pending (s : State) : (clearFault s).pending = s.pending := rfl
@[simp] theorem clearFault_returned (s : State) : (clearFault s).returned = s.returned := rfl
@[simp] theorem clearFault_freeTick (s : State) : (clearFault s).freeTick = s.freeTick := rfl

/-! ## complete -/

@[simp] theorem complete_width (s : State) : (complete s).width = s.width := rfl
@[simp] theorem complete_height (s : State) : (complete s).height = s.height := rfl
@[simp] theorem complete_palsize (s : State) : (complete s).palsize = s.palsize := rfl
@[simp] theorem complete_ctrl (s : State) : (complete s).ctrl = s.ctrl := rfl
@[simp] theorem complete_rowlen (s : State) : (complete s).rowlen = s.rowlen := rfl
@[simp] theorem complete_status (s : State) : (complete s).status = .done := rfl
@[simp] theorem complete_sinkOpen (s : State) : (complete s).sinkOpen = s.sinkOpen := rfl
@[simp] theorem complete_cause (s : State) : (complete s).cause = s.cause := rfl
@[simp] theorem complete_faultChunk (s : State) : (complete s).faultChunk = s.faultChunk := rfl
@[simp] theorem complete_faultPlane (s : State) : (complete s).faultPlane = s.faultPlane := rfl
@[simp] theorem complete_faultRow (s : State) : (complete s).faultRow = s.faultRow := rfl
@[simp] theorem complete_faultValue (s : State) : (complete s).faultValue = s.faultValue := rfl
@[simp] theorem complete_nplanes (s : State) : (complete s).nplanes = s.nplanes := rfl
@[simp] theorem complete_rowbytes (s : State) : (complete s).rowbytes = s.rowbytes := rfl
@[simp] theorem complete_outlen (s : State) : (complete s).outlen = s.outlen := rfl
@[simp] theorem complete_phase (s : State) : (complete s).phase = .idle := rfl
@[simp] theorem complete_x (s : State) : (complete s).x = s.x := rfl
@[simp] theorem complete_y (s : State) : (complete s).y = s.y := rfl
@[simp] theorem complete_p (s : State) : (complete s).p = s.p := rfl
@[simp] theorem complete_hr (s : State) : (complete s).hr = s.hr := rfl
@[simp] theorem complete_hg (s : State) : (complete s).hg = s.hg := rfl
@[simp] theorem complete_hb (s : State) : (complete s).hb = s.hb := rfl
@[simp] theorem complete_rlc (s : State) : (complete s).rlc = s.rlc := rfl
@[simp] theorem complete_formLenOff (s : State) : (complete s).formLenOff = s.formLenOff := rfl
@[simp] theorem complete_bodyLenOff (s : State) : (complete s).bodyLenOff = s.bodyLenOff := rfl
@[simp] theorem complete_bodyStart (s : State) : (complete s).bodyStart = s.bodyStart := rfl
@[simp] theorem complete_bodyLen (s : State) : (complete s).bodyLen = s.bodyLen := rfl
@[simp] theorem complete_fileLen (s : State) : (complete s).fileLen = s.fileLen := rfl
@[simp] theorem complete_rasterWidth (s : State) : (complete s).rasterWidth = s.rasterWidth := rfl
@[simp] theorem complete_rasterHeight (s : State) : (complete s).rasterHeight = s.rasterHeight := rfl
@[simp] theorem complete_pix (s : State) : (complete s).pix = s.pix := rfl
@[simp] theorem complete_pal (s : State) : (complete s).pal = s.pal := rfl
@[simp] theorem complete_pln (s : State) : (complete s).pln = s.pln := rfl
@[simp] theorem complete_rowin (s : State) : (complete s).rowin = s.rowin := rfl
@[simp] theorem complete_rowout (s : State) : (complete s).rowout = s.rowout := rfl
@[simp] theorem complete_out (s : State) : (complete s).out = s.out := rfl
@[simp] theorem complete_wpos (s : State) : (complete s).wpos = s.wpos := rfl
@[simp] theorem complete_oracle (s : State) : (complete s).oracle = s.oracle := rfl
@[simp] theorem complete_pending (s : State) : (complete s).pending = s.pending := rfl
@[simp] theorem complete_returned (s : State) : (complete s).returned = s.returned := rfl
@[simp] theorem complete_freeTick (s : State) : (complete s).freeTick = s.freeTick := rfl

/-! ## selectMode -/

@[simp] theorem selectMode_width (s : State) : (selectMode s).width = s.width := rfl
@[simp] theorem selectMode_height (s : State) : (selectMode s).height = s.height := rfl
@[simp] theorem selectMode_palsize (s : State) : (selectMode s).palsize = s.palsize := rfl
@[simp] theorem selectMode_ctrl (s : State) : (selectMode s).ctrl = s.ctrl := rfl
@[simp] theorem selectMode_rowlen (s : State) : (selectMode s).rowlen = s.rowlen := rfl
@[simp] theorem selectMode_status (s : State) : (selectMode s).status = s.status := rfl
@[simp] theorem selectMode_sinkOpen (s : State) : (selectMode s).sinkOpen = s.sinkOpen := rfl
@[simp] theorem selectMode_cause (s : State) : (selectMode s).cause = s.cause := rfl
@[simp] theorem selectMode_faultChunk (s : State) : (selectMode s).faultChunk = s.faultChunk := rfl
@[simp] theorem selectMode_faultPlane (s : State) : (selectMode s).faultPlane = s.faultPlane := rfl
@[simp] theorem selectMode_faultRow (s : State) : (selectMode s).faultRow = s.faultRow := rfl
@[simp] theorem selectMode_faultValue (s : State) : (selectMode s).faultValue = s.faultValue := rfl
@[simp] theorem selectMode_nplanes (s : State) : (selectMode s).nplanes = BitVec.ofNat 32 (planeCount s) := rfl
@[simp] theorem selectMode_rowbytes (s : State) : (selectMode s).rowbytes = BitVec.ofNat 32 (rowBytes s.width.toNat) := rfl
@[simp] theorem selectMode_outlen (s : State) : (selectMode s).outlen = s.outlen := rfl
@[simp] theorem selectMode_phase (s : State) : (selectMode s).phase = s.phase := rfl
@[simp] theorem selectMode_x (s : State) : (selectMode s).x = s.x := rfl
@[simp] theorem selectMode_y (s : State) : (selectMode s).y = s.y := rfl
@[simp] theorem selectMode_p (s : State) : (selectMode s).p = s.p := rfl
@[simp] theorem selectMode_hr (s : State) : (selectMode s).hr = s.hr := rfl
@[simp] theorem selectMode_hg (s : State) : (selectMode s).hg = s.hg := rfl
@[simp] theorem selectMode_hb (s : State) : (selectMode s).hb = s.hb := rfl
@[simp] theorem selectMode_rlc (s : State) : (selectMode s).rlc = s.rlc := rfl
@[simp] theorem selectMode_formLenOff (s : State) : (selectMode s).formLenOff = s.formLenOff := rfl
@[simp] theorem selectMode_bodyLenOff (s : State) : (selectMode s).bodyLenOff = s.bodyLenOff := rfl
@[simp] theorem selectMode_bodyStart (s : State) : (selectMode s).bodyStart = s.bodyStart := rfl
@[simp] theorem selectMode_bodyLen (s : State) : (selectMode s).bodyLen = s.bodyLen := rfl
@[simp] theorem selectMode_fileLen (s : State) : (selectMode s).fileLen = s.fileLen := rfl
@[simp] theorem selectMode_rasterWidth (s : State) : (selectMode s).rasterWidth = s.rasterWidth := rfl
@[simp] theorem selectMode_rasterHeight (s : State) : (selectMode s).rasterHeight = s.rasterHeight := rfl
@[simp] theorem selectMode_pix (s : State) : (selectMode s).pix = s.pix := rfl
@[simp] theorem selectMode_pal (s : State) : (selectMode s).pal = s.pal := rfl
@[simp] theorem selectMode_pln (s : State) : (selectMode s).pln = s.pln := rfl
@[simp] theorem selectMode_rowin (s : State) : (selectMode s).rowin = s.rowin := rfl
@[simp] theorem selectMode_rowout (s : State) : (selectMode s).rowout = s.rowout := rfl
@[simp] theorem selectMode_out (s : State) : (selectMode s).out = s.out := rfl
@[simp] theorem selectMode_wpos (s : State) : (selectMode s).wpos = s.wpos := rfl
@[simp] theorem selectMode_oracle (s : State) : (selectMode s).oracle = s.oracle := rfl
@[simp] theorem selectMode_pending (s : State) : (selectMode s).pending = s.pending := rfl
@[simp] theorem selectMode_returned (s : State) : (selectMode s).returned = s.returned := rfl
@[simp] theorem selectMode_freeTick (s : State) : (selectMode s).freeTick = s.freeTick := rfl

/-! ## beginRle -/

@[simp] theorem beginRle_width (s : State) : (beginRle s).width = s.width := rfl
@[simp] theorem beginRle_height (s : State) : (beginRle s).height = s.height := rfl
@[simp] theorem beginRle_palsize (s : State) : (beginRle s).palsize = s.palsize := rfl
@[simp] theorem beginRle_ctrl (s : State) : (beginRle s).ctrl = s.ctrl := rfl
@[simp] theorem beginRle_rowlen (s : State) : (beginRle s).rowlen = s.rowlen := rfl
@[simp] theorem beginRle_status (s : State) : (beginRle s).status = .busy := rfl
@[simp] theorem beginRle_sinkOpen (s : State) : (beginRle s).sinkOpen = s.sinkOpen := rfl
@[simp] theorem beginRle_cause (s : State) : (beginRle s).cause = s.cause := rfl
@[simp] theorem beginRle_faultChunk (s : State) : (beginRle s).faultChunk = s.faultChunk := rfl
@[simp] theorem beginRle_faultPlane (s : State) : (beginRle s).faultPlane = s.faultPlane := rfl
@[simp] theorem beginRle_faultRow (s : State) : (beginRle s).faultRow = s.faultRow := rfl
@[simp] theorem beginRle_faultValue (s : State) : (beginRle s).faultValue = s.faultValue := rfl
@[simp] theorem beginRle_nplanes (s : State) : (beginRle s).nplanes = s.nplanes := rfl
@[simp] theorem beginRle_rowbytes (s : State) : (beginRle s).rowbytes = s.rowbytes := rfl
@[simp] theorem beginRle_outlen (s : State) : (beginRle s).outlen = s.outlen := rfl
@[simp] theorem beginRle_phase (s : State) : (beginRle s).phase = .rle := rfl
@[simp] theorem beginRle_x (s : State) : (beginRle s).x = s.x := rfl
@[simp] theorem beginRle_y (s : State) : (beginRle s).y = s.y := rfl
@[simp] theorem beginRle_p (s : State) : (beginRle s).p = s.p := rfl
@[simp] theorem beginRle_hr (s : State) : (beginRle s).hr = s.hr := rfl
@[simp] theorem beginRle_hg (s : State) : (beginRle s).hg = s.hg := rfl
@[simp] theorem beginRle_hb (s : State) : (beginRle s).hb = s.hb := rfl
@[simp] theorem beginRle_rlc (s : State) : (beginRle s).rlc = s.rlc := rfl
@[simp] theorem beginRle_formLenOff (s : State) : (beginRle s).formLenOff = s.formLenOff := rfl
@[simp] theorem beginRle_bodyLenOff (s : State) : (beginRle s).bodyLenOff = s.bodyLenOff := rfl
@[simp] theorem beginRle_bodyStart (s : State) : (beginRle s).bodyStart = s.bodyStart := rfl
@[simp] theorem beginRle_bodyLen (s : State) : (beginRle s).bodyLen = s.bodyLen := rfl
@[simp] theorem beginRle_fileLen (s : State) : (beginRle s).fileLen = s.fileLen := rfl
@[simp] theorem beginRle_rasterWidth (s : State) : (beginRle s).rasterWidth = s.rasterWidth := rfl
@[simp] theorem beginRle_rasterHeight (s : State) : (beginRle s).rasterHeight = s.rasterHeight := rfl
@[simp] theorem beginRle_pix (s : State) : (beginRle s).pix = s.pix := rfl
@[simp] theorem beginRle_pal (s : State) : (beginRle s).pal = s.pal := rfl
@[simp] theorem beginRle_pln (s : State) : (beginRle s).pln = s.pln := rfl
@[simp] theorem beginRle_rowin (s : State) : (beginRle s).rowin = s.rowin := rfl
@[simp] theorem beginRle_rowout (s : State) : (beginRle s).rowout = s.rowout := rfl
@[simp] theorem beginRle_out (s : State) : (beginRle s).out = s.out := rfl
@[simp] theorem beginRle_wpos (s : State) : (beginRle s).wpos = s.wpos := rfl
@[simp] theorem beginRle_oracle (s : State) : (beginRle s).oracle = s.oracle := rfl
@[simp] theorem beginRle_pending (s : State) : (beginRle s).pending = s.pending := rfl
@[simp] theorem beginRle_returned (s : State) : (beginRle s).returned = s.returned := rfl
@[simp] theorem beginRle_freeTick (s : State) : (beginRle s).freeTick = s.freeTick := rfl

/-! ## finishRle -/

@[simp] theorem finishRle_width (r : RlcRegs) (s : State) : (finishRle r s).width = s.width := rfl
@[simp] theorem finishRle_height (r : RlcRegs) (s : State) : (finishRle r s).height = s.height := rfl
@[simp] theorem finishRle_palsize (r : RlcRegs) (s : State) : (finishRle r s).palsize = s.palsize := rfl
@[simp] theorem finishRle_ctrl (r : RlcRegs) (s : State) : (finishRle r s).ctrl = s.ctrl := rfl
@[simp] theorem finishRle_rowlen (r : RlcRegs) (s : State) : (finishRle r s).rowlen = s.rowlen := rfl
@[simp] theorem finishRle_status (r : RlcRegs) (s : State) : (finishRle r s).status = .done := rfl
@[simp] theorem finishRle_sinkOpen (r : RlcRegs) (s : State) : (finishRle r s).sinkOpen = s.sinkOpen := rfl
@[simp] theorem finishRle_cause (r : RlcRegs) (s : State) : (finishRle r s).cause = s.cause := rfl
@[simp] theorem finishRle_faultChunk (r : RlcRegs) (s : State) : (finishRle r s).faultChunk = s.faultChunk := rfl
@[simp] theorem finishRle_faultPlane (r : RlcRegs) (s : State) : (finishRle r s).faultPlane = s.faultPlane := rfl
@[simp] theorem finishRle_faultRow (r : RlcRegs) (s : State) : (finishRle r s).faultRow = s.faultRow := rfl
@[simp] theorem finishRle_faultValue (r : RlcRegs) (s : State) : (finishRle r s).faultValue = s.faultValue := rfl
@[simp] theorem finishRle_nplanes (r : RlcRegs) (s : State) : (finishRle r s).nplanes = s.nplanes := rfl
@[simp] theorem finishRle_rowbytes (r : RlcRegs) (s : State) : (finishRle r s).rowbytes = s.rowbytes := rfl
@[simp] theorem finishRle_outlen (r : RlcRegs) (s : State) : (finishRle r s).outlen = BitVec.ofNat 32 r.out.length := rfl
@[simp] theorem finishRle_phase (r : RlcRegs) (s : State) : (finishRle r s).phase = .idle := rfl
@[simp] theorem finishRle_x (r : RlcRegs) (s : State) : (finishRle r s).x = s.x := rfl
@[simp] theorem finishRle_y (r : RlcRegs) (s : State) : (finishRle r s).y = s.y := rfl
@[simp] theorem finishRle_p (r : RlcRegs) (s : State) : (finishRle r s).p = s.p := rfl
@[simp] theorem finishRle_hr (r : RlcRegs) (s : State) : (finishRle r s).hr = s.hr := rfl
@[simp] theorem finishRle_hg (r : RlcRegs) (s : State) : (finishRle r s).hg = s.hg := rfl
@[simp] theorem finishRle_hb (r : RlcRegs) (s : State) : (finishRle r s).hb = s.hb := rfl
@[simp] theorem finishRle_rlc (r : RlcRegs) (s : State) : (finishRle r s).rlc = r := rfl
@[simp] theorem finishRle_formLenOff (r : RlcRegs) (s : State) : (finishRle r s).formLenOff = s.formLenOff := rfl
@[simp] theorem finishRle_bodyLenOff (r : RlcRegs) (s : State) : (finishRle r s).bodyLenOff = s.bodyLenOff := rfl
@[simp] theorem finishRle_bodyStart (r : RlcRegs) (s : State) : (finishRle r s).bodyStart = s.bodyStart := rfl
@[simp] theorem finishRle_bodyLen (r : RlcRegs) (s : State) : (finishRle r s).bodyLen = s.bodyLen := rfl
@[simp] theorem finishRle_fileLen (r : RlcRegs) (s : State) : (finishRle r s).fileLen = s.fileLen := rfl
@[simp] theorem finishRle_rasterWidth (r : RlcRegs) (s : State) : (finishRle r s).rasterWidth = s.rasterWidth := rfl
@[simp] theorem finishRle_rasterHeight (r : RlcRegs) (s : State) : (finishRle r s).rasterHeight = s.rasterHeight := rfl
@[simp] theorem finishRle_pix (r : RlcRegs) (s : State) : (finishRle r s).pix = s.pix := rfl
@[simp] theorem finishRle_pal (r : RlcRegs) (s : State) : (finishRle r s).pal = s.pal := rfl
@[simp] theorem finishRle_pln (r : RlcRegs) (s : State) : (finishRle r s).pln = s.pln := rfl
@[simp] theorem finishRle_rowin (r : RlcRegs) (s : State) : (finishRle r s).rowin = s.rowin := rfl
@[simp] theorem finishRle_rowout (r : RlcRegs) (s : State) : (finishRle r s).rowout = memWriteList s.rowout 0 r.out := rfl
@[simp] theorem finishRle_out (r : RlcRegs) (s : State) : (finishRle r s).out = s.out := rfl
@[simp] theorem finishRle_wpos (r : RlcRegs) (s : State) : (finishRle r s).wpos = s.wpos := rfl
@[simp] theorem finishRle_oracle (r : RlcRegs) (s : State) : (finishRle r s).oracle = s.oracle := rfl
@[simp] theorem finishRle_pending (r : RlcRegs) (s : State) : (finishRle r s).pending = s.pending := rfl
@[simp] theorem finishRle_returned (r : RlcRegs) (s : State) : (finishRle r s).returned = s.returned := rfl
@[simp] theorem finishRle_freeTick (r : RlcRegs) (s : State) : (finishRle r s).freeTick = s.freeTick := rfl

/-! ## chsClose -/

@[simp] theorem chsClose_width (s : State) : (chsClose s).width = s.width := rfl
@[simp] theorem chsClose_height (s : State) : (chsClose s).height = s.height := rfl
@[simp] theorem chsClose_palsize (s : State) : (chsClose s).palsize = s.palsize := rfl
@[simp] theorem chsClose_ctrl (s : State) : (chsClose s).ctrl = s.ctrl := rfl
@[simp] theorem chsClose_rowlen (s : State) : (chsClose s).rowlen = s.rowlen := rfl
@[simp] theorem chsClose_status (s : State) : (chsClose s).status = s.status := rfl
@[simp] theorem chsClose_sinkOpen (s : State) : (chsClose s).sinkOpen = false := rfl
@[simp] theorem chsClose_cause (s : State) : (chsClose s).cause = s.cause := rfl
@[simp] theorem chsClose_faultChunk (s : State) : (chsClose s).faultChunk = s.faultChunk := rfl
@[simp] theorem chsClose_faultPlane (s : State) : (chsClose s).faultPlane = s.faultPlane := rfl
@[simp] theorem chsClose_faultRow (s : State) : (chsClose s).faultRow = s.faultRow := rfl
@[simp] theorem chsClose_faultValue (s : State) : (chsClose s).faultValue = s.faultValue := rfl
@[simp] theorem chsClose_nplanes (s : State) : (chsClose s).nplanes = s.nplanes := rfl
@[simp] theorem chsClose_rowbytes (s : State) : (chsClose s).rowbytes = s.rowbytes := rfl
@[simp] theorem chsClose_outlen (s : State) : (chsClose s).outlen = s.outlen := rfl
@[simp] theorem chsClose_phase (s : State) : (chsClose s).phase = .close := rfl
@[simp] theorem chsClose_x (s : State) : (chsClose s).x = s.x := rfl
@[simp] theorem chsClose_y (s : State) : (chsClose s).y = s.y := rfl
@[simp] theorem chsClose_p (s : State) : (chsClose s).p = s.p := rfl
@[simp] theorem chsClose_hr (s : State) : (chsClose s).hr = s.hr := rfl
@[simp] theorem chsClose_hg (s : State) : (chsClose s).hg = s.hg := rfl
@[simp] theorem chsClose_hb (s : State) : (chsClose s).hb = s.hb := rfl
@[simp] theorem chsClose_rlc (s : State) : (chsClose s).rlc = s.rlc := rfl
@[simp] theorem chsClose_formLenOff (s : State) : (chsClose s).formLenOff = s.formLenOff := rfl
@[simp] theorem chsClose_bodyLenOff (s : State) : (chsClose s).bodyLenOff = s.bodyLenOff := rfl
@[simp] theorem chsClose_bodyStart (s : State) : (chsClose s).bodyStart = s.bodyStart := rfl
@[simp] theorem chsClose_bodyLen (s : State) : (chsClose s).bodyLen = s.bodyLen := rfl
@[simp] theorem chsClose_fileLen (s : State) : (chsClose s).fileLen = s.fileLen := rfl
@[simp] theorem chsClose_rasterWidth (s : State) : (chsClose s).rasterWidth = s.rasterWidth := rfl
@[simp] theorem chsClose_rasterHeight (s : State) : (chsClose s).rasterHeight = s.rasterHeight := rfl
@[simp] theorem chsClose_pix (s : State) : (chsClose s).pix = s.pix := rfl
@[simp] theorem chsClose_pal (s : State) : (chsClose s).pal = s.pal := rfl
@[simp] theorem chsClose_pln (s : State) : (chsClose s).pln = s.pln := rfl
@[simp] theorem chsClose_rowin (s : State) : (chsClose s).rowin = s.rowin := rfl
@[simp] theorem chsClose_rowout (s : State) : (chsClose s).rowout = s.rowout := rfl
@[simp] theorem chsClose_out (s : State) : (chsClose s).out = s.out := rfl
@[simp] theorem chsClose_wpos (s : State) : (chsClose s).wpos = s.wpos := rfl
@[simp] theorem chsClose_oracle (s : State) : (chsClose s).oracle = s.oracle := rfl
@[simp] theorem chsClose_pending (s : State) : (chsClose s).pending = s.pending := rfl
@[simp] theorem chsClose_returned (s : State) : (chsClose s).returned = s.returned := rfl
@[simp] theorem chsClose_freeTick (s : State) : (chsClose s).freeTick = s.freeTick := rfl

/-! ## distributeBit -/

@[simp] theorem distributeBit_width (v : Byte) (p : Nat) (s : State) : (distributeBit v p s).width = s.width := rfl
@[simp] theorem distributeBit_height (v : Byte) (p : Nat) (s : State) : (distributeBit v p s).height = s.height := rfl
@[simp] theorem distributeBit_palsize (v : Byte) (p : Nat) (s : State) : (distributeBit v p s).palsize = s.palsize := rfl
@[simp] theorem distributeBit_ctrl (v : Byte) (p : Nat) (s : State) : (distributeBit v p s).ctrl = s.ctrl := rfl
@[simp] theorem distributeBit_rowlen (v : Byte) (p : Nat) (s : State) : (distributeBit v p s).rowlen = s.rowlen := rfl
@[simp] theorem distributeBit_status (v : Byte) (p : Nat) (s : State) : (distributeBit v p s).status = s.status := rfl
@[simp] theorem distributeBit_sinkOpen (v : Byte) (p : Nat) (s : State) : (distributeBit v p s).sinkOpen = s.sinkOpen := rfl
@[simp] theorem distributeBit_cause (v : Byte) (p : Nat) (s : State) : (distributeBit v p s).cause = s.cause := rfl
@[simp] theorem distributeBit_faultChunk (v : Byte) (p : Nat) (s : State) : (distributeBit v p s).faultChunk = s.faultChunk := rfl
@[simp] theorem distributeBit_faultPlane (v : Byte) (p : Nat) (s : State) : (distributeBit v p s).faultPlane = s.faultPlane := rfl
@[simp] theorem distributeBit_faultRow (v : Byte) (p : Nat) (s : State) : (distributeBit v p s).faultRow = s.faultRow := rfl
@[simp] theorem distributeBit_faultValue (v : Byte) (p : Nat) (s : State) : (distributeBit v p s).faultValue = s.faultValue := rfl
@[simp] theorem distributeBit_nplanes (v : Byte) (p : Nat) (s : State) : (distributeBit v p s).nplanes = s.nplanes := rfl
@[simp] theorem distributeBit_rowbytes (v : Byte) (p : Nat) (s : State) : (distributeBit v p s).rowbytes = s.rowbytes := rfl
@[simp] theorem distributeBit_outlen (v : Byte) (p : Nat) (s : State) : (distributeBit v p s).outlen = s.outlen := rfl
@[simp] theorem distributeBit_phase (v : Byte) (p : Nat) (s : State) : (distributeBit v p s).phase = s.phase := rfl
@[simp] theorem distributeBit_x (v : Byte) (p : Nat) (s : State) : (distributeBit v p s).x = s.x := rfl
@[simp] theorem distributeBit_y (v : Byte) (p : Nat) (s : State) : (distributeBit v p s).y = s.y := rfl
@[simp] theorem distributeBit_p (v : Byte) (p : Nat) (s : State) : (distributeBit v p s).p = BitVec.ofNat 4 p := rfl
@[simp] theorem distributeBit_hr (v : Byte) (p : Nat) (s : State) : (distributeBit v p s).hr = s.hr := rfl
@[simp] theorem distributeBit_hg (v : Byte) (p : Nat) (s : State) : (distributeBit v p s).hg = s.hg := rfl
@[simp] theorem distributeBit_hb (v : Byte) (p : Nat) (s : State) : (distributeBit v p s).hb = s.hb := rfl
@[simp] theorem distributeBit_rlc (v : Byte) (p : Nat) (s : State) : (distributeBit v p s).rlc = s.rlc := rfl
@[simp] theorem distributeBit_formLenOff (v : Byte) (p : Nat) (s : State) : (distributeBit v p s).formLenOff = s.formLenOff := rfl
@[simp] theorem distributeBit_bodyLenOff (v : Byte) (p : Nat) (s : State) : (distributeBit v p s).bodyLenOff = s.bodyLenOff := rfl
@[simp] theorem distributeBit_bodyStart (v : Byte) (p : Nat) (s : State) : (distributeBit v p s).bodyStart = s.bodyStart := rfl
@[simp] theorem distributeBit_bodyLen (v : Byte) (p : Nat) (s : State) : (distributeBit v p s).bodyLen = s.bodyLen := rfl
@[simp] theorem distributeBit_fileLen (v : Byte) (p : Nat) (s : State) : (distributeBit v p s).fileLen = s.fileLen := rfl
@[simp] theorem distributeBit_rasterWidth (v : Byte) (p : Nat) (s : State) :
    (distributeBit v p s).rasterWidth = s.rasterWidth := rfl
@[simp] theorem distributeBit_rasterHeight (v : Byte) (p : Nat) (s : State) :
    (distributeBit v p s).rasterHeight = s.rasterHeight := rfl
@[simp] theorem distributeBit_pix (v : Byte) (p : Nat) (s : State) : (distributeBit v p s).pix = s.pix := rfl
@[simp] theorem distributeBit_pal (v : Byte) (p : Nat) (s : State) : (distributeBit v p s).pal = s.pal := rfl
@[simp] theorem distributeBit_pln (v : Byte) (p : Nat) (s : State) : (distributeBit v p s).pln = if v.getLsbD p then plnOr s.pln p s.y.toNat (s.x.toNat / 8) (columnMask s.x.toNat) else s.pln := rfl
@[simp] theorem distributeBit_rowin (v : Byte) (p : Nat) (s : State) : (distributeBit v p s).rowin = s.rowin := rfl
@[simp] theorem distributeBit_rowout (v : Byte) (p : Nat) (s : State) : (distributeBit v p s).rowout = s.rowout := rfl
@[simp] theorem distributeBit_out (v : Byte) (p : Nat) (s : State) : (distributeBit v p s).out = s.out := rfl
@[simp] theorem distributeBit_wpos (v : Byte) (p : Nat) (s : State) : (distributeBit v p s).wpos = s.wpos := rfl
@[simp] theorem distributeBit_oracle (v : Byte) (p : Nat) (s : State) : (distributeBit v p s).oracle = s.oracle := rfl
@[simp] theorem distributeBit_pending (v : Byte) (p : Nat) (s : State) : (distributeBit v p s).pending = s.pending := rfl
@[simp] theorem distributeBit_returned (v : Byte) (p : Nat) (s : State) : (distributeBit v p s).returned = s.returned := rfl
@[simp] theorem distributeBit_freeTick (v : Byte) (p : Nat) (s : State) : (distributeBit v p s).freeTick = s.freeTick := rfl

/-! ## ioFailure -/

@[simp] theorem ioFailure_width (ctx : Context) (s : State) : (ioFailure ctx s).width = s.width := by
  unfold ioFailure; split <;> simp
@[simp] theorem ioFailure_height (ctx : Context) (s : State) : (ioFailure ctx s).height = s.height := by
  unfold ioFailure; split <;> simp
@[simp] theorem ioFailure_palsize (ctx : Context) (s : State) : (ioFailure ctx s).palsize = s.palsize := by
  unfold ioFailure; split <;> simp
@[simp] theorem ioFailure_ctrl (ctx : Context) (s : State) : (ioFailure ctx s).ctrl = s.ctrl := by
  unfold ioFailure; split <;> simp
@[simp] theorem ioFailure_rowlen (ctx : Context) (s : State) : (ioFailure ctx s).rowlen = s.rowlen := by
  unfold ioFailure; split <;> simp
@[simp] theorem ioFailure_status (ctx : Context) (s : State) : (ioFailure ctx s).status = .fault := by
  unfold ioFailure; split <;> simp
@[simp] theorem ioFailure_sinkOpen (ctx : Context) (s : State) : (ioFailure ctx s).sinkOpen = false := by
  unfold ioFailure; split <;> simp
@[simp] theorem ioFailure_cause (ctx : Context) (s : State) : (ioFailure ctx s).cause = 3 := by
  unfold ioFailure; split <;> simp [causeCode]
@[simp] theorem ioFailure_faultChunk (ctx : Context) (s : State) : (ioFailure ctx s).faultChunk = ctx.chunk := by
  unfold ioFailure; split <;> simp
@[simp] theorem ioFailure_faultPlane (ctx : Context) (s : State) : (ioFailure ctx s).faultPlane = ctx.plane := by
  unfold ioFailure; split <;> simp
@[simp] theorem ioFailure_faultRow (ctx : Context) (s : State) : (ioFailure ctx s).faultRow = ctx.row := by
  unfold ioFailure; split <;> simp
@[simp] theorem ioFailure_faultValue (ctx : Context) (s : State) : (ioFailure ctx s).faultValue = if s.out.length < 2 ^ 32 then BitVec.ofNat 32 s.out.length else Config.freeFaultValue s.freeTick := by
  unfold ioFailure; split <;> simp [*]
@[simp] theorem ioFailure_nplanes (ctx : Context) (s : State) : (ioFailure ctx s).nplanes = s.nplanes := by
  unfold ioFailure; split <;> simp
@[simp] theorem ioFailure_rowbytes (ctx : Context) (s : State) : (ioFailure ctx s).rowbytes = s.rowbytes := by
  unfold ioFailure; split <;> simp
@[simp] theorem ioFailure_outlen (ctx : Context) (s : State) : (ioFailure ctx s).outlen = s.outlen := by
  unfold ioFailure; split <;> simp
@[simp] theorem ioFailure_phase (ctx : Context) (s : State) : (ioFailure ctx s).phase = .idle := by
  unfold ioFailure; split <;> simp
@[simp] theorem ioFailure_x (ctx : Context) (s : State) : (ioFailure ctx s).x = s.x := by
  unfold ioFailure; split <;> simp
@[simp] theorem ioFailure_y (ctx : Context) (s : State) : (ioFailure ctx s).y = s.y := by
  unfold ioFailure; split <;> simp
@[simp] theorem ioFailure_p (ctx : Context) (s : State) : (ioFailure ctx s).p = s.p := by
  unfold ioFailure; split <;> simp
@[simp] theorem ioFailure_hr (ctx : Context) (s : State) : (ioFailure ctx s).hr = s.hr := by
  unfold ioFailure; split <;> simp
@[simp] theorem ioFailure_hg (ctx : Context) (s : State) : (ioFailure ctx s).hg = s.hg := by
  unfold ioFailure; split <;> simp
@[simp] theorem ioFailure_hb (ctx : Context) (s : State) : (ioFailure ctx s).hb = s.hb := by
  unfold ioFailure; split <;> simp
@[simp] theorem ioFailure_rlc (ctx : Context) (s : State) : (ioFailure ctx s).rlc = s.rlc := by
  unfold ioFailure; split <;> simp
@[simp] theorem ioFailure_formLenOff (ctx : Context) (s : State) : (ioFailure ctx s).formLenOff = s.formLenOff := by
  unfold ioFailure; split <;> simp
@[simp] theorem ioFailure_bodyLenOff (ctx : Context) (s : State) : (ioFailure ctx s).bodyLenOff = s.bodyLenOff := by
  unfold ioFailure; split <;> simp
@[simp] theorem ioFailure_bodyStart (ctx : Context) (s : State) : (ioFailure ctx s).bodyStart = s.bodyStart := by
  unfold ioFailure; split <;> simp
@[simp] theorem ioFailure_bodyLen (ctx : Context) (s : State) : (ioFailure ctx s).bodyLen = s.bodyLen := by
  unfold ioFailure; split <;> simp
@[simp] theorem ioFailure_fileLen (ctx : Context) (s : State) : (ioFailure ctx s).fileLen = s.fileLen := by
  unfold ioFailure; split <;> simp
@[simp] theorem ioFailure_rasterWidth (ctx : Context) (s : State) : (ioFailure ctx s).rasterWidth = s.rasterWidth := by
  unfold ioFailure; split <;> simp
@[simp] theorem ioFailure_rasterHeight (ctx : Context) (s : State) : (ioFailure ctx s).rasterHeight = s.rasterHeight := by
  unfold ioFailure; split <;> simp
@[simp] theorem ioFailure_pix (ctx : Context) (s : State) : (ioFailure ctx s).pix = s.pix := by
  unfold ioFailure; split <;> simp
@[simp] theorem ioFailure_pal (ctx : Context) (s : State) : (ioFailure ctx s).pal = s.pal := by
  unfold ioFailure; split <;> simp
@[simp] theorem ioFailure_pln (ctx : Context) (s : State) : (ioFailure ctx s).pln = s.pln := by
  unfold ioFailure; split <;> simp
@[simp] theorem ioFailure_rowin (ctx : Context) (s : State) : (ioFailure ctx s).rowin = s.rowin := by
  unfold ioFailure; split <;> simp
@[simp] theorem ioFailure_rowout (ctx : Context) (s : State) : (ioFailure ctx s).rowout = s.rowout := by
  unfold ioFailure; split <;> simp
@[simp] theorem ioFailure_out (ctx : Context) (s : State) : (ioFailure ctx s).out = s.out := by
  unfold ioFailure; split <;> simp
@[simp] theorem ioFailure_wpos (ctx : Context) (s : State) : (ioFailure ctx s).wpos = s.wpos := by
  unfold ioFailure; split <;> simp
@[simp] theorem ioFailure_oracle (ctx : Context) (s : State) : (ioFailure ctx s).oracle = s.oracle := by
  unfold ioFailure; split <;> simp
@[simp] theorem ioFailure_pending (ctx : Context) (s : State) : (ioFailure ctx s).pending = s.pending := by
  unfold ioFailure; split <;> simp
@[simp] theorem ioFailure_returned (ctx : Context) (s : State) : (ioFailure ctx s).returned = s.returned := by
  unfold ioFailure; split <;> simp
@[simp] theorem ioFailure_freeTick (ctx : Context) (s : State) : (ioFailure ctx s).freeTick = if s.out.length < 2 ^ 32 then s.freeTick else s.freeTick + 1 := by
  unfold ioFailure; split <;> simp [*]

/-! ## rasterProvided -/

@[simp] theorem rasterProvided_width (w h : Word) (s : State) : (rasterProvided w h s).width = s.width := rfl
@[simp] theorem rasterProvided_height (w h : Word) (s : State) : (rasterProvided w h s).height = s.height := rfl
@[simp] theorem rasterProvided_palsize (w h : Word) (s : State) : (rasterProvided w h s).palsize = s.palsize := rfl
@[simp] theorem rasterProvided_ctrl (w h : Word) (s : State) : (rasterProvided w h s).ctrl = s.ctrl := rfl
@[simp] theorem rasterProvided_rowlen (w h : Word) (s : State) : (rasterProvided w h s).rowlen = s.rowlen := rfl
@[simp] theorem rasterProvided_status (w h : Word) (s : State) : (rasterProvided w h s).status = s.status := rfl
@[simp] theorem rasterProvided_sinkOpen (w h : Word) (s : State) : (rasterProvided w h s).sinkOpen = s.sinkOpen := rfl
@[simp] theorem rasterProvided_cause (w h : Word) (s : State) : (rasterProvided w h s).cause = s.cause := rfl
@[simp] theorem rasterProvided_faultChunk (w h : Word) (s : State) : (rasterProvided w h s).faultChunk = s.faultChunk := rfl
@[simp] theorem rasterProvided_faultPlane (w h : Word) (s : State) : (rasterProvided w h s).faultPlane = s.faultPlane := rfl
@[simp] theorem rasterProvided_faultRow (w h : Word) (s : State) : (rasterProvided w h s).faultRow = s.faultRow := rfl
@[simp] theorem rasterProvided_faultValue (w h : Word) (s : State) : (rasterProvided w h s).faultValue = s.faultValue := rfl
@[simp] theorem rasterProvided_nplanes (w h : Word) (s : State) : (rasterProvided w h s).nplanes = s.nplanes := rfl
@[simp] theorem rasterProvided_rowbytes (w h : Word) (s : State) : (rasterProvided w h s).rowbytes = s.rowbytes := rfl
@[simp] theorem rasterProvided_outlen (w h : Word) (s : State) : (rasterProvided w h s).outlen = s.outlen := rfl
@[simp] theorem rasterProvided_phase (w h : Word) (s : State) : (rasterProvided w h s).phase = s.phase := rfl
@[simp] theorem rasterProvided_x (w h : Word) (s : State) : (rasterProvided w h s).x = s.x := rfl
@[simp] theorem rasterProvided_y (w h : Word) (s : State) : (rasterProvided w h s).y = s.y := rfl
@[simp] theorem rasterProvided_p (w h : Word) (s : State) : (rasterProvided w h s).p = s.p := rfl
@[simp] theorem rasterProvided_hr (w h : Word) (s : State) : (rasterProvided w h s).hr = s.hr := rfl
@[simp] theorem rasterProvided_hg (w h : Word) (s : State) : (rasterProvided w h s).hg = s.hg := rfl
@[simp] theorem rasterProvided_hb (w h : Word) (s : State) : (rasterProvided w h s).hb = s.hb := rfl
@[simp] theorem rasterProvided_rlc (w h : Word) (s : State) : (rasterProvided w h s).rlc = s.rlc := rfl
@[simp] theorem rasterProvided_formLenOff (w h : Word) (s : State) : (rasterProvided w h s).formLenOff = s.formLenOff := rfl
@[simp] theorem rasterProvided_bodyLenOff (w h : Word) (s : State) : (rasterProvided w h s).bodyLenOff = s.bodyLenOff := rfl
@[simp] theorem rasterProvided_bodyStart (w h : Word) (s : State) : (rasterProvided w h s).bodyStart = s.bodyStart := rfl
@[simp] theorem rasterProvided_bodyLen (w h : Word) (s : State) : (rasterProvided w h s).bodyLen = s.bodyLen := rfl
@[simp] theorem rasterProvided_fileLen (w h : Word) (s : State) : (rasterProvided w h s).fileLen = s.fileLen := rfl
@[simp] theorem rasterProvided_rasterWidth (w h : Word) (s : State) : (rasterProvided w h s).rasterWidth = w := rfl
@[simp] theorem rasterProvided_rasterHeight (w h : Word) (s : State) : (rasterProvided w h s).rasterHeight = h := rfl
@[simp] theorem rasterProvided_pix (w h : Word) (s : State) : (rasterProvided w h s).pix = [] := rfl
@[simp] theorem rasterProvided_pal (w h : Word) (s : State) : (rasterProvided w h s).pal = s.pal := rfl
@[simp] theorem rasterProvided_pln (w h : Word) (s : State) : (rasterProvided w h s).pln = s.pln := rfl
@[simp] theorem rasterProvided_rowin (w h : Word) (s : State) : (rasterProvided w h s).rowin = s.rowin := rfl
@[simp] theorem rasterProvided_rowout (w h : Word) (s : State) : (rasterProvided w h s).rowout = s.rowout := rfl
@[simp] theorem rasterProvided_out (w h : Word) (s : State) : (rasterProvided w h s).out = s.out := rfl
@[simp] theorem rasterProvided_wpos (w h : Word) (s : State) : (rasterProvided w h s).wpos = s.wpos := rfl
@[simp] theorem rasterProvided_oracle (w h : Word) (s : State) : (rasterProvided w h s).oracle = s.oracle := rfl
@[simp] theorem rasterProvided_pending (w h : Word) (s : State) : (rasterProvided w h s).pending = s.pending := rfl
@[simp] theorem rasterProvided_returned (w h : Word) (s : State) : (rasterProvided w h s).returned = s.returned := rfl
@[simp] theorem rasterProvided_freeTick (w h : Word) (s : State) : (rasterProvided w h s).freeTick = s.freeTick := rfl

/-! ## pixelDefined -/

@[simp] theorem pixelDefined_width (x y : BitVec 16) (v : Pixel) (s : State) : (pixelDefined x y v s).width = s.width := rfl
@[simp] theorem pixelDefined_height (x y : BitVec 16) (v : Pixel) (s : State) :
    (pixelDefined x y v s).height = s.height := rfl
@[simp] theorem pixelDefined_palsize (x y : BitVec 16) (v : Pixel) (s : State) :
    (pixelDefined x y v s).palsize = s.palsize := rfl
@[simp] theorem pixelDefined_ctrl (x y : BitVec 16) (v : Pixel) (s : State) : (pixelDefined x y v s).ctrl = s.ctrl := rfl
@[simp] theorem pixelDefined_rowlen (x y : BitVec 16) (v : Pixel) (s : State) :
    (pixelDefined x y v s).rowlen = s.rowlen := rfl
@[simp] theorem pixelDefined_status (x y : BitVec 16) (v : Pixel) (s : State) :
    (pixelDefined x y v s).status = s.status := rfl
@[simp] theorem pixelDefined_sinkOpen (x y : BitVec 16) (v : Pixel) (s : State) :
    (pixelDefined x y v s).sinkOpen = s.sinkOpen := rfl
@[simp] theorem pixelDefined_cause (x y : BitVec 16) (v : Pixel) (s : State) : (pixelDefined x y v s).cause = s.cause := rfl
@[simp] theorem pixelDefined_faultChunk (x y : BitVec 16) (v : Pixel) (s : State) :
    (pixelDefined x y v s).faultChunk = s.faultChunk := rfl
@[simp] theorem pixelDefined_faultPlane (x y : BitVec 16) (v : Pixel) (s : State) :
    (pixelDefined x y v s).faultPlane = s.faultPlane := rfl
@[simp] theorem pixelDefined_faultRow (x y : BitVec 16) (v : Pixel) (s : State) :
    (pixelDefined x y v s).faultRow = s.faultRow := rfl
@[simp] theorem pixelDefined_faultValue (x y : BitVec 16) (v : Pixel) (s : State) :
    (pixelDefined x y v s).faultValue = s.faultValue := rfl
@[simp] theorem pixelDefined_nplanes (x y : BitVec 16) (v : Pixel) (s : State) :
    (pixelDefined x y v s).nplanes = s.nplanes := rfl
@[simp] theorem pixelDefined_rowbytes (x y : BitVec 16) (v : Pixel) (s : State) :
    (pixelDefined x y v s).rowbytes = s.rowbytes := rfl
@[simp] theorem pixelDefined_outlen (x y : BitVec 16) (v : Pixel) (s : State) :
    (pixelDefined x y v s).outlen = s.outlen := rfl
@[simp] theorem pixelDefined_phase (x y : BitVec 16) (v : Pixel) (s : State) : (pixelDefined x y v s).phase = s.phase := rfl
@[simp] theorem pixelDefined_x (x y : BitVec 16) (v : Pixel) (s : State) : (pixelDefined x y v s).x = s.x := rfl
@[simp] theorem pixelDefined_y (x y : BitVec 16) (v : Pixel) (s : State) : (pixelDefined x y v s).y = s.y := rfl
@[simp] theorem pixelDefined_p (x y : BitVec 16) (v : Pixel) (s : State) : (pixelDefined x y v s).p = s.p := rfl
@[simp] theorem pixelDefined_hr (x y : BitVec 16) (v : Pixel) (s : State) : (pixelDefined x y v s).hr = s.hr := rfl
@[simp] theorem pixelDefined_hg (x y : BitVec 16) (v : Pixel) (s : State) : (pixelDefined x y v s).hg = s.hg := rfl
@[simp] theorem pixelDefined_hb (x y : BitVec 16) (v : Pixel) (s : State) : (pixelDefined x y v s).hb = s.hb := rfl
@[simp] theorem pixelDefined_rlc (x y : BitVec 16) (v : Pixel) (s : State) : (pixelDefined x y v s).rlc = s.rlc := rfl
@[simp] theorem pixelDefined_formLenOff (x y : BitVec 16) (v : Pixel) (s : State) :
    (pixelDefined x y v s).formLenOff = s.formLenOff := rfl
@[simp] theorem pixelDefined_bodyLenOff (x y : BitVec 16) (v : Pixel) (s : State) :
    (pixelDefined x y v s).bodyLenOff = s.bodyLenOff := rfl
@[simp] theorem pixelDefined_bodyStart (x y : BitVec 16) (v : Pixel) (s : State) :
    (pixelDefined x y v s).bodyStart = s.bodyStart := rfl
@[simp] theorem pixelDefined_bodyLen (x y : BitVec 16) (v : Pixel) (s : State) :
    (pixelDefined x y v s).bodyLen = s.bodyLen := rfl
@[simp] theorem pixelDefined_fileLen (x y : BitVec 16) (v : Pixel) (s : State) :
    (pixelDefined x y v s).fileLen = s.fileLen := rfl
@[simp] theorem pixelDefined_rasterWidth (x y : BitVec 16) (v : Pixel) (s : State) :
    (pixelDefined x y v s).rasterWidth = extentWith s.rasterWidth x := rfl
@[simp] theorem pixelDefined_rasterHeight (x y : BitVec 16) (v : Pixel) (s : State) :
    (pixelDefined x y v s).rasterHeight = extentWith s.rasterHeight y := rfl
@[simp] theorem pixelDefined_pix (x y : BitVec 16) (v : Pixel) (s : State) :
    (pixelDefined x y v s).pix = memWrite s.pix (pixKey x.toNat y.toNat) v := rfl
@[simp] theorem pixelDefined_pal (x y : BitVec 16) (v : Pixel) (s : State) : (pixelDefined x y v s).pal = s.pal := rfl
@[simp] theorem pixelDefined_pln (x y : BitVec 16) (v : Pixel) (s : State) : (pixelDefined x y v s).pln = s.pln := rfl
@[simp] theorem pixelDefined_rowin (x y : BitVec 16) (v : Pixel) (s : State) : (pixelDefined x y v s).rowin = s.rowin := rfl
@[simp] theorem pixelDefined_rowout (x y : BitVec 16) (v : Pixel) (s : State) :
    (pixelDefined x y v s).rowout = s.rowout := rfl
@[simp] theorem pixelDefined_out (x y : BitVec 16) (v : Pixel) (s : State) : (pixelDefined x y v s).out = s.out := rfl
@[simp] theorem pixelDefined_wpos (x y : BitVec 16) (v : Pixel) (s : State) : (pixelDefined x y v s).wpos = s.wpos := rfl
@[simp] theorem pixelDefined_oracle (x y : BitVec 16) (v : Pixel) (s : State) :
    (pixelDefined x y v s).oracle = s.oracle := rfl
@[simp] theorem pixelDefined_pending (x y : BitVec 16) (v : Pixel) (s : State) :
    (pixelDefined x y v s).pending = s.pending := rfl
@[simp] theorem pixelDefined_returned (x y : BitVec 16) (v : Pixel) (s : State) :
    (pixelDefined x y v s).returned = s.returned := rfl
@[simp] theorem pixelDefined_freeTick (x y : BitVec 16) (v : Pixel) (s : State) :
    (pixelDefined x y v s).freeTick = s.freeTick := rfl

end Sys2Proof.Machine
end

