-- ==== Sys2Proof/Laws/Chs.lean ====
section
/-! SUPPORT. CHS: what each step of the sequence can do, said once: it appends its bytes and goes on, or the sink fails
inside them. -/

namespace Sys2Proof.Machine

/-! ## Parts of the sequence that append -/

/-- What a part that went on may have changed besides what `base` says. -/
def AppFrame (base t : State) : Prop :=
  t = { base with
    phase := t.phase, p := t.p, rlc := t.rlc, out := t.out, wpos := t.wpos, oracle := t.oracle }

/-- What a part that failed may have changed. -/
def ChsFrame (s t : State) : Prop :=
  t = { s with
    phase := t.phase, y := t.y, p := t.p, rlc := t.rlc, formLenOff := t.formLenOff, bodyLenOff := t.bodyLenOff
    bodyStart := t.bodyStart, bodyLen := t.bodyLen, fileLen := t.fileLen, out := t.out, wpos := t.wpos
    oracle := t.oracle }

theorem AppFrame.refl (s : State) : AppFrame s s := rfl
theorem ChsFrame.refl (s : State) : ChsFrame s s := rfl

theorem AppFrame.trans {s t u : State} (h1 : AppFrame s t) (h2 : AppFrame t u) : AppFrame s u := by
  simp only [AppFrame] at *
  rw [h2, h1]

theorem ChsFrame.trans {s t u : State} (h1 : ChsFrame s t) (h2 : ChsFrame t u) : ChsFrame s u := by
  simp only [ChsFrame] at *
  rw [h2, h1]

theorem ChsFrame.symm {s t : State} (h : ChsFrame s t) : ChsFrame t s := by
  simp only [ChsFrame] at *
  rw [h]

theorem AppFrame.chs {s t : State} (h : AppFrame s t) : ChsFrame s t := by
  simp only [AppFrame] at h
  rw [ChsFrame, h]

/-- A part of the sequence on `s` that appends `bytes`, the operation of each under the context at its place in `ctxs`: it
goes on to a state in the frame of `base`, or one of the operations is the first to fail and IOFailure is raised, with that
operation's context, on the bytes before it. -/
def Appended (base s : State) (bytes : List Byte) (ctxs : List Context) (f : Flow) : Prop :=
  ctxs.length = bytes.length ∧
  ((∃ t, f = .go t ∧ AppFrame base t ∧ t.out = s.out ++ bytes ∧ t.wpos = t.out.length ∧
      answersYes bytes.length s.oracle ∧ t.oracle = s.oracle.drop bytes.length) ∨
    ∃ k ctx u, k < bytes.length ∧ ctxs[k]? = some ctx ∧ firstNo k s.oracle ∧ f = .raised (ioFailure ctx u) ∧
      ChsFrame s u ∧ u.out = s.out ++ bytes.take k ∧ u.wpos = u.out.length ∧ u.oracle = s.oracle.drop (k + 1))

/-- `Append(bytes)` (00 R11). -/
theorem appendAll_appended (ctx : Context) (bs : List Byte) {s : State} (hw : s.wpos = s.out.length) :
    Appended s s bs (List.replicate bs.length ctx) (appendAll ctx bs s) := by
  refine ⟨by simp, ?_⟩
  rcases appendAll_cases ctx bs hw with ⟨hy, h⟩ | ⟨k, hk, hn, h⟩
  · exact .inl ⟨_, h, rfl, rfl, by simp [hw], hy, rfl⟩
  · refine .inr ⟨k, ctx, _, hk, by simp [hk], hn, h, rfl, rfl, ?_, rfl⟩
    simp only [List.length_append, List.length_take, hw]
    omega

/-- A part that begins by setting working registers. -/
theorem Appended.start {base s s' : State} {bytes : List Byte} {ctxs : List Context} {f : Flow}
    (h : Appended base s' bytes ctxs f) (hf : ChsFrame s s') (ho : s'.out = s.out) (hor : s'.oracle = s.oracle) :
    Appended base s bytes ctxs f := by
  refine ⟨h.1, ?_⟩
  rcases h.2 with ⟨t, h1, h2, h3, h4, h5, h6⟩ | ⟨k, ctx, u, h0, h1, h2, h3, h4, h5, h6, h7⟩
  · exact .inl ⟨t, h1, h2, by rw [h3, ho], h4, by rwa [← hor], by rw [h6, hor]⟩
  · exact .inr ⟨k, ctx, u, h0, h1, by rwa [← hor], h3, hf.trans h4, by rw [h5, ho], h6, by rw [h7, hor]⟩

theorem Appended.base {b b' s : State} {bytes : List Byte} {ctxs : List Context} {f : Flow}
    (h : Appended b s bytes ctxs f) (hb : ∀ t, AppFrame b t → AppFrame b' t) : Appended b' s bytes ctxs f := by
  refine ⟨h.1, ?_⟩
  rcases h.2 with ⟨t, h1, h2, h3⟩ | h
  · exact .inl ⟨t, h1, hb t h2, h3⟩
  · exact .inr h

/-- Two parts in sequence. -/
theorem Appended.andThen {b1 b2 s : State} {bs1 bs2 : List Byte} {cs1 cs2 : List Context} {f : Flow} {g : State → Flow}
    (hf : Appended b1 s bs1 cs1 f) (hfr : ChsFrame s b1) (hl : cs2.length = bs2.length)
    (hg : ∀ t, AppFrame b1 t → t.out = s.out ++ bs1 → t.wpos = t.out.length → Appended b2 t bs2 cs2 (g t)) :
    Appended b2 s (bs1 ++ bs2) (cs1 ++ cs2) (f.andThen g) := by
  refine ⟨by simp [hf.1, hl], ?_⟩
  have hl1 := hf.1
  rcases hf.2 with ⟨t, rfl, h2, h3, h4, h5, h6⟩ | ⟨k, ctx, u, h0, h1, h2, rfl, h4, h5, h6, h7⟩
  · rcases (hg t h2 h3 h4).2 with ⟨u, g1, g2, g3, g4, g5, g6⟩ | ⟨k, ctx, u, g0, g1, g2, g3, g4, g5, g6, g7⟩
    · refine .inl ⟨u, g1, g2, by rw [g3, h3, List.append_assoc], g4, ?_, by rw [g6, h6]; simp⟩
      rw [List.length_append]
      exact answersYes_add.mpr ⟨h5, by rwa [← h6]⟩
    · refine .inr ⟨bs1.length + k, ctx, u, by simp; omega, ?_, firstNo_add h5 (by rwa [← h6]), g3,
        (hfr.trans h2.chs).trans g4, ?_, g6, by rw [g7, h6]; simp [Nat.add_assoc]⟩
      · rw [List.getElem?_append_right (by omega), hl1, Nat.add_sub_cancel_left, g1]
      · rw [g5, h3, List.append_assoc, List.take_length_add_append]
  · refine .inr ⟨k, ctx, u, by simp; omega, ?_, h2, rfl, h4, ?_, h6, h7⟩
    · rw [List.getElem?_append_left (by omega), h1]
    · rw [h5, List.take_append_of_le_length (by omega)]

/-- Two parts in sequence that both keep the frame of `s`. -/
theorem Appended.seq {s : State} {bs1 bs2 : List Byte} {cs1 cs2 : List Context} {f : Flow} {g : State → Flow}
    (hf : Appended s s bs1 cs1 f) (hl : cs2.length = bs2.length)
    (hg : ∀ t, AppFrame s t → t.out = s.out ++ bs1 → t.wpos = t.out.length → Appended t t bs2 cs2 (g t)) :
    Appended s s (bs1 ++ bs2) (cs1 ++ cs2) (f.andThen g) :=
  hf.andThen (ChsFrame.refl s) hl fun t h1 h2 h3 => (hg t h1 h2 h3).base fun _ => h1.trans

/-- A loop of parts, the frame before its turn `i` that of `base i`. -/
theorem forEach_appended {base : Nat → State} {body : Nat → State → Flow} {bytes : Nat → List Byte}
    {ctxs : Nat → List Context} (n : Nat) {s : State} (hs : AppFrame (base 0) s) (hw : s.wpos = s.out.length)
    (hl : ∀ i < n, (ctxs i).length = (bytes i).length) (hb : ∀ i, ChsFrame (base i) (base (i + 1)))
    (hbody : ∀ i < n, ∀ t, AppFrame (base i) t → t.wpos = t.out.length →
      Appended (base (i + 1)) t (bytes i) (ctxs i) (body i t)) :
    Appended (base n) s ((List.range n).flatMap bytes) ((List.range n).flatMap ctxs) (forEach body (List.range n) s) := by
  have len : ∀ m j, j + m = n →
      ((List.range' j m).flatMap ctxs).length = ((List.range' j m).flatMap bytes).length := by
    intro m
    induction m with
    | zero => intro j _; rfl
    | succ m ih =>
      intro j hj
      simp only [List.range'_succ, List.flatMap_cons, List.length_append, hl j (by omega), ih (j + 1) (by omega)]
  have key : ∀ m j t, j + m = n → AppFrame (base j) t → t.wpos = t.out.length →
      Appended (base n) t ((List.range' j m).flatMap bytes) ((List.range' j m).flatMap ctxs)
        (forEach body (List.range' j m) t) := by
    intro m
    induction m with
    | zero =>
      intro j t hj hf hwt
      exact ⟨rfl, .inl ⟨t, rfl, by rwa [← hj], by simp, hwt, answersYes_zero _, rfl⟩⟩
    | succ m ih =>
      intro j t hj hf hwt
      rw [List.range'_succ, List.flatMap_cons, List.flatMap_cons, forEach_cons]
      exact (hbody j (by omega) t hf hwt).andThen (hf.chs.symm.trans (hb j)) (len m (j + 1) (by omega))
        fun u hu _ hwu => ih (j + 1) u (by omega) hu hwu
  simpa [List.range_eq_range'] using key n 0 s (by omega) hs hw

/-- One context for all operations of a part. -/
theorem Appended.const {b s : State} {bytes : List Byte} {ctxs : List Context} {f : Flow} (ctx : Context)
    (h : Appended b s bytes ctxs f) (hc : ∀ c ∈ ctxs, c = ctx) :
    Appended b s bytes (List.replicate bytes.length ctx) f := by
  rwa [← List.eq_replicate_iff.mpr ⟨h.1, hc⟩]

/-! ## The steps -/

/-- Step 1 up to the placeholder (43 R168). -/
theorem chsForm_appended {s : State} (hw : s.wpos = s.out.length) :
    Appended { s with formLenOff := s.out.length + 4 } s (tagForm ++ [0, 0, 0, 0]) (List.replicate 8 ctxForm)
      (chsForm s) := by
  have h1 : Appended s s tagForm (List.replicate 4 ctxForm) (appendAll ctxForm tagForm { s with phase := .form }) :=
    ((appendAll_appended ctxForm tagForm (s := { s with phase := .form }) hw).start rfl rfl rfl).base
      fun t ht => ht
  refine h1.andThen (cs2 := List.replicate 4 ctxForm) rfl rfl fun t ht ho hwt => ?_
  have hlen : sinkTell t = s.out.length + 4 := by
    show t.wpos = _
    rw [hwt, ho]
    simp [tagForm]
  rw [hlen]
  refine ((appendAll_appended ctxForm Config.placeholder
    (s := { t with formLenOff := s.out.length + 4 }) hwt).start rfl rfl rfl).base fun u hu => ?_
  simp only [AppFrame] at *
  rw [hu, ht]

/-- Step 1, the form type (43 R168). -/
theorem chsIlbm_appended {s : State} (hw : s.wpos = s.out.length) :
    Appended s s tagIlbm (List.replicate 4 ctxForm) (chsIlbm s) :=
  ((appendAll_appended ctxForm tagIlbm (s := { s with phase := .form }) hw).start rfl rfl rfl).base
    fun _ ht => ht

theorem bmhdPayload_length (s : State) : (bmhdPayload s).length = 20 := rfl

/-- Step 2 (43 R169). -/
theorem chsBmhd_appended {s : State} (hw : s.wpos = s.out.length) :
    Appended s s (tagBmhd ++ be32 20 ++ bmhdPayload s) (List.replicate 28 ctxBmhd) (chsBmhd s) :=
  ((appendAll_appended ctxBmhd (tagBmhd ++ be32 20 ++ bmhdPayload s) (s := { s with phase := .bmhd }) hw).start
    rfl rfl rfl).base fun _ ht => ht

/-- Step 3 (43 R171). -/
theorem chsCamg_appended {s : State} (hw : s.wpos = s.out.length) :
    Appended s s (if isHam s then tagCamg ++ be32 4 ++ be32 0x800 else [])
      (if isHam s then List.replicate 12 ctxCamg else []) (chsCamg s) := by
  simp only [chsCamg]
  split
  · exact ((appendAll_appended ctxCamg (tagCamg ++ be32 4 ++ be32 Config.camgHam) (s := { s with phase := .camg })
      hw).start rfl rfl rfl).base fun _ ht => ht
  · exact ⟨rfl, .inl ⟨s, rfl, rfl, by simp, hw, answersYes_zero _, rfl⟩⟩

/-- Entry `i` of the CMAP payload; nothing where the entry holds no value. -/
def cmapBytes (s : State) (i : Nat) : List Byte :=
  match memRead s.pal i with
  | some c => [cmapByte c.r, cmapByte c.g, cmapByte c.b]
  | none => []

theorem imageCmap_eq (s : State) : imageCmap s = (List.range (cmapCount s)).flatMap (cmapBytes s) := rfl

theorem cmapTriple_eq (s : State) (i : Nat) (c : Rgb) : cmapTriple s i c = [cmapByte c.r, cmapByte c.g, cmapByte c.b] := by
  simp [cmapTriple, cmapChannel]

theorem imageCmap_length {s : State} (h : paletteReady s) : (imageCmap s).length = 3 * cmapCount s := by
  have key : ∀ n, n ≤ cmapCount s → ((List.range n).flatMap (cmapBytes s)).length = 3 * n := by
    intro n
    induction n with
    | zero => simp
    | succ n ih =>
      intro hn
      obtain ⟨c, hc⟩ := Option.isSome_iff_exists.mp (h n (by omega))
      rw [List.range_succ, List.flatMap_append, List.length_append, ih (by omega)]
      simp [cmapBytes, hc]
      omega
  exact key _ (Nat.le_refl _)

/-- Step 4 where every entry it takes holds a value (43 R172, R173). -/
theorem chsCmap_appended {s : State} (hw : s.wpos = s.out.length) (hp : paletteReady s) :
    Appended s s (chunk tagCmap (imageCmap s)) (List.replicate (chunk tagCmap (imageCmap s)).length ctxCmap)
      (chsCmap s) := by
  have h1 : Appended s s (tagCmap ++ be32 (3 * cmapCount s)) (List.replicate 8 ctxCmap)
      (appendAll ctxCmap (tagCmap ++ be32 (3 * cmapCount s)) { s with phase := .cmap }) :=
    ((appendAll_appended ctxCmap (tagCmap ++ be32 (3 * cmapCount s)) (s := { s with phase := .cmap }) hw).start
      rfl rfl rfl).base fun _ ht => ht
  simp only [chunk, imageCmap_length hp, chsCmap]
  have h2 : Appended s s (tagCmap ++ be32 (3 * cmapCount s) ++ imageCmap s)
      (List.replicate (tagCmap ++ be32 (3 * cmapCount s) ++ imageCmap s).length ctxCmap)
      ((appendAll ctxCmap (tagCmap ++ be32 (3 * cmapCount s)) { s with phase := .cmap }).andThen fun t =>
        forEach chsCmapEntry (List.range (cmapCount s)) t) := by
    refine (h1.seq (bs2 := imageCmap s)
      (cs2 := (List.range (cmapCount s)).flatMap fun i => List.replicate (cmapBytes s i).length ctxCmap)
      (by simp [imageCmap_eq]) fun t ht _ hwt => ?_).const ctxCmap fun c hc => ?_
    · rw [imageCmap_eq]
      refine forEach_appended (base := fun _ => t) _ rfl hwt (fun _ _ => by simp) (fun _ => rfl) fun i hi u hu hwu => ?_
      have hpal : u.pal = s.pal := by rw [hu, ht]
      obtain ⟨c, hc⟩ := Option.isSome_iff_exists.mp (hp i hi)
      simp only [chsCmapEntry, hpal, hc, cmapTriple_eq, cmapBytes]
      exact (appendAll_appended ctxCmap _ hwu).base fun _ => hu.trans
    · rcases List.mem_append.mp hc with hc | hc
      · exact (List.mem_replicate.mp hc).2
      · obtain ⟨i, _, hc⟩ := List.mem_flatMap.mp hc
        exact (List.mem_replicate.mp hc).2
  refine (h2.seq (cs2 := List.replicate (padBytes (3 * cmapCount s)).length ctxCmap) (by simp)
    fun t _ _ hwt => appendAll_appended ctxCmap _ hwt).const ctxCmap fun c hc => ?_
  rcases List.mem_append.mp hc with hc | hc <;> exact (List.mem_replicate.mp hc).2

/-- Step 5a (43 R176). -/
theorem chsBodyHeader_appended {s : State} (hw : s.wpos = s.out.length) :
    Appended { s with bodyLenOff := s.out.length + 4, bodyStart := s.out.length + 8 } s (tagBody ++ [0, 0, 0, 0])
      (List.replicate 8 ctxBody) (chsBodyHeader s) := by
  have h1 : Appended s s tagBody (List.replicate 4 ctxBody) (appendAll ctxBody tagBody { s with phase := .body }) :=
    ((appendAll_appended ctxBody tagBody (s := { s with phase := .body }) hw).start rfl rfl rfl).base
      fun t ht => ht
  have h2 : Appended { s with bodyLenOff := s.out.length + 4 } s (tagBody ++ [0, 0, 0, 0])
      (List.replicate 4 ctxBody ++ List.replicate 4 ctxBody)
      ((appendAll ctxBody tagBody { s with phase := .body }).andThen fun t =>
        appendAll ctxBody Config.placeholder { t with bodyLenOff := sinkTell t }) := by
    refine h1.andThen rfl rfl fun t ht ho hwt => ?_
    have hlen : sinkTell t = s.out.length + 4 := by
      show t.wpos = _
      rw [hwt, ho]
      simp [tagBody]
    rw [hlen]
    refine ((appendAll_appended ctxBody Config.placeholder
      (s := { t with bodyLenOff := s.out.length + 4 }) hwt).start rfl rfl rfl).base fun u hu => ?_
    simp only [AppFrame] at *
    rw [hu, ht]
  have h3 := h2.andThen (g := fun t => .go { t with bodyStart := sinkTell t }) (bs2 := []) (cs2 := [])
    (b2 := { s with bodyLenOff := s.out.length + 4, bodyStart := s.out.length + 8 }) rfl rfl fun t ht ho hwt => by
      refine ⟨rfl, .inl ⟨_, rfl, ?_, by simp, hwt, answersYes_zero _, rfl⟩⟩
      have hlen : sinkTell t = s.out.length + 8 := by
        show t.wpos = _
        rw [hwt, ho]
        simp [tagBody]
      simp only [AppFrame] at *
      rw [hlen, ht]
  rw [List.append_nil] at h3
  exact h3

/-- The row's bytes are read where they all hold values. -/
theorem planeRow_some {m : Memory Byte} {p y : Nat} (n b : Nat) (h : ∀ i < n, (plnRead m p y (b + i)).isSome = true) :
    planeRow m p y b n = some ((List.range' b n).map fun i => (plnRead m p y i).getD 0) := by
  induction n generalizing b with
  | zero => rfl
  | succ n ih =>
    obtain ⟨v, hv⟩ := Option.isSome_iff_exists.mp (h 0 (by omega))
    rw [Nat.add_zero] at hv
    have := ih (b + 1) fun i hi => by
      have := h (i + 1) (by omega)
      rwa [show b + (i + 1) = b + 1 + i by omega] at this
    simp only [planeRow, hv, this, List.range'_succ, List.map_cons, Option.getD_some]

/-- The bytes of plane-row `(p, y)` as step 5b reads them. -/
def rowBytesOf (s : State) (p y : Nat) : List Byte :=
  (List.range s.rowbytes.toNat).map fun b => (plnRead s.pln p y b).getD 0

/-- What step 5b appends of it: the row, or its compression (43 R178, R179). -/
def rowStored (s : State) (p y : Nat) : List Byte :=
  if compressOn s then compress (rowBytesOf s p y) else rowBytesOf s p y

/-- The context of plane-row `(p, y)` (60 R230), cut to the cursors' widths. -/
def rowContext (y p : Nat) : Context :=
  { chunk := 6, row := (BitVec.ofNat 16 y).setWidth 32, plane := (BitVec.ofNat 4 p).setWidth 8 }

/-- The rows loop before its row `y`: the cursor Y is the row before it. -/
def atRow (s : State) (y : Nat) : State := { s with y := if y = 0 then s.y else BitVec.ofNat 16 (y - 1) }

/-- Step 5b where every byte it reads holds a value (43 R177 to R179). -/
theorem chsRows_appended {s : State} (hw : s.wpos = s.out.length)
    (hpln : ∀ y < s.height.toNat, ∀ p < s.nplanes.toNat, ∀ b < s.rowbytes.toNat, (plnRead s.pln p y b).isSome = true) :
    Appended (atRow s s.height.toNat) s
      ((List.range s.height.toNat).flatMap fun y => (List.range s.nplanes.toNat).flatMap fun p => rowStored s p y)
      ((List.range s.height.toNat).flatMap fun y => (List.range s.nplanes.toNat).flatMap fun p =>
        List.replicate (rowStored s p y).length (rowContext y p))
      (chsRows s) := by
  refine forEach_appended (base := atRow s) _ rfl hw (fun _ _ => by simp [List.length_flatMap]) (fun _ => rfl)
    fun y hy t ht hwt => ?_
  have hn : t.nplanes = s.nplanes := by rw [ht]; rfl
  have hrow : chsRow y t = forEach (chsPlaneRow y) (List.range s.nplanes.toNat) { t with y := BitVec.ofNat 16 y } := by
    rw [← hn]
    rfl
  have key : Appended { t with y := BitVec.ofNat 16 y } { t with y := BitVec.ofNat 16 y }
      ((List.range s.nplanes.toNat).flatMap fun p => rowStored s p y)
      ((List.range s.nplanes.toNat).flatMap fun p => List.replicate (rowStored s p y).length (rowContext y p))
      (forEach (chsPlaneRow y) (List.range s.nplanes.toNat) { t with y := BitVec.ofNat 16 y }) := by
    refine forEach_appended (base := fun _ => { t with y := BitVec.ofNat 16 y }) _ rfl hwt (fun _ _ => by simp)
      (fun _ => rfl) fun p hp u hu hwu => ?_
    have hpl : u.pln = s.pln := by rw [hu, ht]; rfl
    have hrb : u.rowbytes = s.rowbytes := by rw [hu, ht]; rfl
    have hco : compressOn u = compressOn s := by rw [hu, ht]; rfl
    have hcx : ctxPlaneRow { u with p := BitVec.ofNat 4 p } = rowContext y p := by rw [hu]; rfl
    have hrow : planeRow u.pln p y 0 u.rowbytes.toNat = some (rowBytesOf s p y) := by
      rw [hpl, hrb, planeRow_some _ _ (fun i hi => by simpa using hpln y hy p hp i hi), rowBytesOf, List.range_eq_range']
    simp only [chsPlaneRow, hrow, rowStored, hco, hcx]
    split
    · rw [compressRegs_out]
      exact ((appendAll_appended _ _ (s := { u with p := BitVec.ofNat 4 p, rlc := compressRegs (rowBytesOf s p y) u.rlc })
        hwu).start rfl rfl rfl).base fun _ h => hu.trans h
    · exact ((appendAll_appended _ _ (s := { u with p := BitVec.ofNat 4 p }) hwu).start rfl rfl rfl).base
        fun _ h => hu.trans h
  rw [hrow]
  refine (key.start rfl rfl rfl).base fun _ h => ?_
  simp only [AppFrame, atRow] at *
  rw [h, ht]
  simp

/-! ## Length patches -/

/-- What a length patch can do at an offset of OUT: the length does not fit, or the patch goes through, or it fails and
leaves some of the four bytes (43 R180, R183; 20 R73). -/
theorem patchLength_cases (ctx : Context) {off len : Nat} {s : State} (hoff : off + 4 ≤ s.out.length) :
    (2 ^ 32 ≤ len ∧ patchLength ctx off len s = .raised (raiseFault .lengthOverflow ctx (BitVec.ofNat 32 len) s)) ∨
    (len < 2 ^ 32 ∧ answersYes 6 s.oracle ∧ patchLength ctx off len s =
      .go { s with out := overwrite s.out off (be32 len), wpos := s.out.length, oracle := s.oracle.drop 6 }) ∨
    (len < 2 ^ 32 ∧ ∃ k < 6, firstNo k s.oracle ∧ patchLength ctx off len s = .raised (ioFailure ctx
      { s with
        out := overwrite s.out off ((be32 len).take (k - 1)), wpos := s.out.length
        oracle := s.oracle.drop (k + 1) })) := by
  simp only [patchLength]
  split
  · exact .inl ⟨by assumption, rfl⟩
  · rename_i hlen
    rcases sinkPatch32_cases ctx hoff (by omega : len < 2 ^ 32) with ⟨h1, h2⟩ | ⟨k, hk, h1, h2⟩
    · exact .inr (.inl ⟨by omega, h1, h2⟩)
    · exact .inr (.inr ⟨by omega, k, hk, h1, h2⟩)

end Sys2Proof.Machine
end

