-- ==== Sys2Proof/Laws/ChsWrite.lean ====
section
/-! SUPPORT. `CHS.write()` as a whole: the appends, the two patches, and what OUT holds wherever the sequence ends. -/

namespace Sys2Proof.Machine

/-! ## The sequence in three parts -/

/-- Everything between opening the sink and the first patch. -/
def chsAppends (s : State) : Flow :=
  ((((((chsForm s).andThen chsIlbm).andThen chsBmhd).andThen chsCamg).andThen chsCmap).andThen chsBodyHeader).andThen
    chsRows

/-- Everything from the first patch on. -/
def chsTail (s : State) : Flow :=
  ((chsBodyFix s).andThen chsBodyPad).andThen fun t => (chsFormFix t).andThen fun u => .go (chsClose u)

theorem chsWrite_eq (s : State) :
    chsWrite s = (chsOpen s).andThen fun t => (chsAppends t).andThen chsTail := by
  have hb : chsBody = fun s => (chsBodyHeader s).andThen fun t => (chsRows t).andThen fun u =>
      (chsBodyFix u).andThen chsBodyPad := by
    funext s
    simp only [chsBody, andThen_assoc]
  have ht : chsTail = fun s => (chsBodyFix s).andThen fun u => (chsBodyPad u).andThen fun t =>
      (chsFormFix t).andThen fun u => .go (chsClose u) := by
    funext s
    simp only [chsTail, andThen_assoc]
  simp only [chsWrite, chsAppends, hb, ht, andThen_assoc]

/-! ## The bytes -/

/-- The bytes before the BODY chunk, with the placeholder of FORM's length. -/
def chsHead (s : State) : List Byte :=
  tagForm ++ [0, 0, 0, 0] ++ tagIlbm ++ (tagBmhd ++ be32 20 ++ bmhdPayload s)
    ++ (if isHam s then tagCamg ++ be32 4 ++ be32 0x800 else []) ++ chunk tagCmap (imageCmap s)

/-- The BODY payload step 5b appends. -/
def chsRowBytes (s : State) : List Byte :=
  (List.range s.height.toNat).flatMap fun y => (List.range s.nplanes.toNat).flatMap fun p => rowStored s p y

/-- What is appended in all, with both placeholders. -/
def chsUnpatched (s : State) : List Byte :=
  chsHead s ++ (tagBody ++ [0, 0, 0, 0]) ++ chsRowBytes s ++ padBytes (chsRowBytes s).length

/-- The file with both lengths patched. -/
def chsFile (s : State) : List Byte :=
  overwrite (overwrite (chsUnpatched s) ((chsHead s).length + 4) (be32 (chsRowBytes s).length)) 4
    (be32 ((chsUnpatched s).length - 8))

/-- Equal to the file cut to its length, but for bytes of the two length fields. -/
def AgreesOutsideLengths (s : State) (out : List Byte) : Prop :=
  out.length ≤ (chsFile s).length ∧
  ∀ k < out.length, ¬ (4 ≤ k ∧ k < 8) → ¬ ((chsHead s).length + 4 ≤ k ∧ k < (chsHead s).length + 8) →
    out[k]? = (chsFile s)[k]?

theorem chsFile_length (s : State) : (chsFile s).length = (chsUnpatched s).length := by simp [chsFile]

theorem chsUnpatched_agrees (s : State) : AgreesOutsideLengths s (chsUnpatched s) := by
  refine ⟨by rw [chsFile_length], fun k hk h1 h2 => ?_⟩
  have e : ∀ n, (be32 n).length = 4 := fun _ => rfl
  rw [chsFile, overwrite_get _ _ _ _ (by simpa using hk), e, if_neg (by omega), overwrite_get _ _ _ _ hk, e,
    if_neg (by omega)]

theorem AgreesOutsideLengths.take {s : State} {out : List Byte} (h : AgreesOutsideLengths s out) (n : Nat) :
    AgreesOutsideLengths s (out.take n) := by
  refine ⟨by have := h.1; simp; omega, fun k hk h1 h2 => ?_⟩
  rw [List.length_take] at hk
  rw [List.getElem?_take_of_lt (by omega)]
  exact h.2 k (by omega) h1 h2

theorem AgreesOutsideLengths.patched {s : State} {out : List Byte} (h : AgreesOutsideLengths s out) {off : Nat}
    (hoff : off = 4 ∨ off = (chsHead s).length + 4) (bs : List Byte) (hb : bs.length ≤ 4) :
    AgreesOutsideLengths s (overwrite out off bs) := by
  refine ⟨by simpa using h.1, fun k hk h1 h2 => ?_⟩
  rw [overwrite_length] at hk
  rw [overwrite_get _ _ _ _ hk, if_neg (by rcases hoff with rfl | rfl <;> omega)]
  exact h.2 k hk h1 h2

/-! ## The fallible operations after SinkOpen -/

/-- The contexts of the appends up to the first patch (43 R166, 60 R230). -/
def chsContexts (s : State) : List Context :=
  List.replicate 12 ctxForm ++ List.replicate 28 ctxBmhd ++ (if isHam s then List.replicate 12 ctxCamg else [])
    ++ List.replicate (chunk tagCmap (imageCmap s)).length ctxCmap ++ List.replicate 8 ctxBody
    ++ (List.range s.height.toNat).flatMap fun y => (List.range s.nplanes.toNat).flatMap fun p =>
      List.replicate (rowStored s p y).length (rowContext y p)

/-- The bytes of those appends. -/
def chsAppended (s : State) : List Byte := chsHead s ++ (tagBody ++ [0, 0, 0, 0]) ++ chsRowBytes s

theorem chsUnpatched_eq (s : State) : chsUnpatched s = chsAppended s ++ padBytes (chsRowBytes s).length := rfl

/-- OUT once the BODY length is patched and the pad appended. -/
def chsBodyFixed (s : State) : List Byte :=
  overwrite (chsUnpatched s) ((chsHead s).length + 4) (be32 (chsRowBytes s).length)

theorem chsFile_eq (s : State) : chsFile s = overwrite (chsBodyFixed s) 4 (be32 ((chsUnpatched s).length - 8)) := rfl

/-- Every fallible operation after SinkOpen, in order: the context it fails under, and the length OUT then has. -/
def chsOperations (s : State) : List (Context × Nat) :=
  (chsContexts s).zipIdx
    ++ List.replicate (6 + (padBytes (chsRowBytes s).length).length) (ctxBodyFix, (chsAppended s).length)
    ++ List.replicate 6 (ctxFormFix, (chsUnpatched s).length)

theorem padBytes_length (n : Nat) : (padBytes n).length = n % 2 := by
  simp only [padBytes]
  split <;> simp <;> omega

/-! ## The appends -/

/-- The state the appends leave: the offsets of the two lengths and of the payload, and the cursor Y. -/
def afterAppends (s : State) : State :=
  { atRow s s.height.toNat with
    formLenOff := 4, bodyLenOff := (chsHead s).length + 4, bodyStart := (chsHead s).length + 8 }

/-- All appends up to the first patch, on a sink just opened (43 R168 to R179). -/
theorem chsAppends_appended {s : State} (ho : s.out = []) (hw : s.wpos = 0) (hp : paletteReady s)
    (hpln : ∀ y < s.height.toNat, ∀ p < s.nplanes.toNat, ∀ b < s.rowbytes.toNat, (plnRead s.pln p y b).isSome = true) :
    Appended (afterAppends s) s (chsAppended s) (chsContexts s) (chsAppends s) := by
  let b1 : State := { s with formLenOff := 4 }
  have e0 : s.out.length = 0 := by simp [ho]
  have h1 : Appended b1 s (tagForm ++ [0, 0, 0, 0]) (List.replicate 8 ctxForm) (chsForm s) := by
    have := chsForm_appended (s := s) (by rw [hw, e0])
    rwa [e0] at this
  have step : ∀ {bs1 bs2 : List Byte} {cs1 cs2 : List Context} {f : Flow} {g : State → Flow}, Appended b1 s bs1 cs1 f →
      cs2.length = bs2.length →
      (∀ t, AppFrame b1 t → t.wpos = t.out.length → Appended t t bs2 cs2 (g t)) →
      Appended b1 s (bs1 ++ bs2) (cs1 ++ cs2) (f.andThen g) :=
    fun hf hl hg => hf.andThen rfl hl fun t h1 h2 h3 => (hg t h1 h3).base fun _ => h1.trans
  have h5 : Appended b1 s (chsHead s)
      (List.replicate 8 ctxForm ++ List.replicate 4 ctxForm ++ List.replicate 28 ctxBmhd
        ++ (if isHam s then List.replicate 12 ctxCamg else [])
        ++ List.replicate (chunk tagCmap (imageCmap s)).length ctxCmap)
      (((((chsForm s).andThen chsIlbm).andThen chsBmhd).andThen chsCamg).andThen chsCmap) := by
    refine step (step (step (step h1 rfl fun t _ hwt => chsIlbm_appended hwt) rfl fun t ht hwt => ?_)
      (by split <;> rfl) fun t ht hwt => ?_) (by simp) fun t ht hwt => ?_
    · have := chsBmhd_appended hwt
      have e : bmhdPayload t = bmhdPayload s := by rw [ht]; rfl
      rwa [e] at this
    · have := chsCamg_appended hwt
      have e : isHam t = isHam s := by rw [ht]; rfl
      rwa [e] at this
    · have e1 : cmapCount t = cmapCount s := by rw [ht]; rfl
      have e2 : t.pal = s.pal := by rw [ht]
      have := chsCmap_appended hwt (by rwa [paletteReady, e1, e2])
      have e : imageCmap t = imageCmap s := by simp only [imageCmap, e1, e2]
      rwa [e] at this
  let b2 : State :=
    { s with formLenOff := 4, bodyLenOff := (chsHead s).length + 4, bodyStart := (chsHead s).length + 8 }
  have h6 : Appended b2 s (chsHead s ++ (tagBody ++ [0, 0, 0, 0]))
      (List.replicate 8 ctxForm ++ List.replicate 4 ctxForm ++ List.replicate 28 ctxBmhd
        ++ (if isHam s then List.replicate 12 ctxCamg else [])
        ++ List.replicate (chunk tagCmap (imageCmap s)).length ctxCmap ++ List.replicate 8 ctxBody)
      ((((((chsForm s).andThen chsIlbm).andThen chsBmhd).andThen chsCamg).andThen chsCmap).andThen chsBodyHeader) := by
    refine h5.andThen rfl rfl fun t ht hot hwt => ?_
    have e : t.out.length = (chsHead s).length := by rw [hot, ho]; simp
    have := chsBodyHeader_appended hwt
    rw [e] at this
    refine this.base fun u hu => ?_
    simp only [AppFrame, b2, b1] at *
    rw [hu, ht]
  refine h6.andThen rfl (by simp [chsRowBytes, List.length_flatMap]) fun t ht _ hwt => ?_
  have ep : t.pln = s.pln := by rw [ht]
  have en : t.nplanes = s.nplanes := by rw [ht]
  have eh : t.height = s.height := by rw [ht]
  have er : t.rowbytes = s.rowbytes := by rw [ht]
  have ec : compressOn t = compressOn s := by rw [ht]; rfl
  have hrows := chsRows_appended hwt (by rw [ep, en, eh, er]; exact hpln)
  have e : ∀ p y, rowStored t p y = rowStored s p y := by simp [rowStored, rowBytesOf, ep, er, ec]
  simp only [e, en, eh] at hrows
  refine hrows.base fun u hu => ?_
  simp only [AppFrame, afterAppends, atRow, b2] at *
  rw [hu, ht]

/-! ## The patches -/

/-- The sink failed after it was opened: operation `k` was the first to fail, under its context and at its length of OUT. -/
def SinkIo (s : State) (ctx : Context) (val : Word) (v : State) : Prop :=
  (v.out.length < 2 ^ 32 → val = BitVec.ofNat 32 v.out.length) ∧
  ∃ k, firstNo k s.oracle ∧ (chsOperations s)[k]? = some (ctx, v.out.length) ∧ v.oracle = s.oracle.drop (k + 1)

/-- A length did not fit: BODY's before its patch, or FORM's before its own (43 R180, R183). -/
def SinkOverflow (s : State) (ctx : Context) (val : Word) (v : State) : Prop :=
  (2 ^ 32 ≤ (chsRowBytes s).length ∧ ctx = ctxBodyFix ∧ val = BitVec.ofNat 32 (chsRowBytes s).length ∧
    v.out = chsAppended s) ∨
  ((chsRowBytes s).length < 2 ^ 32 ∧ 2 ^ 32 ≤ (chsUnpatched s).length - 8 ∧ ctx = ctxFormFix ∧
    val = BitVec.ofNat 32 ((chsUnpatched s).length - 8) ∧ v.out = chsBodyFixed s)

/-- Ending on a fault after the sink was opened: the cause, the context and OUT. `s` is the state just after the sink was
opened. -/
def SinkFault (s : State) (f : Flow) : Prop :=
  ∃ c ctx val v n, f = .raised (raiseFault c ctx val { v with freeTick := n }) ∧ ChsFrame s v ∧
    AgreesOutsideLengths s v.out ∧ v.wpos = v.out.length ∧
    ((c = .ioFailure ∧ SinkIo s ctx val v) ∨ (c = .lengthOverflow ∧ SinkOverflow s ctx val v))

theorem sinkFault_io {s v : State} {ctx : Context} {k : Nat} (hf : ChsFrame s v)
    (ha : AgreesOutsideLengths s v.out) (hw : v.wpos = v.out.length) (hk : firstNo k s.oracle)
    (hc : (chsOperations s)[k]? = some (ctx, v.out.length)) (ho : v.oracle = s.oracle.drop (k + 1)) :
    SinkFault s (.raised (ioFailure ctx v)) := by
  obtain ⟨val, n, he, hv⟩ := ioFailure_eq ctx v
  exact ⟨_, ctx, val, v, n, by rw [he], hf, ha, hw, .inl ⟨rfl, fun h => (hv h).1, k, hk, hc, ho⟩⟩

theorem sinkFault_overflow {s v : State} {ctx : Context} {val : Word} (hf : ChsFrame s v)
    (ha : AgreesOutsideLengths s v.out) (hw : v.wpos = v.out.length) (hl : SinkOverflow s ctx val v) :
    SinkFault s (.raised (raiseFault .lengthOverflow ctx val v)) :=
  ⟨_, ctx, val, v, v.freeTick, rfl, hf, ha, hw, .inr ⟨rfl, hl⟩⟩

/-- A completed sequence (43 R166): the file, the sink released, the offsets of R34, and every operation answered yes. -/
def SinkDone (s : State) (f : Flow) : Prop :=
  ∃ t, f = .go t ∧ t.out = chsFile s ∧ t.sinkOpen = false ∧ t.wpos = t.out.length ∧
    t.bodyLen = (chsRowBytes s).length ∧ (chsRowBytes s).length < 2 ^ 32 ∧ (chsUnpatched s).length - 8 < 2 ^ 32 ∧
    ChsFrame s { t with sinkOpen := s.sinkOpen } ∧ answersYes (chsOperations s).length s.oracle ∧
    t.oracle = s.oracle.drop (chsOperations s).length

/-- What is known before the first patch: all appends went through. -/
structure BeforePatches (s t : State) : Prop where
  frame : AppFrame (afterAppends s) t
  out : t.out = chsAppended s
  wpos : t.wpos = t.out.length
  contexts : (chsContexts s).length = (chsAppended s).length
  yes : answersYes (chsAppended s).length s.oracle
  oracle : t.oracle = s.oracle.drop (chsAppended s).length

theorem operation_append {s : State} {k : Nat} {ctx : Context} (h : (chsContexts s)[k]? = some ctx) :
    (chsOperations s)[k]? = some (ctx, k) := by
  obtain ⟨hk, _⟩ := List.getElem?_eq_some_iff.mp h
  rw [chsOperations, List.append_assoc, List.getElem?_append_left (by simpa using hk), List.getElem?_zipIdx, h]
  simp

theorem operation_bodyFix {s : State} {k : Nat} (hc : (chsContexts s).length = (chsAppended s).length)
    (hk : k < 6 + (padBytes (chsRowBytes s).length).length) :
    (chsOperations s)[(chsAppended s).length + k]? = some (ctxBodyFix, (chsAppended s).length) := by
  rw [chsOperations, List.append_assoc, List.getElem?_append_right (by simp [hc]),
    List.getElem?_append_left (by simp [hc]; omega)]
  simp [hc, hk]

theorem operation_formFix {s : State} {k : Nat} (hc : (chsContexts s).length = (chsAppended s).length) (hk : k < 6) :
    (chsOperations s)[(chsAppended s).length + 6 + (padBytes (chsRowBytes s).length).length + k]? =
      some (ctxFormFix, (chsUnpatched s).length) := by
  rw [chsOperations, List.append_assoc, List.getElem?_append_right (by simp [hc]; omega),
    List.getElem?_append_right (by simp [hc]; omega)]
  have e : (chsAppended s).length + 6 + (padBytes (chsRowBytes s).length).length + k - (chsContexts s).zipIdx.length -
      (List.replicate (6 + (padBytes (chsRowBytes s).length).length) (ctxBodyFix, (chsAppended s).length)).length = k := by
    simp [hc]
    omega
  rw [e, List.getElem?_replicate, if_pos hk]

theorem operations_length {s : State} (hc : (chsContexts s).length = (chsAppended s).length) :
    (chsOperations s).length = (chsAppended s).length + 6 + (padBytes (chsRowBytes s).length).length + 6 := by
  simp [chsOperations, hc]
  omega

/-- From the first patch on (43 R180 to R184). -/
theorem chsTail_cases {s t : State} (hb : BeforePatches s t) : SinkDone s (chsTail t) ∨ SinkFault s (chsTail t) := by
  obtain ⟨ht, ho, hw, hc, hyes, hor⟩ := hb
  have hfr : ChsFrame s t := ChsFrame.trans (t := afterAppends s) rfl ht.chs
  have e1 : t.bodyStart = (chsHead s).length + 8 := by rw [ht]; rfl
  have e2 : t.bodyLenOff = (chsHead s).length + 4 := by rw [ht]; rfl
  have e3 : t.formLenOff = 4 := by rw [ht]; rfl
  have hlen : t.out.length = (chsHead s).length + 8 + (chsRowBytes s).length := by
    rw [ho]
    simp [chsAppended, tagBody]
    omega
  have hbl : sinkTell t - t.bodyStart = (chsRowBytes s).length := by
    show t.wpos - _ = _
    rw [hw, hlen, e1]
    omega
  have hun : chsUnpatched s = t.out ++ padBytes (chsRowBytes s).length := by rw [ho]; rfl
  have hag : AgreesOutsideLengths s t.out := by
    have := (chsUnpatched_agrees s).take t.out.length
    rwa [hun, List.take_left'] at this
    rfl
  have hbe : ∀ n, (be32 n).length = 4 := fun _ => rfl
  have hol : t.out.length = (chsAppended s).length := by rw [ho]
  let t1 : State := { t with phase := .bodyFix, bodyLen := (chsRowBytes s).length }
  have hf1 : ChsFrame s t1 := by
    refine hfr.trans ?_
    rfl
  have hfix : chsBodyFix t = patchLength ctxBodyFix ((chsHead s).length + 4) (chsRowBytes s).length t1 := by
    simp only [chsBodyFix]
    rw [hbl]
    exact congrArg (fun o => patchLength ctxBodyFix o (chsRowBytes s).length t1) e2
  simp only [chsTail, hfix]
  rcases patchLength_cases ctxBodyFix (off := (chsHead s).length + 4) (len := (chsRowBytes s).length) (s := t1)
      (by show _ ≤ t.out.length; omega) with ⟨hl, h⟩ | ⟨hl, hy6, h⟩ | ⟨hl, k, hk, hn, h⟩
  · rw [h]
    exact .inr (sinkFault_overflow hf1 hag hw (.inl ⟨hl, rfl, rfl, ho⟩))
  · rw [h]
    simp only [andThen_go, chsBodyPad]
    let t2 : State := { t1 with
      out := overwrite t.out ((chsHead s).length + 4) (be32 (chsRowBytes s).length), wpos := t.out.length
      oracle := t.oracle.drop 6 }
    have ha2 : AgreesOutsideLengths s t2.out := hag.patched (.inr rfl) _ (by simp [hbe])
    have hw2 : t2.wpos = t2.out.length := by simp [t2]
    have hl2 : t2.out.length = (chsAppended s).length := by simp [t2, hol]
    have hf2 : ChsFrame s t2 := hf1.trans rfl
    have hor2 : t2.oracle = s.oracle.drop ((chsAppended s).length + 6) := by
      show t.oracle.drop 6 = _
      rw [hor, List.drop_drop]
    have hyes2 : answersYes ((chsAppended s).length + 6) s.oracle :=
      answersYes_add.mpr ⟨hyes, by rw [← hor]; exact hy6⟩
    have hpatch : chsBodyFixed s = t2.out ++ padBytes (chsRowBytes s).length := by
      have hpre : (chsHead s ++ tagBody).length = (chsHead s).length + 4 := by simp [tagBody]
      have h1 := overwrite_middle (chsHead s ++ tagBody) [0, 0, 0, 0] (chsRowBytes s) (be32 (chsRowBytes s).length) rfl
      have h2 := overwrite_middle (chsHead s ++ tagBody) [0, 0, 0, 0]
        (chsRowBytes s ++ padBytes (chsRowBytes s).length) (be32 (chsRowBytes s).length) rfl
      rw [hpre] at h1 h2
      have ho' : t.out = chsHead s ++ tagBody ++ [0, 0, 0, 0] ++ chsRowBytes s := by rw [ho]; simp [chsAppended]
      have hu' : chsUnpatched s = chsHead s ++ tagBody ++ [0, 0, 0, 0] ++
          (chsRowBytes s ++ padBytes (chsRowBytes s).length) := by rw [hun, ho']; simp
      rw [chsBodyFixed, hu', h2]
      show _ = overwrite t.out _ _ ++ _
      rw [ho', h1]
      simp
    change SinkDone s ((appendAll ctxBodyFix (padBytes (chsRowBytes s).length) t2).andThen _) ∨
      SinkFault s ((appendAll ctxBodyFix (padBytes (chsRowBytes s).length) t2).andThen _)
    rcases (appendAll_appended ctxBodyFix (padBytes (chsRowBytes s).length) hw2).2 with
      ⟨t3, h3, hf3, ho3, hw3, hy3, hor3⟩ | ⟨k, ctx, u, hk, hctx, hn3, h3, hf3, ho3, hw3, hor3⟩
    · rw [h3]
      rw [andThen_go]
      have hl3 : t3.out.length = (chsUnpatched s).length := by rw [ho3, ← hpatch]; simp [chsBodyFixed]
      have e4 : sinkTell t3 = (chsUnpatched s).length := by rw [← hl3]; exact hw3
      have e5 : t3.formLenOff = 4 := by rw [hf3]; exact e3
      have e6 : t3.bodyLen = (chsRowBytes s).length := by rw [hf3]
      have hor3' : t3.oracle = s.oracle.drop ((chsAppended s).length + 6 + (padBytes (chsRowBytes s).length).length) := by
        rw [hor3, hor2, List.drop_drop]
      have hyes3 : answersYes ((chsAppended s).length + 6 + (padBytes (chsRowBytes s).length).length) s.oracle :=
        answersYes_add.mpr ⟨hyes2, by rwa [← hor2]⟩
      have ho3' : t3.out = chsBodyFixed s := by rw [ho3, hpatch]
      have ha3 : AgreesOutsideLengths s t3.out := by
        rw [ho3', chsBodyFixed]
        exact (chsUnpatched_agrees s).patched (.inr rfl) _ (by simp [hbe])
      let t4 : State := { t3 with phase := .formFix, fileLen := (chsUnpatched s).length }
      have hf4 : ChsFrame s t4 := (hf2.trans hf3.chs).trans rfl
      have hfix : chsFormFix t3 = patchLength ctxFormFix 4 ((chsUnpatched s).length - 8) t4 := by
        simp only [chsFormFix]
        rw [e4]
        exact congrArg (fun o => patchLength ctxFormFix o ((chsUnpatched s).length - 8) t4) e5
      rw [hfix]
      rcases patchLength_cases ctxFormFix (off := 4) (len := (chsUnpatched s).length - 8) (s := t4)
          (by show _ ≤ t3.out.length; rw [ho3]; simp [t2]; omega) with ⟨hl4, h4⟩ | ⟨hl4, hy4, h4⟩ | ⟨hl4, k, hk, hn4, h4⟩
      · rw [h4]
        exact .inr (sinkFault_overflow hf4 ha3 hw3 (.inr ⟨hl, hl4, rfl, rfl, ho3'⟩))
      · rw [h4]
        refine .inl ⟨_, rfl, ?_, rfl, by simp [t4], e6, hl, hl4, ?_, ?_, ?_⟩
        · show overwrite t3.out 4 _ = _
          rw [ho3', chsFile, chsBodyFixed]
        · refine hf4.trans ?_
          have : t4.sinkOpen = s.sinkOpen := by rw [hf4]
          simp only [ChsFrame, chsClose, sinkClose]
          rw [← this]
        · rw [operations_length hc]
          exact answersYes_add.mpr ⟨hyes3, by rw [← hor3']; exact hy4⟩
        · rw [operations_length hc]
          show t3.oracle.drop 6 = _
          rw [hor3', List.drop_drop]
      · rw [h4]
        refine .inr (sinkFault_io (hf4.trans rfl) (ha3.patched (.inl rfl) _ (by simp [hbe])) (by simp [t4])
          (firstNo_add hyes3 (k := k) (by rw [← hor3']; exact hn4)) ?_ ?_)
        · have : (overwrite t3.out 4 (List.take (k - 1) (be32 ((chsUnpatched s).length - 8)))).length =
            (chsUnpatched s).length := by simp [hl3]
          rw [operation_formFix hc hk]
          simp [t4, hl3]
        · show t3.oracle.drop (k + 1) = _
          rw [hor3', List.drop_drop]
          rfl
    · rw [h3]
      have hk0 : k = 0 := by
        have := padBytes_length (chsRowBytes s).length
        omega
      subst hk0
      have hctx' : ctx = ctxBodyFix := by
        have := List.getElem?_replicate (n := (padBytes (chsRowBytes s).length).length) (a := ctxBodyFix) (i := 0)
        rw [this, if_pos hk] at hctx
        exact (Option.some.inj hctx).symm
      subst hctx'
      refine .inr (sinkFault_io (hf2.trans hf3) ?_ hw3 (firstNo_add hyes2 (k := 0) (by rw [← hor2]; exact hn3)) ?_ ?_)
      · rw [ho3, List.take_zero, List.append_nil]
        exact ha2
      · have := operation_bodyFix hc (k := 6) (by omega)
        rw [Nat.add_assoc, this, ho3, List.take_zero, List.append_nil, hl2]
      · rw [hor3, hor2, List.drop_drop]
  · rw [h]
    refine .inr (sinkFault_io (hf1.trans rfl) (hag.patched (.inr rfl) _ (by simp [hbe])) (by simp [t1])
      (firstNo_add hyes (k := k) (by rw [← hor]; exact hn)) ?_ ?_)
    · rw [operation_bodyFix hc (by omega)]
      simp [t1, hol]
    · show t.oracle.drop (k + 1) = _
      rw [hor, List.drop_drop]
      rfl

/-- The sequence from the opened sink on, where every PAL entry and every PLN byte it reads holds a value. -/
theorem chsRest_cases {s : State} (ho : s.out = []) (hw : s.wpos = 0) (hp : paletteReady s)
    (hpln : ∀ y < s.height.toNat, ∀ p < s.nplanes.toNat, ∀ b < s.rowbytes.toNat, (plnRead s.pln p y b).isSome = true) :
    SinkDone s ((chsAppends s).andThen chsTail) ∨ SinkFault s ((chsAppends s).andThen chsTail) := by
  obtain ⟨hc, ⟨t, h1, h2, h3, h4, h5, h6⟩ | ⟨k, ctx, u, h0, hctx, hn, h2, h4, h5, h6, h7⟩⟩ :=
    chsAppends_appended ho hw hp hpln
  · rw [h1, andThen_go]
    exact chsTail_cases ⟨h2, by rw [h3, ho, List.nil_append], h4, hc, h5, h6⟩
  · rw [h2, andThen_raised]
    rw [ho, List.nil_append] at h5
    refine .inr (sinkFault_io h4 ?_ h6 hn ?_ h7)
    · have := (chsUnpatched_agrees s).take k
      rw [chsUnpatched_eq, List.take_append_of_le_length (by omega)] at this
      rwa [h5]
    · rw [operation_append hctx, h5, List.length_take, Nat.min_eq_left (by omega)]

end Sys2Proof.Machine
end

