-- ==== Sys2Proof/Laws/Memory.lean ====
section
/-! SUPPORT. The laws of memories: read after write, canonical form, keys; the bitmap's zero fill and its bit writes. -/

namespace Sys2Proof.Machine

variable {α : Type}

/-! ## Read after write -/

theorem memRead_memWrite_same (m : Memory α) (a : Nat) (v : α) : memRead (memWrite m a v) a = some v := by
  induction m with
  | nil => simp [memWrite, memRead]
  | cons e m ih =>
    obtain ⟨k, w⟩ := e
    simp only [memWrite]
    split
    · simp [memRead]
    · split
      · simp [memRead]
      · rename_i h1 h2
        have : k ≠ a := fun h => h2 h.symm
        simp [memRead, this, ih]

theorem memRead_memWrite_other (m : Memory α) {a b : Nat} (v : α) (h : b ≠ a) :
    memRead (memWrite m a v) b = memRead m b := by
  induction m with
  | nil => simp [memWrite, memRead, h.symm]
  | cons e m ih =>
    obtain ⟨k, w⟩ := e
    simp only [memWrite]
    split
    · simp [memRead, h.symm]
    · split
      · rename_i h2
        subst h2
        simp [memRead, h.symm]
      · simp [memRead, ih]

theorem memRead_memWrite (m : Memory α) (a b : Nat) (v : α) :
    memRead (memWrite m a v) b = if b = a then some v else memRead m b := by
  split
  · rename_i h
    subst h
    exact memRead_memWrite_same m b v
  · rename_i h
    exact memRead_memWrite_other m v h

/-- What a block write leaves at every key. -/
theorem memRead_memWriteList (vs : List α) (m : Memory α) (a k : Nat) :
    memRead (memWriteList m a vs) k = if a ≤ k ∧ k < a + vs.length then vs[k - a]? else memRead m k := by
  induction vs generalizing m a with
  | nil =>
    have : ¬ (a ≤ k ∧ k < a) := by omega
    simp [memWriteList, this]
  | cons v vs ih =>
    simp only [memWriteList, ih, memRead_memWrite, List.length_cons]
    by_cases hk : k = a
    · subst hk
      simp
    · by_cases h1 : a + 1 ≤ k ∧ k < a + 1 + vs.length
      · have h2 : a ≤ k ∧ k < a + (vs.length + 1) := by omega
        have h3 : k - a = (k - (a + 1)) + 1 := by omega
        simp only [h1, h2, and_self, if_true, h3]
        simp
      · have h2 : ¬ (a ≤ k ∧ k < a + (vs.length + 1)) := by omega
        rw [if_neg h1, if_neg h2, if_neg hk]

theorem memReadList_some {m : Memory α} {n a : Nat} {vs : List α} (h : memReadList m a n = some vs) :
    vs.length = n ∧ ∀ i < n, memRead m (a + i) = vs[i]? := by
  induction n generalizing a vs with
  | zero => simp_all [memReadList]
  | succ n ih =>
    simp only [memReadList] at h
    split at h
    · rename_i v ws h1 h2
      obtain rfl := Option.some.inj h
      obtain ⟨hl, hr⟩ := ih h2
      refine ⟨by simp [hl], fun i hi => ?_⟩
      cases i with
      | zero => simpa using h1
      | succ i =>
        have := hr i (by omega)
        rw [show a + (i + 1) = a + 1 + i by omega]
        simpa using this
    · exact absurd h (by simp)

theorem memReadList_isSome {m : Memory α} {n a : Nat} (h : ∀ i < n, (memRead m (a + i)).isSome = true) :
    (memReadList m a n).isSome = true := by
  induction n generalizing a with
  | zero => simp [memReadList]
  | succ n ih =>
    have h0 := h 0 (by omega)
    have h1 : (memReadList m (a + 1) n).isSome = true :=
      ih fun i hi => by
        have := h (i + 1) (by omega)
        rwa [show a + (i + 1) = a + 1 + i by omega] at this
    obtain ⟨v, hv⟩ := Option.isSome_iff_exists.mp h0
    obtain ⟨vs, hvs⟩ := Option.isSome_iff_exists.mp h1
    simp only [Nat.add_zero] at hv
    simp [memReadList, hv, hvs]

/-! ## Canonical form and keys -/

theorem memWrite_key {m : Memory α} {a : Nat} {v : α} {e : Nat × α} (h : e ∈ memWrite m a v) : e = (a, v) ∨ e ∈ m := by
  induction m with
  | nil => simpa [memWrite] using h
  | cons f m ih =>
    obtain ⟨k, w⟩ := f
    simp only [memWrite] at h
    split at h
    · simpa using h
    · split at h
      · rcases List.mem_cons.mp h with h | h
        · exact .inl h
        · exact .inr (by simp [h])
      · rcases List.mem_cons.mp h with h | h
        · exact .inr (by simp [h])
        · rcases ih h with h | h
          · exact .inl h
          · exact .inr (by simp [h])

/-- A write keeps the canonical form. -/
theorem memWrite_wf {m : Memory α} (h : Memory.wf m) (a : Nat) (v : α) : Memory.wf (memWrite m a v) := by
  induction m with
  | nil => simp [memWrite, Memory.wf]
  | cons e m ih =>
    obtain ⟨k, w⟩ := e
    obtain ⟨h1, h2⟩ := List.pairwise_cons.mp h
    simp only [memWrite]
    split
    · rename_i hlt
      refine List.pairwise_cons.mpr ⟨fun f hf => ?_, h⟩
      rcases List.mem_cons.mp hf with rfl | hf
      · exact hlt
      · exact Nat.lt_trans hlt (h1 f hf)
    · rename_i hlt
      split
      · rename_i heq
        subst heq
        exact List.pairwise_cons.mpr ⟨h1, h2⟩
      · rename_i hne
        refine List.pairwise_cons.mpr ⟨fun f hf => ?_, ih h2⟩
        rcases memWrite_key hf with rfl | hf
        · simp only; omega
        · exact h1 f hf

theorem memWriteList_wf {m : Memory α} (h : Memory.wf m) (a : Nat) (vs : List α) : Memory.wf (memWriteList m a vs) := by
  induction vs generalizing m a with
  | nil => exact h
  | cons v vs ih => exact ih (memWrite_wf h a v) (a + 1)

theorem memWriteList_key {m : Memory α} {a : Nat} {vs : List α} {e : Nat × α} (h : e ∈ memWriteList m a vs) :
    (a ≤ e.1 ∧ e.1 < a + vs.length) ∨ e ∈ m := by
  induction vs generalizing m a with
  | nil => exact .inr h
  | cons v vs ih =>
    simp only [List.length_cons]
    rcases ih h with h | h
    · exact .inl (by omega)
    · rcases memWrite_key h with rfl | h
      · exact .inl (by simp)
      · exact .inr h

/-- In canonical form a listed entry is what its key reads as. -/
theorem memRead_of_mem {m : Memory α} (h : Memory.wf m) {e : Nat × α} (he : e ∈ m) : memRead m e.1 = some e.2 := by
  induction m with
  | nil => simp at he
  | cons f m ih =>
    obtain ⟨k, w⟩ := f
    obtain ⟨h1, h2⟩ := List.pairwise_cons.mp h
    rcases List.mem_cons.mp he with rfl | he
    · simp [memRead]
    · have := h1 e he
      simp only at this
      simp [memRead, show k ≠ e.1 by omega, ih h2 he]

theorem mem_of_memRead {m : Memory α} {a : Nat} {v : α} (h : memRead m a = some v) : (a, v) ∈ m := by
  induction m with
  | nil => simp [memRead] at h
  | cons f m ih =>
    obtain ⟨k, w⟩ := f
    simp only [memRead] at h
    split at h
    · rename_i hk
      subst hk
      obtain rfl := Option.some.inj h
      simp
    · exact List.mem_cons_of_mem _ (ih h)

/-! ## The bitmap -/

/-- The triples of the largest bitmap have keys of their own. -/
theorem plnKey_inj {p y b p' y' b' : Nat} (hy : y < 2 ^ 16) (hb : b < 2 ^ 13) (hy' : y' < 2 ^ 16) (hb' : b' < 2 ^ 13)
    (h : plnKey p y b = plnKey p' y' b') : p = p' ∧ y = y' ∧ b = b' := by
  simp only [plnKey] at h
  omega

theorem plnOr_wf {m : Memory Byte} (h : Memory.wf m) (p y b : Nat) (mask : Byte) : Memory.wf (plnOr m p y b mask) := by
  simp only [plnOr]
  split
  · exact h
  · exact memWrite_wf h _ _

/-- What one bit write leaves at every triple. -/
theorem plnRead_plnOr (m : Memory Byte) (p y b p' y' b' : Nat) (mask : Byte) :
    plnRead (plnOr m p y b mask) p' y' b' =
      if p' = p ∧ y' = y ∧ b' = b then (plnRead m p y b).map (· ||| mask) else plnRead m p' y' b' := by
  simp only [plnOr]
  cases hr : plnRead m p y b with
  | none =>
    simp only [Option.map_none]
    split
    · rename_i h
      obtain ⟨rfl, rfl, rfl⟩ := h
      exact hr
    · rfl
  | some v =>
    have hin : p < 2 ^ 3 ∧ y < 2 ^ 16 ∧ b < 2 ^ 13 := by
      simp only [plnRead] at hr
      split at hr
      · assumption
      · exact absurd hr (by simp)
    simp only [Option.map_some]
    by_cases h' : p' < 2 ^ 3 ∧ y' < 2 ^ 16 ∧ b' < 2 ^ 13
    · simp only [plnRead, h', and_self, if_true, memRead_memWrite]
      by_cases heq : p' = p ∧ y' = y ∧ b' = b
      · obtain ⟨rfl, rfl, rfl⟩ := heq
        simp
      · have : ¬ plnKey p' y' b' = plnKey p y b := fun hk =>
          heq (plnKey_inj h'.2.1 h'.2.2 hin.2.1 hin.2.2 hk)
        simp [heq, this]
    · have : ¬ (p' = p ∧ y' = y ∧ b' = b) := by
        rintro ⟨rfl, rfl, rfl⟩
        exact h' hin
      rw [if_neg this]
      simp only [plnRead, if_neg h']

theorem mem_plnZero {n h rb : Nat} {e : Nat × Byte} :
    e ∈ plnZero n h rb ↔ ∃ p < n, ∃ y < h, ∃ b < rb, e = (plnKey p y b, 0x00) := by
  simp only [plnZero, List.mem_flatMap, List.mem_map, List.mem_range]
  constructor
  · rintro ⟨p, hp, y, hy, b, hb, rfl⟩
    exact ⟨p, hp, y, hy, b, hb, rfl⟩
  · rintro ⟨p, hp, y, hy, b, hb, rfl⟩
    exact ⟨p, hp, y, hy, b, hb, rfl⟩

/-- The zero fill is in canonical form for every bitmap of legal dimensions. -/
theorem plnZero_wf {n h rb : Nat} (hh : h ≤ 2 ^ 16) (hb : rb ≤ 2 ^ 13) : Memory.wf (plnZero n h rb) := by
  have hlt : ∀ k : Nat, (List.range k).Pairwise (· < ·) := fun k => List.pairwise_lt_range
  refine List.pairwise_flatMap.mpr ⟨fun p _ => ?_, (hlt n).imp fun {p q} hpq => ?_⟩
  · refine List.pairwise_flatMap.mpr ⟨fun y _ => ?_, (hlt h).imp_of_mem fun {y z} _ hz hyz => ?_⟩
    · exact List.pairwise_map.mpr ((hlt rb).imp fun {b c} hbc => by simp only [plnKey]; omega)
    · intro e he f hf
      obtain ⟨b, hb1, rfl⟩ := List.mem_map.mp he
      obtain ⟨c, hc1, rfl⟩ := List.mem_map.mp hf
      have := List.mem_range.mp hb1
      simp only [plnKey]
      omega
  · intro e he f hf
    obtain ⟨y, hy, he⟩ := List.mem_flatMap.mp he
    obtain ⟨z, hz, hf⟩ := List.mem_flatMap.mp hf
    obtain ⟨b, hb1, rfl⟩ := List.mem_map.mp he
    obtain ⟨c, hc1, rfl⟩ := List.mem_map.mp hf
    have := List.mem_range.mp hb1
    have := List.mem_range.mp hy
    simp only [plnKey]
    omega

/-- The zero fill reads 0x00 inside the bitmap and has no value outside it. -/
theorem plnRead_plnZero {n h rb : Nat} (hn : n ≤ 8) (hh : h ≤ 2 ^ 16) (hb : rb ≤ 2 ^ 13) (p y b : Nat) :
    plnRead (plnZero n h rb) p y b = if p < n ∧ y < h ∧ b < rb then some 0x00 else none := by
  by_cases hin : p < 2 ^ 3 ∧ y < 2 ^ 16 ∧ b < 2 ^ 13
  · simp only [plnRead, hin, and_self, if_true]
    split
    · rename_i h3
      exact memRead_of_mem (plnZero_wf hh hb) (e := (plnKey p y b, 0x00))
        (mem_plnZero.mpr ⟨p, h3.1, y, h3.2.1, b, h3.2.2, rfl⟩)
    · rename_i h3
      cases hr : memRead (plnZero n h rb) (plnKey p y b) with
      | none => rfl
      | some v =>
        obtain ⟨p', hp', y', hy', b', hb', he⟩ := mem_plnZero.mp (mem_of_memRead hr)
        obtain ⟨rfl, rfl, rfl⟩ := plnKey_inj hin.2.1 hin.2.2 (by omega) (by omega) (Prod.mk.inj he).1
        exact absurd ⟨hp', hy', hb'⟩ h3
  · have : ¬ (p < n ∧ y < h ∧ b < rb) := by omega
    rw [if_neg this]
    simp only [plnRead, if_neg hin]

/-! ## Keys inside the largest raster and bitmap -/

theorem pixKey_lt {x y : Nat} (hx : x < 2 ^ 16) (hy : y < 2 ^ 16) : pixKey x y < 2 ^ 32 := by
  simp only [pixKey]
  omega

theorem plnKey_lt {p y b : Nat} (hp : p < 2 ^ 3) (hy : y < 2 ^ 16) (hb : b < 2 ^ 13) : plnKey p y b < 2 ^ 32 := by
  simp only [plnKey]
  omega

theorem plnZero_inside {n h rb : Nat} (hn : n ≤ 8) (hh : h ≤ 2 ^ 16) (hb : rb ≤ 2 ^ 13) :
    ∀ e ∈ plnZero n h rb, e.1 < 2 ^ 32 := by
  intro e he
  obtain ⟨p, hp, y, hy, b, hb', rfl⟩ := mem_plnZero.mp he
  exact plnKey_lt (by omega) (by omega) (by omega)

theorem plnOr_inside {m : Memory Byte} (h : ∀ e ∈ m, e.1 < 2 ^ 32) (p y b : Nat) (mask : Byte) :
    ∀ e ∈ plnOr m p y b mask, e.1 < 2 ^ 32 := by
  intro e he
  simp only [plnOr] at he
  cases hr : plnRead m p y b with
  | none => exact h e (by simpa [hr] using he)
  | some v =>
    simp only [hr] at he
    rcases memWrite_key he with rfl | he
    · by_cases hin : p < 2 ^ 3 ∧ y < 2 ^ 16 ∧ b < 2 ^ 13
      · exact plnKey_lt hin.1 hin.2.1 hin.2.2
      · rw [plnRead, if_neg hin] at hr
        cases hr
    · exact h e he

/-! ## PLN drawn anew -/

theorem memRead_map {β : Type} (m : Memory α) (f : Nat → α → β) (a : Nat) :
    memRead (m.map fun e => (e.1, f e.1 e.2)) a = (memRead m a).map (f a) := by
  induction m with
  | nil => rfl
  | cons e m ih =>
    simp only [List.map_cons, memRead, ih]
    split
    · rename_i h
      subst h
      rfl
    · rfl

theorem drawPln_wf {s : State} (h : Memory.wf s.pln) : Memory.wf (drawPln s).pln :=
  List.pairwise_map.mpr (h.imp fun h => h)

theorem drawPln_inside {s : State} (h : ∀ e ∈ s.pln, e.1 < 2 ^ 32) : ∀ e ∈ (drawPln s).pln, e.1 < 2 ^ 32 := by
  intro e he
  obtain ⟨e', he', rfl⟩ := List.mem_map.mp he
  exact h e' he'

/-- The same bytes of PLN hold a value. -/
theorem plnRead_drawPln (s : State) (p y b : Nat) :
    plnRead (drawPln s).pln p y b = (plnRead s.pln p y b).map fun _ => Config.freePlnByte s.freeTick (plnKey p y b) := by
  simp only [plnRead, drawPln]
  split
  · exact memRead_map s.pln (fun k _ => Config.freePlnByte s.freeTick k) (plnKey p y b)
  · rfl

end Sys2Proof.Machine
end

