-- ==== Sys2Proof/Laws/Pixels.lean ====
section
/-! SUPPORT. BPE and HAME: what one pixel and one row leave in the planes, said through the bytes `planeByte` computes. -/

namespace Sys2Proof.Machine

/-! ## Plane bytes -/

theorem columnMask_getLsbD (x i : Nat) : (columnMask x).getLsbD i = decide (i = 7 - x % 8) := by
  have h : ∀ r : Nat, r < 8 → ∀ j : Nat, j < 8 → ((0x80 : Byte) >>> r).getLsbD j = decide (j = 7 - r) := by decide
  simp only [columnMask]
  rcases Nat.lt_or_ge i 8 with hi | hi
  · exact h (x % 8) (Nat.mod_lt _ (by omega)) i hi
  · rw [BitVec.getLsbD_of_ge _ _ hi, eq_comm, decide_eq_false_iff_not]
    omega

/-- Bit `i` of a plane byte is the plane's bit of the value of column `8 b + (7 - i)` (20 R66). -/
theorem planeByte_getLsbD (codes : List Byte) (p b i : Nat) :
    (planeByte codes p b).getLsbD i = (decide (i < 8) && (codes.getD (8 * b + (7 - i)) 0).getLsbD p) := by
  have key : ∀ n, n ≤ 8 → ∀ i,
      ((List.range n).foldl
        (fun acc j => acc ||| if (codes.getD (8 * b + j) 0).getLsbD p then columnMask j else 0) (0 : Byte)).getLsbD i =
      (decide (i < 8 ∧ 7 - i < n) && (codes.getD (8 * b + (7 - i)) 0).getLsbD p) := by
    intro n
    induction n with
    | zero => simp
    | succ n ih =>
      intro hn i
      rw [List.range_succ, List.foldl_append, List.foldl_cons, List.foldl_nil, BitVec.getLsbD_or, ih (by omega)]
      by_cases hi : i < 8
      · by_cases h1 : 7 - i = n
        · have h2 : i = 7 - n % 8 := by omega
          have h3 : 8 * b + (7 - i) = 8 * b + n := by omega
          rw [h3]
          cases hc : (codes.getD (8 * b + n) 0).getLsbD p
          · simp
          · have h4 : 7 - i < n + 1 := by omega
            simp [columnMask_getLsbD, hi, h2.symm, h4]
        · have h2 : ¬ i = 7 - n % 8 := by omega
          have h3 : (7 - i < n + 1) ↔ 7 - i < n := by omega
          split <;> simp [columnMask_getLsbD, h2, h3]
      · split <;> (simp [columnMask_getLsbD, hi]; try omega)
  have := key 8 (Nat.le_refl _) i
  simp only [planeByte]
  rw [this]
  congr 1
  simp only [decide_eq_decide]
  omega

/-- One more column ORs its mask into its byte. -/
theorem planeByte_concat (codes : List Byte) (c : Byte) (p b : Nat) :
    planeByte (codes ++ [c]) p b =
      planeByte codes p b |||
        (if b = codes.length / 8 ∧ c.getLsbD p = true then columnMask codes.length else 0) := by
  apply BitVec.eq_of_getLsbD_eq
  intro i hi
  rw [BitVec.getLsbD_or, planeByte_getLsbD, planeByte_getLsbD]
  simp only [hi, decide_true, Bool.true_and]
  rcases Nat.lt_trichotomy (8 * b + (7 - i)) codes.length with h | h | h
  · rw [List.getD_append _ _ _ _ h]
    have : ¬ (b = codes.length / 8 ∧ i = 7 - codes.length % 8) := by omega
    split
    · rename_i hb
      have : ¬ i = 7 - codes.length % 8 := fun hh => this ⟨hb.1, hh⟩
      simp [columnMask_getLsbD, this]
    · simp
  · rw [List.getD_append_right _ _ _ _ (by omega), h, Nat.sub_self, List.getD_cons_zero, List.getD_eq_default _ _ (Nat.le_refl _)]
    have h1 : b = codes.length / 8 := by omega
    have h2 : i = 7 - codes.length % 8 := by omega
    cases hc : c.getLsbD p <;> simp [columnMask_getLsbD, ← h1, h2]
  · rw [List.getD_eq_default _ _ (by simp; omega), List.getD_eq_default _ _ (by omega)]
    have : ¬ (b = codes.length / 8 ∧ i = 7 - codes.length % 8) := by omega
    split
    · rename_i hb
      have : ¬ i = 7 - codes.length % 8 := fun hh => this ⟨hb.1, hh⟩
      simp [columnMask_getLsbD, this]
    · simp

@[simp] theorem planeByte_nil (p b : Nat) : planeByte [] p b = 0 := by
  apply BitVec.eq_of_getLsbD_eq
  intro i _
  simp [planeByte_getLsbD]

/-! ## One pixel -/

/-- The bits of a value change nothing but the plane cursor and the planes. -/
theorem distribute_eq (v : Byte) (n : Nat) (s : State) :
    distribute v n s = { s with p := (distribute v n s).p, pln := (distribute v n s).pln } := by
  simp only [distribute]
  induction n with
  | zero => rfl
  | succ n ih =>
    simp only [List.range_succ, List.foldl_append, List.foldl_cons, List.foldl_nil]
    rw [ih]
    rfl

/-- What one pixel leaves at every triple. -/
theorem plnRead_distribute (v : Byte) (n : Nat) (s : State) (p y b : Nat) :
    plnRead (distribute v n s).pln p y b =
      if p < n ∧ v.getLsbD p = true ∧ y = s.y.toNat ∧ b = s.x.toNat / 8 then
        (plnRead s.pln p y b).map (· ||| columnMask s.x.toNat)
      else plnRead s.pln p y b := by
  induction n generalizing p y b with
  | zero => simp [distribute]
  | succ n ih =>
    have hd : distribute v (n + 1) s = distributeBit v n (distribute v n s) := by
      simp only [distribute, List.range_succ, List.foldl_append, List.foldl_cons, List.foldl_nil]
    have hx : (distribute v n s).x = s.x := by rw [distribute_eq]
    have hy : (distribute v n s).y = s.y := by rw [distribute_eq]
    rw [hd]
    simp only [distributeBit, hx, hy]
    by_cases hv : v.getLsbD n = true
    · rw [if_pos hv, plnRead_plnOr, ih, ih]
      by_cases hp : p = n
      · subst hp
        by_cases hyb : y = s.y.toNat ∧ b = s.x.toNat / 8
        · simp [hyb, hv]
        · have : ¬ (y = s.y.toNat ∧ b = s.x.toNat / 8) := hyb
          simp [hyb, hv]
      · have h1 : (p < n + 1) ↔ p < n := by omega
        simp [hp, h1]
    · rw [if_neg hv, ih]
      by_cases hp : p = n
      · subst hp
        simp [hv]
      · have h1 : (p < n + 1) ↔ p < n := by omega
        simp [h1]

/-- PLN in its canonical form, with no byte outside the largest bitmap (20 R60). -/
def PlnWithin (m : Memory Byte) : Prop := Memory.wf m ∧ ∀ e ∈ m, e.1 < 2 ^ 32

theorem PlnWithin.plnOr {m : Memory Byte} (h : PlnWithin m) {p y b : Nat} {mask : Byte} :
    PlnWithin (plnOr m p y b mask) :=
  ⟨plnOr_wf h.1 _ _ _ _, plnOr_inside h.2 _ _ _ _⟩

theorem plnZero_within {n h rb : Nat} (hn : n ≤ 8) (hh : h ≤ 2 ^ 16) (hb : rb ≤ 2 ^ 13) :
    PlnWithin (plnZero n h rb) :=
  ⟨plnZero_wf hh hb, plnZero_inside hn hh hb⟩

theorem distribute_within (v : Byte) (n : Nat) {s : State} (h : PlnWithin s.pln) : PlnWithin (distribute v n s).pln := by
  simp only [distribute]
  induction n with
  | zero => exact h
  | succ n ih =>
    simp only [List.range_succ, List.foldl_append, List.foldl_cons, List.foldl_nil, distributeBit]
    split
    · exact ih.plnOr
    · exact ih

/-! ## One row -/

/-- The state inside row `y` after the columns of `codes`: what may have changed since `s`, and what each byte of the
first `n` planes of the row holds. -/
structure RowDone (s : State) (n y : Nat) (codes : List Byte) (t : State) : Prop where
  rest : t = { s with y := BitVec.ofNat 16 y, x := t.x, p := t.p, hr := t.hr, hg := t.hg, hb := t.hb, pln := t.pln }
  bytes : ∀ p y' b, plnRead t.pln p y' b =
    if p < n ∧ y' = y then (plnRead s.pln p y' b).map (· ||| planeByte codes p b) else plnRead s.pln p y' b

theorem RowDone.pix {s t : State} {n y : Nat} {codes : List Byte} (h : RowDone s n y codes t) : t.pix = s.pix := by
  rw [h.rest]

theorem RowDone.y {s t : State} {n y : Nat} {codes : List Byte} (h : RowDone s n y codes t) :
    t.y = BitVec.ofNat 16 y := by
  rw [h.rest]

/-- The next column of a row. -/
theorem RowDone.pixel {s t u : State} {n y : Nat} {codes : List Byte} (h : RowDone s n y codes t) (hy : y < 2 ^ 16)
    (hx : codes.length < 2 ^ 16) (c : Byte)
    (hu : u = { t with x := BitVec.ofNat 16 codes.length, hr := u.hr, hg := u.hg, hb := u.hb }) :
    RowDone s n y (codes ++ [c]) (distribute c n u) := by
  have hux : u.x.toNat = codes.length := by rw [hu]; simp; omega
  have huy : u.y.toNat = y := by rw [hu]; simp [h.y]; omega
  have hup : u.pln = t.pln := by rw [hu]
  refine ⟨?_, fun p y' b => ?_⟩
  · rw [distribute_eq, hu, h.rest]
  · rw [plnRead_distribute, hux, huy, hup, h.bytes, planeByte_concat]
    by_cases hp : p < n ∧ y' = y
    · obtain ⟨hp1, rfl⟩ := hp
      by_cases hc : b = codes.length / 8 ∧ c.getLsbD p = true
      · obtain ⟨rfl, hc⟩ := hc
        simp only [hp1, hc, and_self, if_true, Option.map_map]
        congr 1
        funext z
        simp [BitVec.or_assoc]
      · rw [if_neg (by rintro ⟨_, h2, _, h4⟩; exact hc ⟨h4, h2⟩), if_neg hc]
        simp [hp1]
    · rw [if_neg (by rintro ⟨h1, _, h3, _⟩; exact hp ⟨h1, h3⟩), if_neg hp, if_neg hp]

/-- A row begins with no column done. -/
theorem RowDone.start {s t : State} {n y : Nat}
    (ht : t = { s with y := BitVec.ofNat 16 y, hr := t.hr, hg := t.hg, hb := t.hb }) : RowDone s n y [] t := by
  have hp : t.pln = s.pln := by rw [ht]
  refine ⟨by rw [ht], fun p y' b => ?_⟩
  simp only [hp, planeByte_nil]
  split
  · cases plnRead s.pln p y' b <;> simp
  · rfl

/-- A row of an indexed raster whose pixels all hold indices (41 R142). -/
theorem bpeRow_goes {s : State} {y : Nat} (hy : y < 2 ^ 16) (hw : s.width.toNat < 2 ^ 16)
    (hpix : ∀ x < s.width.toNat, ∃ v, pixRead s x y = some (.index v)) :
    ∃ t, bpeRow y s = .go t ∧
      RowDone s s.nplanes.toNat y ((List.range s.width.toNat).map fun x => indexAt s x y) t := by
  refine forEach_range_goes (P := fun j t => RowDone s s.nplanes.toNat y ((List.range j).map fun x => indexAt s x y) t)
    s.width.toNat (RowDone.start rfl) fun j hj t ht => ?_
  obtain ⟨v, hv⟩ := hpix j hj
  have hyt : t.y.toNat = y := by rw [ht.y]; simp; omega
  have hnt : t.nplanes = s.nplanes := by rw [ht.rest]
  have hr : pixRead t j t.y.toNat = some (.index v) := by rw [hyt, pixRead, ht.pix]; exact hv
  have hi : indexAt s j y = v := by simp [indexAt, hv]
  refine ⟨distribute v t.nplanes.toNat { t with x := BitVec.ofNat 16 j }, by simp only [bpePixel, hr], ?_⟩
  have hl : ((List.range j).map fun x => indexAt s x y).length = j := by simp
  rw [List.range_succ, List.map_append, List.map_cons, List.map_nil, hi]
  rw [← hnt] at ht ⊢
  exact ht.pixel hy (by omega) v (by rw [hl])

/-- The accumulator after the pixels of a row (42 R155 to R157). -/
def hamAfter : BitVec 4 → BitVec 4 → BitVec 4 → List Rgb → BitVec 4 × BitVec 4 × BitVec 4
  | r, g, b, [] => (r, g, b)
  | r, g, b, c :: cs =>
    match selectChannel (absDiff (quantise c.r).toNat r.toNat) (absDiff (quantise c.g).toNat g.toNat)
        (absDiff (quantise c.b).toNat b.toNat) with
    | .red => hamAfter (quantise c.r) g b cs
    | .green => hamAfter r (quantise c.g) b cs
    | .blue => hamAfter r g (quantise c.b) cs

/-- The codes of a row are those of its left part, then those of its right part from the accumulator there. -/
theorem hamCodes_append (r g b : BitVec 4) (left right : List Rgb) :
    hamCodes r g b (left ++ right) =
      hamCodes r g b left ++
        hamCodes (hamAfter r g b left).1 (hamAfter r g b left).2.1 (hamAfter r g b left).2.2 right := by
  induction left generalizing r g b with
  | nil => rfl
  | cons c cs ih =>
    simp only [List.cons_append, hamCodes, hamAfter]
    cases selectChannel (absDiff (quantise c.r).toNat r.toNat) (absDiff (quantise c.g).toNat g.toNat)
      (absDiff (quantise c.b).toNat b.toNat) <;> simp [ih]

theorem hamAfter_append (r g b : BitVec 4) (left right : List Rgb) :
    hamAfter r g b (left ++ right) =
      hamAfter (hamAfter r g b left).1 (hamAfter r g b left).2.1 (hamAfter r g b left).2.2 right := by
  induction left generalizing r g b with
  | nil => rfl
  | cons c cs ih =>
    simp only [List.cons_append, hamAfter]
    cases selectChannel (absDiff (quantise c.r).toNat r.toNat) (absDiff (quantise c.g).toNat g.toNat)
      (absDiff (quantise c.b).toNat b.toNat) <;> simp [ih]

theorem hamCodes_length (r g b : BitVec 4) (cs : List Rgb) : (hamCodes r g b cs).length = cs.length := by
  induction cs generalizing r g b with
  | nil => rfl
  | cons c cs ih =>
    simp only [hamCodes]
    split <;> simp [ih]

/-- What one true-colour pixel does is its code, and the accumulator that code leaves. -/
theorem hamColour_eq (c : Rgb) (s : State) :
    ∃ code, hamCodes s.hr s.hg s.hb [c] = [code] ∧ hamColour c s =
      distribute code 6 { s with
        hr := (hamAfter s.hr s.hg s.hb [c]).1, hg := (hamAfter s.hr s.hg s.hb [c]).2.1
        hb := (hamAfter s.hr s.hg s.hb [c]).2.2 } := by
  simp only [hamColour, hamSelect, hamCodes, hamAfter]
  cases selectChannel (absDiff (quantise c.r).toNat s.hr.toNat) (absDiff (quantise c.g).toNat s.hg.toNat)
      (absDiff (quantise c.b).toNat s.hb.toNat) <;> exact ⟨_, rfl, rfl⟩

/-- A row of a true-colour raster whose pixels all hold colours, from the accumulator HAM_INIT (42 R159). -/
theorem hamRow_goes {s : State} {y : Nat} (hy : y < 2 ^ 16) (hw : s.width.toNat < 2 ^ 16)
    (hpix : ∀ x < s.width.toNat, ∃ c, pixRead s x y = some (.trueColor c)) :
    ∃ t, hamRow y s = .go t ∧
      RowDone s 6 y (hamCodes 0 0 0 ((List.range s.width.toNat).map fun x => colourAt s x y)) t := by
  let cs := fun j => (List.range j).map fun x => colourAt s x y
  suffices h : ∃ t, hamRow y s = .go t ∧ (RowDone s 6 y (hamCodes 0 0 0 (cs s.width.toNat)) t ∧
      (t.hr, t.hg, t.hb) = hamAfter 0 0 0 (cs s.width.toNat)) by
    obtain ⟨t, h1, h2, _⟩ := h
    exact ⟨t, h1, h2⟩
  refine forEach_range_goes
    (P := fun j t => RowDone s 6 y (hamCodes 0 0 0 (cs j)) t ∧ (t.hr, t.hg, t.hb) = hamAfter 0 0 0 (cs j))
    s.width.toNat ⟨RowDone.start rfl, rfl⟩ fun j hj t ht => ?_
  obtain ⟨ht, hacc⟩ := ht
  obtain ⟨c, hc⟩ := hpix j hj
  have hyt : t.y.toNat = y := by rw [ht.y]; simp; omega
  have hr : pixRead t j t.y.toNat = some (.trueColor c) := by rw [hyt, pixRead, ht.pix]; exact hc
  have hl : (hamCodes 0 0 0 (cs j)).length = j := by simp [hamCodes_length, cs]
  have hcs : cs (j + 1) = cs j ++ [c] := by
    simp only [cs, List.range_succ, List.map_append, List.map_cons, List.map_nil]
    simp [colourAt, hc]
  obtain ⟨code, h1, h2⟩ := hamColour_eq c { t with x := BitVec.ofNat 16 j }
  simp only at h1 h2
  have e1 : t.hr = (hamAfter 0 0 0 (cs j)).1 := congrArg Prod.fst hacc
  have e2 : t.hg = (hamAfter 0 0 0 (cs j)).2.1 := congrArg (fun z => z.2.1) hacc
  have e3 : t.hb = (hamAfter 0 0 0 (cs j)).2.2 := congrArg (fun z => z.2.2) hacc
  refine ⟨hamColour c { t with x := BitVec.ofNat 16 j }, by simp only [hamPixel, hr], ?_, ?_⟩
  · rw [hcs, hamCodes_append, ← e1, ← e2, ← e3, h1, h2]
    exact ht.pixel hy (by omega) code (by rw [hl])
  · rw [h2, distribute_eq, hcs, hamAfter_append, ← e1, ← e2, ← e3]

/-! ## The host's raster -/

@[simp] theorem extentWith_toNat (n : Word) (i : BitVec 16) : (extentWith n i).toNat = max n.toNat (i.toNat + 1) := by
  have := i.isLt
  simp only [extentWith]
  split
  · simp; omega
  · omega

theorem pixKey_inj {x y x' y' : BitVec 16} (h : pixKey x'.toNat y'.toNat = pixKey x.toNat y.toNat) : x' = x ∧ y' = y := by
  have h1 := x.isLt
  have h2 := x'.isLt
  simp only [pixKey] at h
  exact ⟨BitVec.eq_of_toNat_eq (by omega), BitVec.eq_of_toNat_eq (by omega)⟩

/-- Defining a pixel gives it its value and keeps every other pixel (20 R61). -/
theorem pixRead_pixelDefined (x y x' y' : BitVec 16) (v : Pixel) (s : State) :
    pixRead (pixelDefined x y v s) x'.toNat y'.toNat =
      if x' = x ∧ y' = y then some v else pixRead s x'.toNat y'.toNat := by
  simp only [pixRead, pixelDefined_pix, memRead_memWrite]
  by_cases h : x' = x ∧ y' = y
  · obtain ⟨rfl, rfl⟩ := h
    simp
  · rw [if_neg fun hk => h (pixKey_inj hk), if_neg h]

/-- The defined pixels stand inside the raster's dimensions, whichever pixel the host defines next. -/
theorem pixelDefined_inRaster {s : State}
    (h : ∀ e ∈ s.pix, e.1 % 2 ^ 16 < s.rasterWidth.toNat ∧ e.1 / 2 ^ 16 < s.rasterHeight.toNat) (x y : BitVec 16) (v : Pixel) :
    ∀ e ∈ (pixelDefined x y v s).pix, e.1 % 2 ^ 16 < (pixelDefined x y v s).rasterWidth.toNat ∧
      e.1 / 2 ^ 16 < (pixelDefined x y v s).rasterHeight.toNat := by
  intro e he
  simp only [pixelDefined_rasterWidth, pixelDefined_rasterHeight, extentWith_toNat]
  rcases memWrite_key he with hk | he
  · have := x.isLt
    simp only [hk, pixKey]
    omega
  · have := h e he
    omega

theorem rasterMatches_iff (s : State) : rasterMatches s = true ↔ s.rasterWidth = s.width ∧ s.rasterHeight = s.height := by
  simp [rasterMatches]

/-! ## Pixel encoding as a whole -/

/-- The refusals of a pixel that does not fit MODE. -/
def PixelRefusal (r : Refusal) : Prop := r = .noValuePixel ∨ r = .wrongPixelKind

/-- The refusal of a raster: its dimensions are looked at before its pixels (93 U8). -/
def RasterRefusal (s : State) (r : Refusal) : Prop :=
  (rasterMatches s = false ∧ r = .wrongRasterSize) ∨ (rasterMatches s = true ∧ PixelRefusal r)

theorem pixelFits_colour {s : State} {o : Option Pixel} (h : pixelFits s o = true) (hm : isHam s = true) :
    ∃ c, o = some (.trueColor c) := by
  cases o with
  | none => simp [pixelFits] at h
  | some v =>
    cases v with
    | index v => simp [pixelFits, hm] at h
    | trueColor c => exact ⟨c, rfl⟩

theorem pixelFits_index {s : State} {o : Option Pixel} (h : pixelFits s o = true) (hm : isHam s = false) :
    ∃ v, o = some (.index v) := by
  cases o with
  | none => simp [pixelFits] at h
  | some v =>
    cases v with
    | index v => exact ⟨v, rfl⟩
    | trueColor c => simp [pixelFits, hm] at h

/-- What pixel encoding may change (41 R141, R142; 42 R159). -/
def PixelFrame (s t : State) : Prop :=
  t = { s with x := t.x, y := t.y, p := t.p, hr := t.hr, hg := t.hg, hb := t.hb, pln := t.pln }

theorem PixelFrame.trans {s t u : State} (h1 : PixelFrame s t) (h2 : PixelFrame t u) : PixelFrame s u := by
  simp only [PixelFrame] at *
  rw [h2, h1]

theorem PixelFrame.pix {s t : State} (h : PixelFrame s t) : t.pix = s.pix := by rw [h]
theorem PixelFrame.width {s t : State} (h : PixelFrame s t) : t.width = s.width := by rw [h]
theorem PixelFrame.nplanes {s t : State} (h : PixelFrame s t) : t.nplanes = s.nplanes := by rw [h]
theorem PixelFrame.isHam {s t : State} (h : PixelFrame s t) : Machine.isHam t = Machine.isHam s := by rw [h]; rfl

/-- The bounds of 00 R6 on the derived values NPLANES and ROWBYTES. -/
def PlanesSized (s : State) : Prop := s.nplanes.toNat ≤ 8 ∧ s.rowbytes.toNat ≤ 8192

/-- A pixel of an indexed raster is written, or there is none that fits. -/
theorem bpePixel_cases (x : Nat) (s : State) :
    (∃ u, bpePixel x s = .go u ∧ PixelFrame s u ∧ u.y = s.y ∧ (PlnWithin s.pln → PlnWithin u.pln) ∧
      ∃ v, pixRead s x s.y.toNat = some (.index v)) ∨
    ∃ r, bpePixel x s = .refused r ∧ PixelRefusal r := by
  simp only [bpePixel]
  split
  · exact .inr ⟨_, rfl, .inl rfl⟩
  · exact .inr ⟨_, rfl, .inr rfl⟩
  · rename_i v hv
    refine .inl ⟨_, rfl, ?_, ?_, fun h => distribute_within _ _ h, v, hv⟩
    · rw [PixelFrame, distribute_eq]
    · rw [distribute_eq]

theorem hamPixel_cases (x : Nat) (s : State) :
    (∃ u, hamPixel x s = .go u ∧ PixelFrame s u ∧ u.y = s.y ∧ (PlnWithin s.pln → PlnWithin u.pln) ∧
      ∃ c, pixRead s x s.y.toNat = some (.trueColor c)) ∨
    ∃ r, hamPixel x s = .refused r ∧ PixelRefusal r := by
  simp only [hamPixel]
  split
  · exact .inr ⟨_, rfl, .inl rfl⟩
  · exact .inr ⟨_, rfl, .inr rfl⟩
  · rename_i c hc
    obtain ⟨code, _, he⟩ := hamColour_eq c { s with x := BitVec.ofNat 16 x }
    refine .inl ⟨_, rfl, ?_, ?_, fun h => ?_, c, hc⟩
    · rw [he, PixelFrame, distribute_eq]
    · rw [he, distribute_eq]
    · rw [he]
      exact distribute_within _ _ h

/-- A row of either kind: it is written and every pixel of it fits, or it is refused. -/
theorem pixelRow_cases {body : Nat → State → Flow} {fits : Option Pixel → Prop}
    (hbody : ∀ x s, (∃ u, body x s = .go u ∧ PixelFrame s u ∧ u.y = s.y ∧ (PlnWithin s.pln → PlnWithin u.pln) ∧
      fits (pixRead s x s.y.toNat)) ∨ ∃ r, body x s = .refused r ∧ PixelRefusal r)
    (n : Nat) (s : State) :
    (∃ u, forEach body (List.range n) s = .go u ∧ PixelFrame s u ∧ (PlnWithin s.pln → PlnWithin u.pln) ∧
      ∀ x < n, fits (pixRead s x s.y.toNat)) ∨
    ∃ r, forEach body (List.range n) s = .refused r ∧ PixelRefusal r := by
  rcases forEach_range_goes_or_refuses (body := body) (B := PixelRefusal)
      (P := fun j t => PixelFrame s t ∧ t.y = s.y ∧ (PlnWithin s.pln → PlnWithin t.pln) ∧
        ∀ x < j, fits (pixRead s x s.y.toNat)) n (s := s) ⟨rfl, rfl, id, by simp⟩ (fun j hj t ht => by
        obtain ⟨hf, hy, hw, hx⟩ := ht
        rcases hbody j t with ⟨u, hu, hf', hy', hw', hx'⟩ | h
        · refine .inl ⟨u, hu, hf.trans hf', by rw [hy', hy], fun h => hw' (hw h), fun x hxj => ?_⟩
          rcases Nat.lt_succ_iff_lt_or_eq.mp hxj with h | rfl
          · exact hx x h
          · rwa [pixRead, hf.pix, hy] at hx'
        · exact .inr h) with ⟨u, hu, hf, _, hw, hx⟩ | h
  · exact .inl ⟨u, hu, hf, hw, hx⟩
  · exact .inr h

/-- Pixel encoding changes nothing but cursors, accumulator, PHASE and PLN, never raises a fault, and is refused
where the raster's dimensions are not WIDTH and HEIGHT, else only where a pixel does not fit MODE (44 R205, R213; 93 U8). -/
theorem encodePixels_cases (s : State) (hh : s.height.toNat ≤ 65535) :
    (∃ t, encodePixels s = .go t ∧ PixelFrame { s with phase := .pixels } t ∧
      (PlanesSized s → PlnWithin t.pln) ∧ rasterReady s) ∨
    ∃ r, encodePixels s = .refused r ∧ RasterRefusal s r := by
  cases hsize : rasterMatches s with
  | false => exact .inr ⟨_, by simp only [encodePixels, hsize, if_true], .inl ⟨hsize, rfl⟩⟩
  | true =>
    have key : ∀ (fits : Option Pixel → Prop) (row : Nat → State → Flow) (pl : Memory Byte),
        (∀ o, fits o → pixelFits s o = true) →
        (PlanesSized s → PlnWithin pl) →
        (∀ y t, y < 65535 → t.width = s.width → (∃ u, row y t = .go u ∧ PixelFrame t u ∧ (PlnWithin t.pln → PlnWithin u.pln) ∧
          ∀ x < t.width.toNat, fits (pixRead t x y)) ∨ ∃ r, row y t = .refused r ∧ PixelRefusal r) →
        (∃ t, forEach row (List.range s.height.toNat) { s with phase := .pixels, pln := pl } = .go t ∧
          PixelFrame { s with phase := .pixels } t ∧ (PlanesSized s → PlnWithin t.pln) ∧ rasterReady s) ∨
        ∃ r, forEach row (List.range s.height.toNat) { s with phase := .pixels, pln := pl } = .refused r ∧
          RasterRefusal s r := by
      intro fits row pl hfits hpl hrow
      rcases forEach_range_goes_or_refuses (body := row) (B := PixelRefusal)
          (P := fun j t => PixelFrame { s with phase := .pixels } t ∧ (PlanesSized s → PlnWithin t.pln) ∧
            ∀ y < j, ∀ x < s.width.toNat, fits (pixRead s x y)) s.height.toNat
          (s := { s with phase := .pixels, pln := pl }) ⟨rfl, hpl, by simp⟩ (fun j hj t ht => by
            obtain ⟨hf, hw, hx⟩ := ht
            rcases hrow j t (by omega) hf.width with ⟨u, hu, hf', hw', hx'⟩ | h
            · refine .inl ⟨u, hu, hf.trans hf', fun h => hw' (hw h), fun y hyj x hxw => ?_⟩
              rcases Nat.lt_succ_iff_lt_or_eq.mp hyj with h | rfl
              · exact hx y h x hxw
              · have := hx' x (by rw [hf.width]; exact hxw)
                rwa [pixRead, hf.pix] at this
            · exact .inr h) with ⟨u, hu, hf, hw, hx⟩ | h
      · exact .inl ⟨u, hu, hf, hw, hsize, fun x hxw y hyh => hfits _ (hx y hyh x hxw)⟩
      · obtain ⟨r, h, hr⟩ := h
        exact .inr ⟨r, h, .inr ⟨hsize, hr⟩⟩
    have hy16 : ∀ y : Nat, y < 65535 → (BitVec.ofNat 16 y).toNat = y := fun y hy => by simp; omega
    simp only [encodePixels, hsize, Bool.true_eq_false, if_false]
    split
    · rename_i hm
      refine key (fun o => ∃ c, o = some (.trueColor c)) hamRow (plnZero Config.hamPlanes s.height.toNat s.rowbytes.toNat)
        (by rintro o ⟨c, rfl⟩; exact hm) (fun h => plnZero_within (by decide) (by omega) h.2) fun y t hy _ => ?_
      rcases pixelRow_cases (fits := fun o => ∃ c, o = some (.trueColor c)) hamPixel_cases t.width.toNat
          { t with y := BitVec.ofNat 16 y, hr := Config.hamInit, hg := Config.hamInit, hb := Config.hamInit } with
        ⟨u, hu, hf, hw, hx⟩ | h
      · refine .inl ⟨u, hu, ?_, hw, fun x hxw => by simpa [pixRead, hy16 y hy] using hx x hxw⟩
        rw [PixelFrame, hf]
      · exact .inr h
    · rename_i hm
      refine key (fun o => ∃ v, o = some (.index v)) bpeRow (plnZero s.nplanes.toNat s.height.toNat s.rowbytes.toNat)
        (by rintro o ⟨v, rfl⟩; simpa [pixelFits] using hm) (fun h => plnZero_within h.1 (by omega) h.2) fun y t hy _ => ?_
      rcases pixelRow_cases (fits := fun o => ∃ v, o = some (.index v)) bpePixel_cases t.width.toNat
          { t with y := BitVec.ofNat 16 y } with
        ⟨u, hu, hf, hw, hx⟩ | h
      · refine .inl ⟨u, hu, ?_, hw, fun x hxw => by simpa [pixRead, hy16 y hy] using hx x hxw⟩
        rw [PixelFrame, hf]
      · exact .inr h

end Sys2Proof.Machine
end

