-- ==== Sys2Proof/Laws/Encode.lean ====
section
/-! SUPPORT. ENCODE: the checks, and the command as its parts. -/

namespace Sys2Proof.Machine

/-! ## A legal configuration -/

theorem configLegal_bounds {s : State} (h : configLegal s = true) :
    (1 ≤ s.width.toNat ∧ s.width.toNat ≤ 65535) ∧ (1 ≤ s.height.toNat ∧ s.height.toNat ≤ 65535) ∧
    2 ≤ s.palsize.toNat ∧ s.palsize.toNat ≤ 256 ∧ 2 ^ s.palsize.toNat.log2 = s.palsize.toNat := by
  simp only [configLegal, dimensionOk, paletteSizeOk, Config.maxDim, Config.palMin, Config.palMax, Bool.decide_and,
    Bool.and_eq_true, decide_eq_true_eq] at h
  omega

theorem planeCount_le {s : State} (h : configLegal s = true) : 1 ≤ planeCount s ∧ planeCount s ≤ 8 := by
  have hb := configLegal_bounds h
  simp only [planeCount, Config.hamPlanes]
  split
  · omega
  · refine ⟨?_, ?_⟩
    · rcases Nat.eq_zero_or_pos s.palsize.toNat.log2 with h0 | h0
      · rw [h0] at hb
        omega
      · exact h0
    · have : 2 ^ s.palsize.toNat.log2 < 2 ^ 9 := by omega
      have := (Nat.pow_lt_pow_iff_right (by decide : 1 < 2)).mp this
      omega

theorem rowBytes_le {s : State} (h : configLegal s = true) : rowBytes s.width.toNat ≤ 8192 := by
  have := configLegal_bounds h
  simp only [rowBytes]
  omega

/-- CMAP of a legal configuration has an even number of entries, so it is never padded (43 R173). -/
theorem cmapCount_even {s : State} (h : configLegal s = true) : cmapCount s % 2 = 0 := by
  have hb := configLegal_bounds h
  simp only [cmapCount, Config.hamPal]
  split
  · rfl
  · rcases Nat.eq_zero_or_pos s.palsize.toNat.log2 with h0 | h0
    · rw [h0] at hb
      omega
    · obtain ⟨k, hk⟩ : ∃ k, s.palsize.toNat.log2 = k + 1 := ⟨s.palsize.toNat.log2 - 1, by omega⟩
      rw [← hb.2.2.2.2, hk, Nat.pow_succ]
      omega

/-! ## The checks (44 R201 to R203) -/

theorem validate_legal {s : State} (h : configLegal s = true) : validate s = .go { s with phase := .validate } := by
  have hc : chipset s = 0 ∨ chipset s = 1 := by
    simp only [configLegal, Bool.decide_and, Bool.and_eq_true, decide_eq_true_eq] at h
    exact h.1
  have hw : dimensionOk s.width = true := by
    simp only [configLegal, Bool.decide_and, Bool.and_eq_true, decide_eq_true_eq] at h
    simpa using h.2.1
  have hh : dimensionOk s.height = true := by
    simp only [configLegal, Bool.decide_and, Bool.and_eq_true, decide_eq_true_eq] at h
    simpa using h.2.2.1
  have hp : paletteSizeOk s.palsize = true := by
    simp only [configLegal, Bool.decide_and, Bool.and_eq_true, decide_eq_true_eq] at h
    simpa using h.2.2.2.1
  have hm : isHam s = true → Config.hamPal ≤ s.palsize.toNat := by
    simp only [configLegal, Bool.decide_and, Bool.and_eq_true, decide_eq_true_eq] at h
    exact h.2.2.2.2
  have h1 : checkChipset { s with phase := .validate } = .go { s with phase := .validate } := if_pos hc
  have h2 : checkDimensions { s with phase := .validate } = .go { s with phase := .validate } := by
    simp [checkDimensions, hw, hh]
  have h3 : checkPalette { s with phase := .validate } = .go { s with phase := .validate } := by
    simp only [checkPalette, hp, not_true_eq_false, if_false]
    refine if_neg fun hx => ?_
    have := hm hx.1
    exact absurd hx.2 (by simpa using this)
  rw [validate, h1, andThen_go, h2, andThen_go, h3]

/-- A configuration that is not legal raises one of the three validation faults, and nothing else happens (60 R225). -/
theorem validate_illegal {s : State} (h : ¬ configLegal s = true) :
    ∃ c v, validate s = rejectConfig c v { s with phase := .validate } ∧
      (c = .unsupportedChipset ∨ c = .invalidDimensions ∨ c = .invalidPaletteSize) := by
  by_cases hc : chipset s = 0 ∨ chipset s = 1
  · have h1 : checkChipset { s with phase := .validate } = .go { s with phase := .validate } := if_pos hc
    rw [validate, h1, andThen_go]
    by_cases hw : dimensionOk s.width = true
    · by_cases hh : dimensionOk s.height = true
      · have h2 : checkDimensions { s with phase := .validate } = .go { s with phase := .validate } := by
          simp [checkDimensions, hw, hh]
        rw [h2, andThen_go]
        by_cases hp : paletteSizeOk s.palsize = true
        · have hm : isHam s = true ∧ s.palsize.toNat < Config.hamPal := by
            refine Classical.byContradiction fun hno => h ?_
            simp only [configLegal, Bool.decide_and, Bool.and_eq_true, decide_eq_true_eq]
            exact ⟨hc, by simpa using hw, by simpa using hh, by simpa using hp, fun hm =>
              Nat.le_of_not_lt fun hlt => hno ⟨hm, hlt⟩⟩
          have h3 : checkPalette { s with phase := .validate } =
              rejectConfig .invalidPaletteSize s.palsize { s with phase := .validate } := by
            simp only [checkPalette, hp, not_true_eq_false, if_false]
            exact if_pos hm
          rw [h3]
          exact ⟨_, _, rfl, .inr (.inr rfl)⟩
        · have h3 : checkPalette { s with phase := .validate } =
              rejectConfig .invalidPaletteSize s.palsize { s with phase := .validate } := if_pos hp
          rw [h3]
          exact ⟨_, _, rfl, .inr (.inr rfl)⟩
      · have h2 : checkDimensions { s with phase := .validate } =
            rejectConfig .invalidDimensions s.height { s with phase := .validate } := by
          simp [checkDimensions, hw, hh]
        rw [h2]
        exact ⟨_, _, rfl, .inr (.inl rfl)⟩
    · have h2 : checkDimensions { s with phase := .validate } =
          rejectConfig .invalidDimensions s.width { s with phase := .validate } := if_pos hw
      rw [h2]
      exact ⟨_, _, rfl, .inr (.inl rfl)⟩
  · have h1 : checkChipset { s with phase := .validate } =
        rejectConfig .unsupportedChipset ((chipset s).setWidth 32) { s with phase := .validate } := if_neg hc
    rw [validate, h1]
    exact ⟨_, _, rfl, .inl rfl⟩

/-! ## The command -/

/-- The state ENCODE gives to pixel encoding (44 R200, R204). -/
def encodeBegun (s : State) : State := selectMode { s with status := .busy, phase := .validate }

theorem runEncode_legal {s : State} (h : configLegal s = true) :
    runEncode s = ((encodePixels (encodeBegun s)).andThen chsWrite).andThen fun t => .go (complete t) := by
  have hl : configLegal { s with status := .busy } = true := h
  rw [runEncode, validate_legal hl]
  rfl

theorem runEncode_illegal {s : State} (h : ¬ configLegal s = true) :
    ∃ c v, runEncode s = rejectConfig c v { s with status := .busy, phase := .validate } ∧
      (c = .unsupportedChipset ∨ c = .invalidDimensions ∨ c = .invalidPaletteSize) := by
  have hl : ¬ configLegal { s with status := .busy } = true := h
  obtain ⟨c, v, he, hc⟩ := validate_illegal hl
  exact ⟨c, v, by rw [runEncode, he]; rfl, hc⟩

/-- ENCODE accepted. -/
theorem exec_encode {s : State} (h : s.status = .idle ∨ s.status = .done) : exec .encode s = (runEncode s).outcome := by
  simp only [exec, execEncode]
  exact whenAccepted_idle h

/-! ## The sequence writes the image -/

/-- The state step 0 leaves where the host creates the sink (43 R167). -/
def sinkOpened (t : State) : State :=
  { t with phase := .openSink, oracle := t.oracle.tail, out := [], wpos := 0, sinkOpen := true }

theorem chsOpen_cases (t : State) :
    (sinkAnswer t = true ∧ chsOpen t = .go (sinkOpened t)) ∨
    (sinkAnswer t = false ∧
      chsOpen t = .raised (ioFailure ctxOpen { t with phase := .openSink, oracle := t.oracle.tail })) :=
  sinkCreate_cases { t with phase := .openSink }

/-- PLN holds the bitmap of `s`. -/
def PlanesHold (s t : State) : Prop :=
  ∀ p y b, plnRead t.pln p y b =
    if p < planeCount s ∧ y < s.height.toNat ∧ b < rowBytes s.width.toNat then some (planeByte (codeRow s y) p b) else none

/-- What the sequence reads, where the planes hold the bitmap of `s`, in terms of `s`. -/
theorem chsReads_image {s t : State} (hl : configLegal s = true)
    (hf : PixelFrame { encodeBegun s with phase := .pixels } t) (hpln : PlanesHold s t) :
    (∀ y < s.height.toNat, ∀ p < planeCount s, rowStored (sinkOpened t) p y = storedRow s p y) ∧
    (sinkOpened t).height = s.height ∧ (sinkOpened t).nplanes.toNat = planeCount s ∧
    isHam (sinkOpened t) = isHam s ∧ imageCmap (sinkOpened t) = imageCmap s ∧
    bmhdPayload (sinkOpened t) = imageBmhd s := by
  have hP := planeCount_le hl
  have hB := rowBytes_le hl
  have e1 : (sinkOpened t).height = s.height := by simp only [sinkOpened]; rw [hf]; rfl
  have e0 : (sinkOpened t).width = s.width := by simp only [sinkOpened]; rw [hf]; rfl
  have e2 : (sinkOpened t).nplanes.toNat = planeCount s := by
    have h : (sinkOpened t).nplanes = BitVec.ofNat 32 (planeCount s) := by simp only [sinkOpened]; rw [hf]; rfl
    rw [h]; simp; omega
  have e3 : (sinkOpened t).rowbytes.toNat = rowBytes s.width.toNat := by
    have h : (sinkOpened t).rowbytes = BitVec.ofNat 32 (rowBytes s.width.toNat) := by simp only [sinkOpened]; rw [hf]; rfl
    rw [h]; simp; omega
  have e4 : compressOn (sinkOpened t) = compressOn s := by simp only [sinkOpened]; rw [hf]; rfl
  have e5 : isHam (sinkOpened t) = isHam s := by simp only [sinkOpened]; rw [hf]; rfl
  have e6 : imageCmap (sinkOpened t) = imageCmap s := by simp only [sinkOpened]; rw [hf]; rfl
  have e7 : (sinkOpened t).pln = t.pln := rfl
  refine ⟨fun y hy p hp => ?_, e1, e2, e5, e6, ?_⟩
  · have h : rowBytesOf (sinkOpened t) p y = imagePlaneRow s p y := by
      simp only [rowBytesOf, imagePlaneRow, e3, e7]
      apply List.map_congr_left
      intro b hb
      have hb := List.mem_range.mp hb
      rw [hpln, if_pos ⟨hp, hy, hb⟩]
      rfl
    simp only [rowStored, storedRow, h, e4]
  · simp only [bmhdPayload, imageBmhd, e0, e1, e2, e4]
    cases compressOn s <;> rfl

theorem flatMap_range_congr {α : Type} {n : Nat} {f g : Nat → List α} (h : ∀ i < n, f i = g i) :
    (List.range n).flatMap f = (List.range n).flatMap g :=
  List.flatMap_congr fun i hi => h i (List.mem_range.mp hi)

/-- The bytes before BODY and the BODY payload in terms of `s`. -/
theorem chsParts_image {s t : State} (hl : configLegal s = true) (hp : paletteReady s)
    (hf : PixelFrame { encodeBegun s with phase := .pixels } t) (hpln : PlanesHold s t) :
    chsHead (sinkOpened t) = tagForm ++ [0, 0, 0, 0] ++ tagIlbm ++ imageHead s ∧
    chsRowBytes (sinkOpened t) = imageBody s ∧
    (imageHead s).length = 36 + (if isHam s then 12 else 0) + 3 * cmapCount s ∧
    (chunk tagCmap (imageCmap s)).length = 8 + 3 * cmapCount s := by
  obtain ⟨hr, e1, e2, e5, e6, hbm⟩ := chsReads_image hl hf hpln
  have hbml : (imageBmhd s).length = 20 := by simp [imageBmhd, be16]
  have hcl := imageCmap_length hp
  have hev := cmapCount_even hl
  have hchunkB : chunk tagBmhd (imageBmhd s) = tagBmhd ++ be32 20 ++ imageBmhd s := by
    simp only [chunk, hbml]
    simp [padBytes]
  have hpad : (padBytes (3 * cmapCount s)).length = 0 := by
    rw [padBytes_length]
    omega
  have hcm : (chunk tagCmap (imageCmap s)).length = 8 + 3 * cmapCount s := by
    simp only [chunk, List.length_append, hcl, hpad]
    simp [tagCmap, be32]
  refine ⟨?_, ?_, ?_, hcm⟩
  · simp only [chsHead, imageHead, hbm, e5, e6, hchunkB, List.append_assoc]
    rfl
  · simp only [chsRowBytes, imageBody, e1, e2]
    exact flatMap_range_congr fun y hy => flatMap_range_congr fun p hp => hr y hy p hp
  · simp only [imageHead, List.length_append, hcm, hchunkB, hbml]
    split <;> simp [tagBmhd, tagCamg, chunk, padBytes, be32] <;> omega

/-- What the sequence appends and patches, where the planes hold the bitmap, is the file of 43 R185. -/
theorem chsFile_is_imageFile {s t : State} (hl : configLegal s = true) (hp : paletteReady s)
    (hf : PixelFrame { encodeBegun s with phase := .pixels } t) (hpln : PlanesHold s t) :
    chsRowBytes (sinkOpened t) = imageBody s ∧ chsFile (sinkOpened t) = imageFile s ∧
    (chsUnpatched (sinkOpened t)).length - 8 = 4 + (imageChunks s).length ∧
    (chsHead (sinkOpened t)).length = 48 + (if isHam s then 12 else 0) + 3 * cmapCount s ∧
    chsAppended (sinkOpened t) = tagForm ++ [0, 0, 0, 0] ++ tagIlbm ++ imageHead s ++ tagBody ++ [0, 0, 0, 0]
      ++ imageBody s ∧
    chsBodyFixed (sinkOpened t) = tagForm ++ [0, 0, 0, 0] ++ tagIlbm ++ imageChunks s := by
  obtain ⟨hhead, hrow, hhl, _⟩ := chsParts_image hl hp hf hpln
  have hbody : chunk tagBody (imageBody s) =
      tagBody ++ be32 (imageBody s).length ++ imageBody s ++ padBytes (imageBody s).length := rfl
  have hbe : ∀ n, ([0, 0, 0, 0] : List Byte).length = (be32 n).length := fun _ => rfl
  have happ : chsAppended (sinkOpened t) = tagForm ++ [0, 0, 0, 0] ++ tagIlbm ++ imageHead s ++ tagBody ++ [0, 0, 0, 0]
      ++ imageBody s := by
    rw [chsAppended, hhead, hrow]
    simp only [List.append_assoc]
  have hun : chsUnpatched (sinkOpened t) = (tagForm ++ [0, 0, 0, 0] ++ tagIlbm ++ imageHead s ++ tagBody) ++ [0, 0, 0, 0]
      ++ (imageBody s ++ padBytes (imageBody s).length) := by
    rw [chsUnpatched_eq, happ, hrow]
    simp only [List.append_assoc]
  have hlen : (chsUnpatched (sinkOpened t)).length - 8 = 4 + (imageChunks s).length := by
    rw [hun, imageChunks, hbody]
    simp [tagForm, tagBody, tagIlbm, be32]
    omega
  have hpre : (tagForm ++ [0, 0, 0, 0] ++ tagIlbm ++ imageHead s ++ tagBody).length = (chsHead (sinkOpened t)).length + 4 := by
    rw [hhead]
    simp [tagBody]
    omega
  have hfix : chsBodyFixed (sinkOpened t) = tagForm ++ [0, 0, 0, 0] ++ tagIlbm ++ imageChunks s := by
    rw [chsBodyFixed, hrow, hun, ← hpre,
      overwrite_middle _ [0, 0, 0, 0] _ (be32 (imageBody s).length) (hbe _), imageChunks, hbody]
    simp only [List.append_assoc]
  refine ⟨hrow, ?_, hlen, ?_, happ, hfix⟩
  · have h2 := overwrite_middle tagForm [0, 0, 0, 0] (tagIlbm ++ imageChunks s) (be32 (4 + (imageChunks s).length)) (hbe _)
    rw [chsFile_eq, hlen, hfix, List.append_assoc (tagForm ++ _)]
    refine h2.trans ?_
    simp only [imageFile, List.append_assoc]
  · rw [hhead]
    simp [tagForm, tagIlbm, hhl]
    omega

/-- The fallible operations after SinkOpen are those of 43 R166 for the image. -/
theorem chsOperations_image {s t : State} (hl : configLegal s = true) (hp : paletteReady s)
    (hf : PixelFrame { encodeBegun s with phase := .pixels } t) (hpln : PlanesHold s t) :
    imageOperations s = (ctxOpen, s.out.length) :: chsOperations (sinkOpened t) := by
  obtain ⟨hr, e1, e2, e5, e6, hbm⟩ := chsReads_image hl hf hpln
  obtain ⟨_, hrow, _, hcm⟩ := chsParts_image hl hp hf hpln
  obtain ⟨_, hfile, _, _, happ, _⟩ := chsFile_is_imageFile hl hp hf hpln
  have hb := configLegal_bounds hl
  have hP := planeCount_le hl
  have hctx : chsContexts (sinkOpened t) = imageContexts s := by
    simp only [chsContexts, imageContexts, e1, e2, e5, e6, hcm, ctxForm, ctxBmhd, ctxCamg, ctxCmap, ctxBody]
    congr 1
    refine flatMap_range_congr fun y hy => flatMap_range_congr fun p hp => ?_
    rw [hr y hy p hp]
    congr 1
    simp only [rowContext, Context.mk.injEq, true_and]
    refine ⟨BitVec.eq_of_toNat_eq ?_, BitVec.eq_of_toNat_eq ?_⟩ <;> simp <;> omega
  have hul : (chsUnpatched (sinkOpened t)).length = (imageFile s).length := by rw [← chsFile_length, hfile]
  have hal : (chsAppended (sinkOpened t)).length = (imageFile s).length - (imageBody s).length % 2 := by
    have := congrArg List.length (chsUnpatched_eq (sinkOpened t))
    rw [List.length_append, hrow, padBytes_length, hul] at this
    omega
  simp only [imageOperations, chsOperations, hctx, hal, hul, hrow, padBytes_length, ctxOpen, ctxBodyFix, ctxFormFix]

end Sys2Proof.Machine
end

