-- ==== Sys2Proof/Laws/Frame.lean ====
section
/-! SUPPORT. What no part of the CHS sequence changes, whatever the sink answers and whatever holds a value. -/

namespace Sys2Proof.Machine

/-- What the CHS sequence may change without raising a fault. -/
def SeqFrame (s t : State) : Prop :=
  t = { s with
    phase := t.phase, y := t.y, p := t.p, rlc := t.rlc, formLenOff := t.formLenOff, bodyLenOff := t.bodyLenOff
    bodyStart := t.bodyStart, bodyLen := t.bodyLen, fileLen := t.fileLen, out := t.out, wpos := t.wpos
    oracle := t.oracle, sinkOpen := t.sinkOpen }

theorem SeqFrame.trans {s t u : State} (h1 : SeqFrame s t) (h2 : SeqFrame t u) : SeqFrame s u := by
  simp only [SeqFrame] at *
  rw [h2, h1]

/-- WPOS is at the end of OUT if it was (20 R72). -/
def StaysAtEnd (s t : State) : Prop := s.wpos = s.out.length → t.wpos = t.out.length

/-- A part of the sequence on `s` goes on inside the frame, or raises one fault on a state inside the frame. -/
def SeqEnds (s : State) (f : Flow) : Prop :=
  f.Ends (fun t => SeqFrame s t ∧ StaysAtEnd s t) fun t =>
    ∃ c ctx v u n, t = raiseFault c ctx v { u with freeTick := n } ∧ SeqFrame s u ∧ StaysAtEnd s u

theorem SeqEnds.andThen {s : State} {f : Flow} {g : State → Flow} (hf : SeqEnds s f)
    (hg : ∀ t, SeqFrame s t → SeqEnds t (g t)) : SeqEnds s (f.andThen g) :=
  andThen_ends hf fun t ht => (hg t ht.1).mono (fun _ hu => ⟨ht.1.trans hu.1, fun h => hu.2 (ht.2 h)⟩)
    fun _ ⟨c, ctx, v, w, n, he, hw, ha⟩ => ⟨c, ctx, v, w, n, he, ht.1.trans hw, fun h => ha (ht.2 h)⟩

/-- A part that begins by setting working registers. -/
theorem SeqEnds.start {s s' : State} {f : Flow} (h : SeqEnds s' f) (hf : SeqFrame s s') (ha : StaysAtEnd s s') :
    SeqEnds s f :=
  Flow.Ends.mono h (fun _ hu => ⟨hf.trans hu.1, fun h => hu.2 (ha h)⟩)
    fun _ ⟨c, ctx, v, w, n, he, hw, hwa⟩ => ⟨c, ctx, v, w, n, he, hf.trans hw, fun h => hwa (ha h)⟩

theorem seqEnds_go (s : State) : SeqEnds s (.go s) := ⟨rfl, id⟩

theorem seqEnds_ioFailure (ctx : Context) {s u : State} (hf : SeqFrame s u) (ha : StaysAtEnd s u) :
    SeqEnds s (.raised (ioFailure ctx u)) := by
  obtain ⟨v, n, he, _⟩ := ioFailure_eq ctx u
  exact ⟨_, ctx, v, u, n, he, hf, ha⟩

theorem seqEnds_forEach {body : Nat → State → Flow} (hb : ∀ i t, SeqEnds t (body i t)) (is : List Nat) (s : State) :
    SeqEnds s (forEach body is s) := by
  induction is generalizing s with
  | nil => exact seqEnds_go s
  | cons i is ih => exact (hb i s).andThen fun t _ => ih t

theorem sinkAppend_seqEnds (ctx : Context) (b : Byte) (s : State) : SeqEnds s (sinkAppend ctx b s) := by
  simp only [sinkAppend]
  split
  · trivial
  · split
    · exact ⟨rfl, fun h => by simpa using h⟩
    · exact seqEnds_ioFailure ctx rfl id

theorem appendAll_seqEnds (ctx : Context) (bs : List Byte) (s : State) : SeqEnds s (appendAll ctx bs s) := by
  induction bs generalizing s with
  | nil => exact seqEnds_go s
  | cons b bs ih => exact (sinkAppend_seqEnds ctx b s).andThen fun t _ => ih t

theorem patchLength_seqEnds (ctx : Context) (off len : Nat) (s : State) : SeqEnds s (patchLength ctx off len s) := by
  by_cases ho : off + 4 ≤ s.out.length
  · rcases patchLength_cases ctx (len := len) ho with ⟨_, h⟩ | ⟨_, _, h⟩ | ⟨_, _, k, o, h⟩
    · rw [h]
      exact ⟨_, _, _, s, s.freeTick, rfl, rfl, id⟩
    · rw [h]
      exact ⟨rfl, fun _ => by simp⟩
    · rw [h]
      exact seqEnds_ioFailure ctx rfl fun _ => by simp
  · simp only [patchLength]
    split
    · exact ⟨_, _, _, s, s.freeTick, rfl, rfl, id⟩
    · rw [sinkPatch32, if_neg (by rintro ⟨h, _⟩; exact ho h)]
      trivial

/-! ## The steps -/

theorem chsForm_seqEnds (s : State) : SeqEnds s (chsForm s) :=
  ((appendAll_seqEnds ctxForm tagForm { s with phase := .form }).start (s := s) rfl id).andThen fun t _ =>
    (appendAll_seqEnds ctxForm Config.placeholder { t with formLenOff := sinkTell t }).start rfl id

theorem chsIlbm_seqEnds (s : State) : SeqEnds s (chsIlbm s) :=
  (appendAll_seqEnds ctxForm tagIlbm { s with phase := .form }).start rfl id

theorem chsBmhd_seqEnds (s : State) : SeqEnds s (chsBmhd s) :=
  (appendAll_seqEnds ctxBmhd (tagBmhd ++ be32 20 ++ bmhdPayload s) { s with phase := .bmhd }).start rfl id

theorem chsCamg_seqEnds (s : State) : SeqEnds s (chsCamg s) := by
  simp only [chsCamg]
  split
  · exact (appendAll_seqEnds ctxCamg _ { s with phase := .camg }).start rfl id
  · exact seqEnds_go s

theorem chsCmapEntry_seqEnds (i : Nat) (s : State) : SeqEnds s (chsCmapEntry i s) := by
  simp only [chsCmapEntry]
  split
  · trivial
  · exact appendAll_seqEnds ctxCmap _ s

theorem chsCmap_seqEnds (s : State) : SeqEnds s (chsCmap s) :=
  (((appendAll_seqEnds ctxCmap _ { s with phase := .cmap }).start (s := s) rfl id).andThen fun t _ =>
    seqEnds_forEach chsCmapEntry_seqEnds _ t).andThen fun t _ => appendAll_seqEnds ctxCmap _ t

theorem chsBodyHeader_seqEnds (s : State) : SeqEnds s (chsBodyHeader s) :=
  (((appendAll_seqEnds ctxBody tagBody { s with phase := .body }).start (s := s) rfl id).andThen fun t _ =>
    (appendAll_seqEnds ctxBody Config.placeholder { t with bodyLenOff := sinkTell t }).start rfl id).andThen fun t _ =>
      (seqEnds_go { t with bodyStart := sinkTell t }).start rfl id

theorem chsPlaneRow_seqEnds (y p : Nat) (s : State) : SeqEnds s (chsPlaneRow y p s) := by
  simp only [chsPlaneRow]
  split
  · trivial
  · split
    · exact (appendAll_seqEnds _ _ _).start rfl id
    · exact (appendAll_seqEnds _ _ { s with p := BitVec.ofNat 4 p }).start rfl id

theorem chsRows_seqEnds (s : State) : SeqEnds s (chsRows s) :=
  seqEnds_forEach (fun y t => (seqEnds_forEach (chsPlaneRow_seqEnds y) (List.range t.nplanes.toNat)
    { t with y := BitVec.ofNat 16 y }).start rfl id) _ s

theorem chsTail_seqEnds (s : State) : SeqEnds s (chsTail s) :=
  (((patchLength_seqEnds ctxBodyFix _ _
    { s with phase := .bodyFix, bodyLen := sinkTell s - s.bodyStart }).start (s := s) rfl id).andThen fun t _ =>
      appendAll_seqEnds ctxBodyFix _ t).andThen fun t _ =>
        ((patchLength_seqEnds ctxFormFix _ _ { t with phase := .formFix, fileLen := sinkTell t }).start (s := t)
          rfl id).andThen fun u _ => (seqEnds_go (chsClose u)).start rfl id

theorem chsOpen_seqEnds (s : State) : SeqEnds s (chsOpen s) := by
  simp only [chsOpen]
  rcases sinkCreate_cases { s with phase := .openSink } with ⟨_, h⟩ | ⟨_, h⟩
  · rw [h]
    exact ⟨rfl, fun _ => rfl⟩
  · rw [h]
    exact seqEnds_ioFailure ctxOpen rfl id

theorem chsBody_seqEnds (s : State) : SeqEnds s (chsBody s) :=
  ((chsBodyHeader_seqEnds s).andThen fun t _ => chsRows_seqEnds t).andThen fun t _ =>
    ((patchLength_seqEnds ctxBodyFix _ _
      { t with phase := .bodyFix, bodyLen := sinkTell t - t.bodyStart }).start (s := t) rfl id).andThen fun u _ =>
        appendAll_seqEnds ctxBodyFix _ u

/-- The whole sequence (43 R166). -/
theorem chsWrite_seqEnds (s : State) : SeqEnds s (chsWrite s) := by
  rw [chsWrite_eq]
  exact (chsOpen_seqEnds s).andThen fun t _ => (((((((chsForm_seqEnds t).andThen fun t _ => chsIlbm_seqEnds t).andThen
    fun t _ => chsBmhd_seqEnds t).andThen fun t _ => chsCamg_seqEnds t).andThen fun t _ => chsCmap_seqEnds t).andThen
    fun t _ => chsBodyHeader_seqEnds t).andThen fun t _ => chsRows_seqEnds t).andThen fun t _ => chsTail_seqEnds t

/-- CMAP goes on only where every entry it takes holds a value (44 R213), and is refused only for that. -/
theorem chsCmap_goes_ready (s : State) : (chsCmap s).Ends (fun _ => paletteReady s) fun _ => True := by
  refine andThen_ends (P := fun _ => paletteReady s) (andThen_ends (P := fun t => t.pal = s.pal) ?_ fun t ht => ?_)
    fun t ht => (appendAll_seqEnds ctxCmap _ t).mono (fun _ _ => ht) fun _ _ => trivial
  · refine ((appendAll_seqEnds ctxCmap _ { s with phase := .cmap }).start (s := s) rfl id).mono (fun t ht => ?_)
      fun _ _ => trivial
    rw [ht.1]
  · refine (forEach_range_ends (P := fun j u => u.pal = s.pal ∧ ∀ i < j, (memRead s.pal i).isSome = true)
      (R := fun _ => True) (cmapCount s) ⟨ht, by simp⟩ fun j hj u hu => ?_).mono (fun _ hu => hu.2) fun _ _ => trivial
    simp only [chsCmapEntry, hu.1]
    cases hm : memRead s.pal j with
    | none => trivial
    | some c =>
      refine (appendAll_seqEnds ctxCmap _ u).mono (fun v hv => ⟨by rw [hv.1]; exact hu.1, fun i hi => ?_⟩)
        fun _ _ => trivial
      rcases Nat.lt_succ_iff_lt_or_eq.mp hi with h | rfl
      · exact hu.2 i h
      · simp [hm]

/-- The sequence goes on to its end only where CMAP found every entry. -/
theorem chsWrite_goes_ready (s : State) : (chsWrite s).Ends (fun _ => paletteReady s) fun _ => True := by
  have any : ∀ {t : State} {f : Flow}, SeqEnds t f → f.Ends (SeqFrame t) fun _ => True :=
    fun h => Flow.Ends.mono h (fun _ h => h.1) fun _ _ => trivial
  have h5 : ((((((chsOpen s).andThen chsForm).andThen chsIlbm).andThen chsBmhd).andThen chsCamg).andThen chsCmap).Ends
      (fun _ => paletteReady s) fun _ => True := by
    have h4 := ((((chsOpen_seqEnds s).andThen fun t _ => chsForm_seqEnds t).andThen fun t _ => chsIlbm_seqEnds t).andThen
      fun t _ => chsBmhd_seqEnds t).andThen fun t _ => chsCamg_seqEnds t
    refine andThen_ends (any h4) fun t ht => (chsCmap_goes_ready t).mono (fun _ hp => ?_) fun _ _ => trivial
    have e1 : t.pal = s.pal := by rw [ht]
    have e2 : cmapCount t = cmapCount s := by rw [ht]; rfl
    rwa [paletteReady, e1, e2] at hp
  refine andThen_ends (P := fun _ => paletteReady s) (andThen_ends h5 fun t hp =>
    (any (chsBody_seqEnds t)).mono (fun _ _ => hp) fun _ _ => trivial) fun t hp => ?_
  refine andThen_ends (P := fun _ => True) ((any ((patchLength_seqEnds ctxFormFix _ _
    { t with phase := .formFix, fileLen := sinkTell t }).start (s := t) rfl id)).mono (fun _ _ => trivial)
    fun _ _ => trivial) fun _ _ => hp

end Sys2Proof.Machine
end

