-- ==== Sys2Proof/Laws/PerInstr.lean ====
section
/-! SUPPORT. One law per instruction: the first word of its encoding is a word of its row of spec/opcode_table.json. -/

namespace Sys2Proof.Laws.MatchesRow

/-- The row's `mask` and `match` in spec/opcode_table.json. -/
def row : Instr → Nat × Nat
  | .nop => (0xFF, 0x00)
  | .encode => (0xFF, 0x01)
  | .rleCompress => (0xFF, 0x02)
  | .rleDecompress => (0xFF, 0x03)
  | .clear => (0xFF, 0x04)
  | .reserved05 => (0xFF, 0x05)
  | .reserved0607 _ => (0xFE, 0x06)
  | .reserved080F _ => (0xF8, 0x08)
  | .reserved101F _ => (0xF0, 0x10)
  | .reserved203F _ => (0xE0, 0x20)
  | .reserved407F _ => (0xC0, 0x40)
  | .reserved80FF _ => (0x80, 0x80)
  | .br1Lit _ _ => (0x80, 0x00)
  | .br1Nop => (0xFF, 0x80)
  | .br1Rep _ _ => (0x80, 0x80)
  | .ham6Set _ => (0x30, 0x00)
  | .ham6ModB _ => (0x30, 0x10)
  | .ham6ModR _ => (0x30, 0x20)
  | .ham6ModG _ => (0x30, 0x30)
  | .iffForm => (0xFFFFFFFF, 0x464F524D)
  | .iffIlbm => (0xFFFFFFFF, 0x494C424D)
  | .iffBmhd => (0xFFFFFFFF, 0x424D4844)
  | .iffCamg => (0xFFFFFFFF, 0x43414D47)
  | .iffCmap => (0xFFFFFFFF, 0x434D4150)
  | .iffBody => (0xFFFFFFFF, 0x424F4459)

/-- The row's `excludes`. -/
def excludes : Instr → List Nat
  | .br1Rep _ _ => [0x80]
  | .nop => []
  | .encode => []
  | .rleCompress => []
  | .rleDecompress => []
  | .clear => []
  | .reserved05 => []
  | .reserved0607 _ => []
  | .reserved080F _ => []
  | .reserved101F _ => []
  | .reserved203F _ => []
  | .reserved407F _ => []
  | .reserved80FF _ => []
  | .br1Lit _ _ => []
  | .br1Nop => []
  | .ham6Set _ => []
  | .ham6ModB _ => []
  | .ham6ModR _ => []
  | .ham6ModG _ => []
  | .iffForm => []
  | .iffIlbm => []
  | .iffBmhd => []
  | .iffCamg => []
  | .iffCmap => []
  | .iffBody => []

/-- The word the table's row describes: a tag's four bytes, most significant first, or the first byte. -/
def firstWord (i : Instr) : Nat :=
  match i.space with
  | .iff => ((encode i).take 4).foldl (fun acc b => acc * 2 ^ 8 + b.toNat) 0
  | .cmd => ((encode i).headD 0).toNat
  | .br1 => ((encode i).headD 0).toNat
  | .ham6 => ((encode i).headD 0).toNat

/-- The first word of a well-formed instruction is one of its row's, and none the row excludes. -/
def Statement (i : Instr) : Prop :=
  i.wellFormed = true → firstWord i &&& (row i).1 = (row i).2 ∧ firstWord i ∉ excludes i

theorem nop : Statement .nop := fun _ => by decide

theorem encode : Statement .encode := fun _ => by decide

theorem rleCompress : Statement .rleCompress := fun _ => by decide

theorem rleDecompress : Statement .rleDecompress := fun _ => by decide

theorem clear : Statement .clear := fun _ => by decide

theorem reserved05 : Statement .reserved05 := fun _ => by decide

theorem reserved0607 (lo : BitVec 1) : Statement (.reserved0607 lo) := fun _ => by
  revert lo
  decide

theorem reserved080F (lo : BitVec 3) : Statement (.reserved080F lo) := fun _ => by
  revert lo
  decide

theorem reserved101F (lo : BitVec 4) : Statement (.reserved101F lo) := fun _ => by
  revert lo
  decide

theorem reserved203F (lo : BitVec 5) : Statement (.reserved203F lo) := fun _ => by
  revert lo
  decide

theorem reserved407F (lo : BitVec 6) : Statement (.reserved407F lo) := fun _ => by
  revert lo
  decide

theorem reserved80FF (lo : BitVec 7) : Statement (.reserved80FF lo) := fun _ => by
  revert lo
  decide

theorem br1Lit (n : BitVec 7) (data : List Byte) : Statement (.br1Lit n data) := fun _ =>
  (by decide : ∀ k : BitVec 7, ((0b0#1) ++ k : BitVec 8).toNat &&& 0x80 = 0 ∧ ((0b0#1) ++ k : BitVec 8).toNat ∉ ([] : List Nat)) n

theorem br1Nop : Statement .br1Nop := fun _ => by decide

theorem br1Rep (n : BitVec 7) (data : Byte) : Statement (.br1Rep n data) := fun h =>
  (by decide : ∀ k : BitVec 7, (k != 0) = true →
    ((0b1#1) ++ k : BitVec 8).toNat &&& 0x80 = 0x80 ∧ ((0b1#1) ++ k : BitVec 8).toNat ∉ [0x80]) n h

theorem ham6Set (d : BitVec 4) : Statement (.ham6Set d) := fun _ => by
  revert d
  decide

theorem ham6ModB (d : BitVec 4) : Statement (.ham6ModB d) := fun _ => by
  revert d
  decide

theorem ham6ModR (d : BitVec 4) : Statement (.ham6ModR d) := fun _ => by
  revert d
  decide

theorem ham6ModG (d : BitVec 4) : Statement (.ham6ModG d) := fun _ => by
  revert d
  decide

theorem iffForm : Statement .iffForm := fun _ => by decide

theorem iffIlbm : Statement .iffIlbm := fun _ => by decide

theorem iffBmhd : Statement .iffBmhd := fun _ => by decide

theorem iffCamg : Statement .iffCamg := fun _ => by decide

theorem iffCmap : Statement .iffCmap := fun _ => by decide

theorem iffBody : Statement .iffBody := fun _ => by decide

end Sys2Proof.Laws.MatchesRow
end

