-- ==== Sys2Proof/Tests/Slice0.lean ====
section
/-! SUPPORT. Tests: WellFormed refuses ill-formed terms, every row decodes from words written out of the spec, small vectors of
95_test_vectors.md, and a witness for the hypotheses of every obligation. Expected results are the spec's. -/

namespace Sys2Proof.Tests

open Sys2Proof.Machine Sys2Proof.Claims

/-! ## WellFormed -/

/-- A LIT control byte 0x02 governs three data bytes, not two (30 R93). -/
theorem test_wellFormed_refuses_short_literal : (Instr.br1Lit 2 [0x41, 0x42]).wellFormed = false := by decide

theorem test_wellFormed_refuses_long_literal : (Instr.br1Lit 0 [0x41, 0x42]).wellFormed = false := by decide

/-- 0x80 is never REP (the table's `excludes`). -/
theorem test_wellFormed_refuses_repeat_0x80 : (Instr.br1Rep 0 0x41).wellFormed = false := by decide

theorem test_wellFormed_accepts : (Instr.br1Lit 2 [0x41, 0x42, 0x43]).wellFormed = true ∧
    (Instr.br1Rep 1 0x41).wellFormed = true := by decide

/-! ## Decoding: one written-out word for every row of the table (30 R91 to R99) -/

theorem test_decode_cmd : decode .cmd [0b00000000] = .ok (.nop, []) ∧ decode .cmd [0b00000001] = .ok (.encode, []) ∧
    decode .cmd [0b00000010] = .ok (.rleCompress, []) ∧ decode .cmd [0b00000011] = .ok (.rleDecompress, []) ∧
    decode .cmd [0b00000100] = .ok (.clear, []) := by decide

theorem test_decode_reserved : decode .cmd [0b00000101] = .ok (.reserved05, []) ∧
    decode .cmd [0b00000111] = .ok (.reserved0607 1, []) ∧ decode .cmd [0b00001010] = .ok (.reserved080F 2, []) ∧
    decode .cmd [0b00010011] = .ok (.reserved101F 3, []) ∧ decode .cmd [0b00100100] = .ok (.reserved203F 4, []) ∧
    decode .cmd [0b01000101] = .ok (.reserved407F 5, []) ∧ decode .cmd [0b10000110] = .ok (.reserved80FF 6, []) := by
  decide

theorem test_decode_reserved_last : decode .cmd [0x06] = .ok (.reserved0607 0, []) ∧
    decode .cmd [0x0F] = .ok (.reserved080F 7, []) ∧ decode .cmd [0x1F] = .ok (.reserved101F 15, []) ∧
    decode .cmd [0x3F] = .ok (.reserved203F 31, []) ∧ decode .cmd [0x7F] = .ok (.reserved407F 63, []) ∧
    decode .cmd [0xFF] = .ok (.reserved80FF 127, []) := by decide

theorem test_decode_br1 : decode .br1 [0b00000010, 1, 2, 3, 9] = .ok (.br1Lit 2 [1, 2, 3], [9]) ∧
    decode .br1 [0b10000000, 9] = .ok (.br1Nop, [9]) ∧ decode .br1 [0b10000001, 7] = .ok (.br1Rep 1 7, []) := by decide

theorem test_decode_ham6 : decode .ham6 [0b001001] = .ok (.ham6Set 9, []) ∧
    decode .ham6 [0b011000] = .ok (.ham6ModB 8, []) ∧ decode .ham6 [0b101111] = .ok (.ham6ModR 15, []) ∧
    decode .ham6 [0b111000] = .ok (.ham6ModG 8, []) := by decide

theorem test_decode_iff : decode .iff [0x46, 0x4F, 0x52, 0x4D] = .ok (.iffForm, []) ∧
    decode .iff [0x49, 0x4C, 0x42, 0x4D] = .ok (.iffIlbm, []) ∧ decode .iff [0x42, 0x4D, 0x48, 0x44] = .ok (.iffBmhd, []) ∧
    decode .iff [0x43, 0x41, 0x4D, 0x47] = .ok (.iffCamg, []) ∧ decode .iff [0x43, 0x4D, 0x41, 0x50] = .ok (.iffCmap, []) ∧
    decode .iff [0x42, 0x4F, 0x44, 0x59] = .ok (.iffBody, []) := by decide

theorem test_decode_rejects : decode .br1 [0x02, 1, 2] = .error .truncatedBlock ∧ decode .br1 [0xFE] = .error .truncatedBlock ∧
    decode .ham6 [0x40] = .error .notSixBits ∧ decode .iff [0x46, 0x4F] = .error .truncatedTag ∧
    decode .iff [0x41, 0x4E, 0x4E, 0x4F] = .error .unknownTag ∧ decode .cmd [] = .error .noByte := by decide

theorem test_tableWord : decodeTableWord 8 0x01 = some .encode ∧ decodeTableWord 6 0x2F = some (.ham6ModR 15) ∧
    decodeTableWord 32 0x424F4459 = some .iffBody ∧ decodeTableWord 32 0x41414141 = none := by decide

/-! ## Small states -/

/-- The state before the commands of a host script. -/
def withPending (s : State) (as : List HostAction) : State := { s with pending := as }

/-- A row of indices as elements of PIX. -/
def pixRow (y : Nat) (vs : List Byte) : Memory Pixel :=
  (List.range vs.length).map fun x => (pixKey x y, .index (vs.getD x 0))

/-- P1: Indexed, 4 x 2, 4 colours, uncompressed (95, P1). -/
def p1 : State :=
  { State.reset with
    width := 4, height := 2, palsize := 4, ctrl := 0
    pal := [(0, ⟨0, 0, 0⟩), (1, ⟨0xFF, 0, 0⟩), (2, ⟨0, 0xFF, 0⟩), (3, ⟨0x12, 0x80, 0xFF⟩)]
    rasterWidth := 4, rasterHeight := 2
    pix := pixRow 0 [0, 1, 2, 3] ++ pixRow 1 [3, 2, 1, 0] }

/-- P2: HAM, 2 x 1, compressed, a grey palette (95, P2). -/
def p2 : State :=
  { State.reset with
    width := 2, height := 1, palsize := 16, ctrl := 0x101
    pal := (List.range 16).map fun i => (i, ⟨u8 (17 * i), u8 (17 * i), u8 (17 * i)⟩)
    rasterWidth := 2, rasterHeight := 1
    pix := [(pixKey 0 0, .trueColor ⟨0, 0, 0⟩), (pixKey 1 0, .trueColor ⟨0xFF, 0, 0⟩)] }

/-- ROWIN holds `row`. -/
def rowState (row : List Byte) : State :=
  { State.reset with rowlen := BitVec.ofNat 32 row.length, rowin := memWriteList [] 0 row }

/-- What a property of the next state says of an outcome. -/
def answers (P : State → Bool) : Host.Outcome State Fault Refusal → Bool
  | .next t => P t
  | .fault _ => false
  | .refused _ => false

theorem answers_next {P : State → Bool} {o : Host.Outcome State Fault Refusal} (h : answers P o = true) :
    ∃ t, o = .next t ∧ P t = true := by
  cases o with
  | next t => exact ⟨t, rfl, h⟩
  | fault f => exact absurd h (by simp [answers])
  | refused r => exact absurd h (by simp [answers])

/-! ## Vectors of 95_test_vectors.md -/

/-- P1's OUT, byte for byte, and its end state. -/
theorem test_encode_p1 : answers (fun t => t.out ==
      [0x46, 0x4F, 0x52, 0x4D, 0x00, 0x00, 0x00, 0x44, 0x49, 0x4C, 0x42, 0x4D, 0x42, 0x4D, 0x48, 0x44,
       0x00, 0x00, 0x00, 0x14, 0x00, 0x04, 0x00, 0x02, 0x00, 0x00, 0x00, 0x00, 0x02, 0x00, 0x00, 0x00]
      ++ [0x00, 0x00, 0x01, 0x01, 0x00, 0x04, 0x00, 0x02, 0x43, 0x4D, 0x41, 0x50, 0x00, 0x00, 0x00, 0x0C,
       0x00, 0x00, 0x00, 0xFF, 0x00, 0x00, 0x00, 0xFF, 0x00, 0x11, 0x88, 0xFF, 0x42, 0x4F, 0x44, 0x59]
      ++ [0x00, 0x00, 0x00, 0x08, 0x50, 0x00, 0x30, 0x00, 0xA0, 0x00, 0xC0, 0x00]
      && t.status == .done && t.nplanes == 2 && t.rowbytes == 2) (exec .encode p1) = true := by
  decide +kernel

/-- P2: NPLANES 6, 134 bytes, CAMG and BODY. -/
theorem test_encode_p2 : answers (fun t => t.nplanes == 6 && t.out.length == 134
      && (t.out.drop 0x28).take 12 == [0x43, 0x41, 0x4D, 0x47, 0, 0, 0, 4, 0, 0, 8, 0]
      && t.out.drop 0x6C == [0x42, 0x4F, 0x44, 0x59, 0, 0, 0, 0x12, 0x01, 0x40, 0, 0x01, 0x40, 0, 0x01, 0x40, 0, 0x01, 0x40,
        0, 0x01, 0, 0, 0x01, 0xC0, 0]) (exec .encode p2) = true := by
  decide +kernel

/-- 93 U8: P1's configuration on a raster one column too wide, or one row too low, is refused. -/
theorem test_encode_otherRaster : exec .encode (pixelDefined 4 0 (.index 1) p1) = .refused .wrongRasterSize ∧
    exec .encode { p1 with rasterHeight := 1, pix := pixRow 0 [0, 1, 2, 3] } = .refused .wrongRasterSize := ⟨rfl, rfl⟩

/-- 20 R61, 70 R248: the line `PIX 1: 3 2 1 0` ends a raster of 4 x 2; a raster provided anew has no pixel. -/
theorem test_raster : answers (fun t => t.rasterWidth == 4 && t.rasterHeight == 2)
      (step (withPending { p1 with rasterHeight := 1, pix := pixRow 0 [0, 1, 2, 3] } [.pixDefine 3 1 (.index 0)])) = true ∧
    answers (fun t => t.rasterWidth == 2 && t.rasterHeight == 1 && t.pix == [])
      (step (withPending p1 [.rasterProvide 2 1])) = true := by
  decide +kernel

/-- V-RLC-10 and V-RLC-13: literal, run, trailing byte; the run capped at 127. -/
theorem test_rleCompress : compress [0x41, 0x41, 0x42, 0x42, 0x42, 0x42, 0x43] = [0x01, 0x41, 0x41, 0xFD, 0x42, 0x00, 0x43] ∧
    compress (List.replicate 128 0xAA) = [0x82, 0xAA, 0x00, 0xAA] := by
  decide +kernel

/-- V-RLC-30 and V-RLC-39: NOPs between blocks; a stream cut off at offset 3. -/
theorem test_rleDecompress : decompress [0x80, 2, 1, 2, 3, 0x80, 0xFE, 9, 0x80] = .ok [1, 2, 3, 9, 9, 9] ∧
    decompress [1, 5, 6, 0xFF] = .error 3 := by
  decide +kernel

/-- V-RLC-32 and V-RLC-33: a block the encoder never emits. -/
theorem test_br1Rep : answers (fun t => t.rlc.out == List.replicate 128 7) (exec (.br1Rep 1 7) State.reset) = true ∧
    answers (fun t => t.rlc.out == [7, 7]) (exec (.br1Rep 0x7F 7) State.reset) = true := by decide +kernel

/-- 42 R155 to R157: each code writes its own channel. -/
theorem test_ham_channels :
    answers (fun t => t.hr == 15 && t.hg == 0 && t.hb == 0) (exec (.ham6ModR 15) State.reset) = true ∧
    answers (fun t => t.hg == 8 && t.hr == 0 && t.hb == 0) (exec (.ham6ModG 8) State.reset) = true ∧
    answers (fun t => t.hb == 8 && t.hr == 0 && t.hg == 0) (exec (.ham6ModB 8) State.reset) = true := by decide +kernel

/-- V-HAM-1 and row 0 of V-HAM-2. -/
theorem test_hamCodes : hamCodes 0 0 0 [⟨0, 0, 0⟩, ⟨0xFF, 0, 0⟩] = [32, 47] ∧
    hamCodes 0 0 0 (List.replicate 4 ⟨0x80, 0x80, 0x80⟩ ++ List.replicate 3 ⟨0x10, 0x20, 0xF0⟩ ++ [⟨0xFF, 0xFF, 0xFF⟩]) =
      [40, 56, 24, 40, 33, 31, 50, 47] := by decide +kernel

/-- V-BPE-1, planes 0 and 2. -/
theorem test_planeByte : planeByte [0, 1, 2, 3, 4, 5, 6, 7, 7, 5] 0 0 = 0x55 ∧ planeByte [0, 1, 2, 3, 4, 5, 6, 7, 7, 5] 0 1 = 0xC0 ∧
    planeByte [0, 1, 2, 3, 4, 5, 6, 7, 7, 5] 2 0 = 0x0F := by decide +kernel

/-- 95, section 2.3. -/
theorem test_rowBytes : rowBytes 1 = 2 ∧ rowBytes 16 = 2 ∧ rowBytes 17 = 4 ∧ rowBytes 320 = 40 ∧ rowBytes 321 = 42 ∧
    rowBytes 65535 = 8192 := by decide +kernel

/-- The CMAP bytes of P1's entry 3 (12 80 FF gives 11 88 FF). -/
theorem test_cmapByte : cmapByte 0x12 = 0x11 ∧ cmapByte 0x80 = 0x88 ∧ cmapByte 0xFF = 0xFF := by decide +kernel

/-- P6: an append that fails at operation 13 (offset 12) is in BMHD and leaves the 12 bytes before it. -/
theorem test_fault_in_bmhd : answers (fun t => t.status == .fault && t.cause == 3 && t.faultChunk == 3 && t.faultValue == 12
      && t.out.length == 12 && t.sinkOpen == false)
    (exec .encode { p1 with oracle := List.replicate 13 true ++ [false] }) = true := by decide +kernel

/-- 60 R226: CLEAR returns from that fault. -/
theorem test_clear : answers (fun t => t.status == .idle && t.cause == 0 && t.faultChunk == 0 && t.out.length == 12)
    (exec .clear { p1 with status := .fault, cause := 3, faultChunk := 3, out := List.replicate 12 0 }) = true := by
  decide +kernel

/-- A command runs from a write to register 0, and the host reads what it left (P1). -/
theorem test_step_runs_command : answers (fun t => t.status == .done && t.pending.length == 1)
    (step (withPending p1 [.regWrite 0 1, .regRead 1])) = true := by decide +kernel

/-! ## Witnesses: states and operands that meet the hypotheses of the obligations -/

theorem witness_DecodeOfEncode : (Instr.br1Lit 127 (List.replicate 128 0x41)).wellFormed = true ∧
    (Instr.br1Rep 1 0xFF).wellFormed = true ∧ (Instr.br1Rep 127 0).wellFormed = true ∧ Instr.wellFormed .iffForm = true := by
  decide +kernel

theorem witness_DecodeReadsOnlyEncodings :
    decode .br1 [0x00, 0x41, 0x80] = .ok (.br1Lit 0 [0x41], [0x80]) ∧ decode .cmd [0xFF] = .ok (.reserved80FF 127, []) := by decide

theorem witness_StepRunsTheDecodedCommand : ∃ s : State, s.status ≠ .busy ∧ s.pending = .regWrite 0 0x101 :: [.regRead 1] :=
  ⟨withPending State.reset [.regWrite 0 0x101, .regRead 1], by decide, rfl⟩

theorem witness_StepRunsTheEncodedElement : ∃ s : State, (Instr.ham6ModR 15).wellFormed = true ∧
    s.pending = .unit (Instr.ham6ModR 15).space (encode (.ham6ModR 15)) :: [] :=
  ⟨withPending State.reset [.unit .ham6 [0x2F]], by decide, by decide⟩

theorem witness_ReservedCodes : 5 ≤ (0x05 : Byte).toNat ∧ 5 ≤ (0xFF : Byte).toNat := by decide

theorem witness_ClearReturnsToIdle : ∃ s : State, s.status ≠ .busy ∧ s.status = .fault :=
  ⟨{ State.reset with status := .fault, cause := 3 }, by decide, rfl⟩

theorem witness_WorkingCommandsIgnoredInFault : ∃ s : State, s.status = .fault :=
  ⟨{ State.reset with status := .fault, cause := 3 }, rfl⟩

theorem witness_HostHasNoMoveWhileBusy : ∃ s : State, s.status = .busy ∧ HostAction.isHost (.regWrite 0 0) = true ∧
    s.pending = .regWrite 0 0 :: [] :=
  ⟨{ withPending State.reset [.regWrite 0 0] with status := .busy }, rfl, rfl, rfl⟩

theorem witness_WaitsForTheHost : State.reset.pending = [] := rfl

theorem witness_CompressedLength : ∀ k, startsRun3 (([1, 2, 1, 1, 2, 2] : List Byte).drop k) = false := by
  intro k
  rcases k with _ | _ | _ | _ | _ | _ | k <;> simp [startsRun3]

theorem witness_RunBecomesOneRepeatBlock :
    (3 ≤ 3 ∧ 3 ≤ 127 ∧ (3 = 127 ∨ ([0x42] : List Byte).head? ≠ some 0x41)) ∧
    (3 ≤ 127 ∧ 127 ≤ 127 ∧ (127 = 127 ∨ ([0x41] : List Byte).head? ≠ some 0x41)) ∧
    (3 ≤ 126 ∧ 126 ≤ 127 ∧ (126 = 127 ∨ ([] : List Byte).head? ≠ some 0x41)) := by decide

theorem witness_LiteralStopsBeforeRun :
    (∀ k < ([1, 2] : List Byte).length, startsRun3 ((([1, 2] : List Byte) ++ [3, 3, 3]).drop k) = false) ∧
    startsRun3 ([3, 3, 3] : List Byte) = true ∧
    (∀ k < ([0x41] : List Byte).length, startsRun3 ((([0x41] : List Byte) ++ []).drop k) = false) ∧
    (∀ k < ((List.range 127).map u8).length, startsRun3 ((((List.range 127).map u8) ++ [0x42]).drop k) = false) ∧
    ((List.range 127).map u8).length = 127 := by decide +kernel

theorem witness_DecoderReadsEachBlockClass : decompress [] = .ok [] ∧ (0 : Byte).toNat ≤ 127 ∧ ([9] : List Byte).length = (0 : Byte).toNat + 1 ∧
    (127 : Byte).toNat ≤ 127 ∧ (List.replicate 128 (9 : Byte)).length = (127 : Byte).toNat + 1 ∧ (128 : Byte).toNat = 128 ∧
    128 < (129 : Byte).toNat ∧ 128 < (255 : Byte).toNat := by decide +kernel

theorem witness_CutOffBlockIsMalformed : decompress [1, 5, 6] = .ok [5, 6] ∧ 128 < (255 : Byte).toNat ∧ 128 < (129 : Byte).toNat ∧
    ((0 : Byte).toNat ≤ 127 ∧ ([] : List Byte).length < (0 : Byte).toNat + 1) ∧
    ((127 : Byte).toNat ≤ 127 ∧ (List.replicate 127 (9 : Byte)).length < (127 : Byte).toNat + 1) := by decide +kernel

/-- ROWIN filled with a row that fits holds it. -/
theorem rowState_rowin (row : List Byte) (h : row.length ≤ 65535) : RowinIs row (rowState row) := by
  have hl : (rowState row).rowlen.toNat = row.length := by simp [rowState]; omega
  refine ⟨by omega, hl.symm, fun i hi => ?_⟩
  show memRead (memWriteList [] 0 row) i = _
  rw [memRead_memWriteList, if_pos (by omega)]
  rfl

theorem witness_RleCompressResult : (Ready (rowState []) ∧ RowinIs [] (rowState [])) ∧
    Ready (rowState [0x41, 0x41, 0x41]) ∧ RowinIs [0x41, 0x41, 0x41] (rowState [0x41, 0x41, 0x41]) ∧
    RowinIs (List.replicate 65535 0x41) (rowState (List.replicate 65535 0x41)) :=
  ⟨⟨.inl rfl, rowState_rowin _ (by decide)⟩, .inl rfl, rowState_rowin _ (by decide),
    rowState_rowin _ (Nat.le_of_eq List.length_replicate)⟩

/-- A stream of `k` blocks of 128 equal bytes, and one more block. -/
theorem decompress_repeats (k : Nat) (last out : List Byte) (h : decompress last = .ok out) :
    decompress (List.flatten (List.replicate k [0x81, 7]) ++ last) = .ok (List.replicate (128 * k) 7 ++ out) := by
  induction k with
  | zero => simpa using h
  | succ k ih =>
    rw [List.replicate_succ, List.flatten_cons]
    show decompress (0x81 :: 7 :: (List.flatten (List.replicate k [0x81, 7]) ++ last)) = _
    rw [decompress_cons]
    have hd : ∀ rest, decode .br1 (0x81 :: 7 :: rest) = .ok (.br1Rep 1 7, rest) := fun _ => rfl
    have ho : blockOutput (.br1Rep 1 7) = List.replicate 128 7 := rfl
    rw [hd]
    simp only [ih, ho]
    rw [← List.append_assoc, List.replicate_append_replicate, Nat.mul_succ, Nat.add_comm 128]

/-- A row of 1023 such blocks and one of `n`. -/
def longRow (n : Byte) : List Byte := List.flatten (List.replicate 1023 [0x81, 7]) ++ [n, 7]

theorem pairs_length (k : Nat) : (List.flatten (List.replicate k ([0x81, 7] : List Byte))).length = 2 * k := by
  induction k with
  | zero => rfl
  | succ k ih =>
    rw [List.replicate_succ, List.flatten_cons, List.length_append, ih, List.length_cons, List.length_cons, List.length_nil]
    omega

theorem longRow_length (n : Byte) : (longRow n).length = 2048 := by
  rw [longRow, List.length_append, pairs_length]
  rfl

theorem witness_RleDecompressResult : ∃ out, Ready (rowState (longRow 0x83)) ∧ RowinIs (longRow 0x83) (rowState (longRow 0x83)) ∧
    decompress (longRow 0x83) = .ok out ∧ out.length = 131070 :=
  ⟨_, .inl rfl, rowState_rowin _ (by rw [longRow_length]; omega),
    decompress_repeats 1023 [0x83, 7] (List.replicate 126 7) (by decide +kernel),
    by rw [List.length_append, List.length_replicate, List.length_replicate]⟩

theorem witness_RleDecompressTakesMalformedFault : Ready (rowState [1, 5, 6, 0xFF]) ∧
    RowinIs [1, 5, 6, 0xFF] (rowState [1, 5, 6, 0xFF]) ∧ decompress [1, 5, 6, 0xFF] = .error 3 :=
  ⟨.inl rfl, rowState_rowin _ (by decide), by decide +kernel⟩

theorem witness_RleCommandsRefuse_rowlen : ∃ s : State, Ready s ∧ 65535 < s.rowlen.toNat :=
  ⟨{ State.reset with rowlen := 65536 }, .inl rfl, by decide⟩

theorem witness_RleCommandsRefuse_noValue : ∃ s : State, Ready s ∧ s.rowlen.toNat ≤ 65535 ∧ 65534 < s.rowlen.toNat ∧
    memRead s.rowin 65534 = none :=
  ⟨{ State.reset with rowlen := 65535 }, .inl rfl, by decide, by decide, rfl⟩

theorem witness_RleCommandsRefuse_rowout : ∃ out, Ready (rowState (longRow 0x82)) ∧
    RowinIs (longRow 0x82) (rowState (longRow 0x82)) ∧ decompress (longRow 0x82) = .ok out ∧ out.length = 131071 :=
  ⟨_, .inl rfl, rowState_rowin _ (by rw [longRow_length]; omega),
    decompress_repeats 1023 [0x82, 7] (List.replicate 127 7) (by decide +kernel),
    by rw [List.length_append, List.length_replicate, List.length_replicate]⟩

/-- P1 and P2 with NPLANES and ROWBYTES as selection sets them. -/
theorem witness_PixelsFillThePlanes :
    (configLegal (selectMode p1) = true ∧ (selectMode p1).nplanes.toNat = planeCount (selectMode p1) ∧
      (selectMode p1).rowbytes.toNat = rowBytes (selectMode p1).width.toNat) ∧
    (configLegal (selectMode p2) = true ∧ (selectMode p2).nplanes.toNat = planeCount (selectMode p2) ∧
      (selectMode p2).rowbytes.toNat = rowBytes (selectMode p2).width.toNat) := by decide +kernel

theorem p1_ready : Ready p1 ∧ configLegal p1 = true ∧ rasterReady p1 ∧ paletteReady p1 ∧ lengthsFit p1 :=
  ⟨.inl rfl, by decide +kernel, by unfold rasterReady; decide +kernel, by unfold paletteReady; decide +kernel,
    by unfold lengthsFit; decide +kernel⟩

theorem p2_ready : Ready p2 ∧ configLegal p2 = true ∧ rasterReady p2 ∧ paletteReady p2 ∧ lengthsFit p2 :=
  ⟨.inl rfl, by decide +kernel, by unfold rasterReady; decide +kernel, by unfold paletteReady; decide +kernel,
    by unfold lengthsFit; decide +kernel⟩

theorem witness_PixelsFillThePlanes_raster : rasterReady (selectMode p1) ∧ rasterReady (selectMode p2) :=
  ⟨p1_ready.2.2.1, p2_ready.2.2.1⟩

theorem witness_PlanesGiveTheIndexBack : (configLegal (selectMode p1) = true ∧ isHam (selectMode p1) = false) ∧
    (∃ t, encodePixels (selectMode p1) = .go t) ∧ 3 < (selectMode p1).width.toNat ∧ 1 < (selectMode p1).height.toNat :=
  ⟨by decide +kernel, ⟨_, rfl⟩, by decide, by decide⟩

theorem witness_FormHeaderIsAppended : ∃ s : State, s.wpos = s.out.length ∧ Succeed 8 s ∧ Succeed 4 s ∧ s.oracle.length = 8 :=
  ⟨{ State.reset with oracle := List.replicate 8 true }, rfl, by unfold Succeed; decide, by unfold Succeed; decide, rfl⟩

theorem witness_BmhdIsAppended : ∃ s : State, s.wpos = s.out.length ∧ Succeed 28 s ∧ s.out.length = 12 :=
  ⟨{ State.reset with out := List.replicate 12 0, wpos := 12, oracle := List.replicate 28 true ++ [false] }, rfl,
    by unfold Succeed; decide, rfl⟩

theorem witness_CamgOnlyInHamMode : p2.wpos = p2.out.length ∧ Succeed 12 p2 ∧ chipset p2 = 1 ∧ chipset p1 = 0 ∧
    p1.wpos = p1.out.length ∧ Succeed 12 p1 :=
  ⟨rfl, by unfold Succeed; decide, by decide, by decide, rfl, by unfold Succeed; decide⟩

theorem witness_CmapIsAppended : (p1.wpos = p1.out.length ∧ paletteReady p1 ∧ Succeed (8 + 3 * cmapCount p1 + cmapCount p1 % 2) p1) ∧
    p2.wpos = p2.out.length ∧ paletteReady p2 ∧ Succeed (8 + 3 * cmapCount p2 + cmapCount p2 % 2) p2 :=
  ⟨⟨rfl, p1_ready.2.2.2.1, by unfold Succeed; decide +kernel⟩, rfl, p2_ready.2.2.2.1, by unfold Succeed; decide +kernel⟩

/-- One plane-row of two bytes, and one of three bytes whose length is odd when it is stored as it is. -/
def planeState (n : Nat) : State :=
  { State.reset with height := 1, nplanes := 1, rowbytes := BitVec.ofNat 32 n, pln := plnZero 1 1 n }

theorem witness_BodyIsAppended :
    ((planeState 2).wpos = (planeState 2).out.length ∧ (∀ a ∈ (planeState 2).oracle, a = true) ∧
      (planeBody (planeState 2)).length < 2 ^ 32 ∧ ∀ y < (planeState 2).height.toNat, ∀ p < (planeState 2).nplanes.toNat,
        ∀ b < (planeState 2).rowbytes.toNat, (plnRead (planeState 2).pln p y b).isSome = true) ∧
    (planeState 3).wpos = (planeState 3).out.length ∧ (∀ a ∈ (planeState 3).oracle, a = true) ∧
      (planeBody (planeState 3)).length % 2 = 1 ∧ ∀ y < (planeState 3).height.toNat, ∀ p < (planeState 3).nplanes.toNat,
        ∀ b < (planeState 3).rowbytes.toNat, (plnRead (planeState 3).pln p y b).isSome = true := by
  decide +kernel

theorem witness_FailedAppend : ∃ s t : State, (s.wpos = s.out.length ∧ FailAt 0 s ∧ s.out.length + 0 < 2 ^ 32) ∧
    t.wpos = t.out.length ∧ 27 < 28 ∧ FailAt 27 t ∧ t.out.length + 27 < 2 ^ 32 :=
  ⟨{ State.reset with oracle := [false] }, { State.reset with oracle := List.replicate 27 true ++ [false] },
    ⟨rfl, by unfold FailAt; decide, by decide⟩, rfl, by decide, by unfold FailAt; decide, by decide⟩

/-- An append under the context of a plane-row that fails at its first and at its last byte. -/
theorem witness_FailedAppend_append : ∃ s t : State, (s.wpos = s.out.length ∧ 0 < ([1, 2, 3] : List Byte).length ∧ FailAt 0 s ∧
    s.out.length + 0 < 2 ^ 32) ∧ t.wpos = t.out.length ∧ 2 < ([1, 2, 3] : List Byte).length ∧ FailAt 2 t ∧
    t.out.length + 2 < 2 ^ 32 :=
  ⟨{ State.reset with oracle := [false] }, { State.reset with oracle := [true, true, false] },
    ⟨rfl, by decide, by unfold FailAt; decide, by decide⟩, rfl, by decide, by unfold FailAt; decide, by decide⟩

/-- A patch of the last four bytes of OUT that fails at its first and at its last operation. -/
theorem witness_FailedAppend_patch : ∃ s t : State, (4 + 4 ≤ s.out.length ∧ 2 ^ 32 - 1 < 2 ^ 32 ∧ 0 < 6 ∧ FailAt 0 s ∧
    s.out.length < 2 ^ 32) ∧ 4 + 4 ≤ t.out.length ∧ 5 < 6 ∧ FailAt 5 t ∧ t.out.length < 2 ^ 32 :=
  ⟨{ State.reset with out := List.replicate 8 0, oracle := [false] },
    { State.reset with out := List.replicate 8 0, oracle := List.replicate 5 true ++ [false] },
    ⟨by decide, by decide, by decide, by unfold FailAt; decide, by decide⟩, by decide, by decide, by unfold FailAt; decide,
    by decide⟩

theorem witness_ChipsetRejectedFirst : ∃ s t : State, (Ready s ∧ chipset s = 2) ∧ Ready t ∧ chipset t = 255 :=
  ⟨{ p1 with ctrl := 2 }, { p1 with ctrl := 0x3FF, status := .done }, ⟨.inl rfl, by decide⟩, .inr rfl, by decide⟩

theorem witness_DimensionsRejectedSecond :
    (Ready { p1 with width := 0 } ∧ chipset { p1 with width := 0 } = 0) ∧ 65535 < ({ p1 with width := 65536 } : State).width.toNat ∧
    (1 ≤ p1.width.toNat ∧ p1.width.toNat ≤ 65535 ∧ ({ p1 with height := 0 } : State).height.toNat = 0) ∧
    65535 < ({ p1 with height := 65536 } : State).height.toNat :=
  ⟨⟨.inl rfl, by decide⟩, by decide, by decide, by decide⟩

theorem witness_PaletteSizeRejectedThird : Ready p1 ∧ chipset p1 = 0 ∧ 1 ≤ p1.width.toNat ∧ p1.width.toNat ≤ 65535 ∧
    1 ≤ p1.height.toNat ∧ p1.height.toNat ≤ 65535 ∧
    ({ p1 with palsize := 1 } : State).palsize.toNat ∉ [2, 4, 8, 16, 32, 64, 128, 256] ∧
    ({ p1 with palsize := 512 } : State).palsize.toNat ∉ [2, 4, 8, 16, 32, 64, 128, 256] ∧
    chipset { p2 with palsize := 8 } = 1 ∧ ({ p2 with palsize := 8 } : State).palsize.toNat < 16 :=
  ⟨.inl rfl, by decide, by decide, by decide, by decide, by decide, by decide, by decide, by decide, by decide⟩

theorem witness_EncodeWritesTheFile : (Ready p1 ∧ configLegal p1 = true ∧ rasterReady p1 ∧ paletteReady p1 ∧ lengthsFit p1 ∧
    ∀ a ∈ p1.oracle, a = true) ∧ Ready p2 ∧ configLegal p2 = true ∧ rasterReady p2 ∧ paletteReady p2 ∧ lengthsFit p2 ∧
    ∀ a ∈ p2.oracle, a = true :=
  ⟨⟨p1_ready.1, p1_ready.2.1, p1_ready.2.2.1, p1_ready.2.2.2.1, p1_ready.2.2.2.2, by decide⟩, p2_ready.1, p2_ready.2.1,
    p2_ready.2.2.1, p2_ready.2.2.2.1, p2_ready.2.2.2.2, by decide⟩

/-- P1 on a sink that fails in the BODY patch (operation 79). -/
def p1Failing : State := { p1 with oracle := List.replicate 79 true ++ [false] }

theorem witness_EncodeEndsWhateverTheSinkAnswers : Ready p1Failing ∧ configLegal p1Failing = true ∧ rasterReady p1Failing ∧
    paletteReady p1Failing :=
  ⟨.inl rfl, p1_ready.2.1, p1_ready.2.2.1, p1_ready.2.2.2.1⟩

/-- P1 on a sink that fails at operation `k`. -/
def p1FailsAt (k : Nat) : State := { p1 with oracle := List.replicate k true ++ [false] }

/-- P1 fails at its first operation, at the last byte of its last plane-row, at the first of its BODY patch, and at its last. -/
theorem witness_FailedOperationGivesItsContext :
    (∀ k ∈ [0, 76, 77, 88], Ready (p1FailsAt k) ∧ configLegal (p1FailsAt k) = true ∧ rasterReady (p1FailsAt k) ∧
      paletteReady (p1FailsAt k) ∧ lengthsFit (p1FailsAt k) ∧ FailAt k (p1FailsAt k)) ∧
    (imageOperations (p1FailsAt 0))[0]? = some ({ chunk := 1 }, 0) ∧
    (imageOperations (p1FailsAt 76))[76]? = some ({ chunk := 6, row := 1, plane := 1 }, 75) ∧
    (imageOperations (p1FailsAt 77))[77]? = some ({ chunk := 7 }, 76) ∧
    (imageOperations (p1FailsAt 88))[88]? = some ({ chunk := 8 }, 76) := by
  have hf : ∀ k ∈ [0, 76, 77, 88], FailAt k (p1FailsAt k) := by unfold FailAt; decide +kernel
  exact ⟨fun k hk => ⟨.inl rfl, p1_ready.2.1, p1_ready.2.2.1, p1_ready.2.2.2.1, p1_ready.2.2.2.2, hf k hk⟩,
    by decide +kernel, by decide +kernel, by decide +kernel, by decide +kernel⟩

theorem witness_DoneMeansTheWholeFile : ∃ t, Ready p1 ∧ exec .encode p1 = .next t ∧ t.status = .done :=
  ⟨_, .inl rfl, rfl, rfl⟩

theorem witness_FailedEncodeKeepsAPrefix : ∃ t, exec .encode p1Failing = .next t ∧ t.status = .fault ∧ t.faultChunk ≠ 1 := by
  obtain ⟨t, he, ht⟩ := answers_next (P := fun t => t.status == .fault && t.faultChunk != 1) (o := exec .encode p1Failing)
    (by decide +kernel)
  exact ⟨t, he, by simpa using ht⟩

theorem witness_OpenFailureLeavesOut : ∃ s : State, Ready s ∧ configLegal s = true ∧ rasterReady s ∧ FailAt 0 s ∧
    s.out.length < 2 ^ 32 :=
  ⟨{ p1 with oracle := [false] }, .inl rfl, p1_ready.2.1, p1_ready.2.2.1, by unfold FailAt; decide, by decide⟩

theorem witness_EncodeRefuses_raster : ∃ s : State, Ready s ∧ configLegal s = true ∧ s.rasterWidth = s.width ∧
    s.rasterHeight = s.height ∧ ¬ rasterReady s :=
  ⟨{ p1 with pix := pixRow 0 [0, 1, 2, 3] }, .inl rfl, by decide +kernel, rfl, rfl, by unfold rasterReady; decide +kernel⟩

theorem witness_EncodeRefuses_size : ∃ s t : State, (Ready s ∧ configLegal s = true ∧ s.rasterWidth ≠ s.width) ∧
    Ready t ∧ configLegal t = true ∧ t.rasterHeight ≠ t.height :=
  ⟨{ p1 with rasterWidth := 5 }, { p1 with rasterHeight := 3 }, ⟨.inl rfl, by decide +kernel, by decide⟩, .inl rfl,
    by decide +kernel, by decide⟩

theorem witness_EncodeRefuses_palette : ∃ s : State, Ready s ∧ configLegal s = true ∧ rasterReady s ∧ ¬ paletteReady s ∧
    ∀ a ∈ s.oracle, a = true :=
  ⟨{ p1 with pal := [(0, ⟨0, 0, 0⟩)] }, .inl rfl, p1_ready.2.1, p1_ready.2.2.1, by unfold paletteReady; decide +kernel,
    by decide⟩

theorem witness_EncodeFrame : ∃ t, exec .encode p1 = .next t := ⟨_, rfl⟩

theorem witness_LengthFieldsOfTheFile : ∃ t, Ready p1 ∧ exec .encode p1 = .next t ∧ t.status = .done :=
  witness_DoneMeansTheWholeFile

theorem witness_UncompressedBodyLength : ∃ t, Ready p1 ∧ compressOn p1 = false ∧ paletteReady p1 ∧ exec .encode p1 = .next t ∧
    t.status = .done ∧ p1.cause ≠ 6 :=
  ⟨_, .inl rfl, by decide, p1_ready.2.2.2.1, rfl, rfl, by decide⟩

theorem witness_DitherHasNoEffect : (0x200 : BitVec 10).extractLsb' 0 9 = p1.ctrl.extractLsb' 0 9 ∧ (0x200 : BitVec 10) ≠ p1.ctrl := by
  decide

theorem witness_DitherHasNoEffect_next : ∃ t, exec .encode p1 = .next t ∧ t.status = .done := ⟨_, rfl, rfl⟩

theorem witness_DitherHasNoEffect_refused : ∃ r, exec .encode { p1 with pal := [] } = .refused r := ⟨_, rfl⟩

theorem witness_RegisterMap : ((0 : BitVec 8) = 0 ∨ 14 ≤ (0 : BitVec 8).toNat) ∧ 14 ≤ (14 : BitVec 8).toNat ∧
    14 ≤ (255 : BitVec 8).toNat := by decide

theorem witness_RegisterAccessSteps : ∃ s t : State, (s.status ≠ .busy ∧ s.pending = .regRead 1 :: []) ∧ t.status ≠ .busy ∧
    t.pending = .regWrite 9 0xFFFFFFFF :: [] ∧ (9 : BitVec 8) ≠ 0 :=
  ⟨withPending State.reset [.regRead 1], withPending State.reset [.regWrite 9 0xFFFFFFFF], ⟨by decide, rfl⟩, by decide, rfl,
    by decide⟩

theorem witness_HostMemoryWrites : ∃ s t u v : State, (s.status ≠ .busy ∧ s.pending = .palWrite 255 ⟨1, 2, 3⟩ :: []) ∧
    (t.status ≠ .busy ∧ t.pending = .rowinWrite 65534 7 :: [] ∧ 65534 < 65535) ∧
    (u.status ≠ .busy ∧ u.pending = .plnWrite 7 65535 8191 1 :: []) ∧ v.status ≠ .busy ∧
    v.pending = .rowoutWrite 131069 1 :: [] :=
  ⟨withPending p1 [.palWrite 255 ⟨1, 2, 3⟩], withPending p1 [.rowinWrite 65534 7], withPending p1 [.plnWrite 7 65535 8191 1],
    withPending p1 [.rowoutWrite 131069 1], ⟨by decide, rfl⟩, ⟨by decide, rfl, by decide⟩, ⟨by decide, rfl⟩, by decide, rfl⟩

theorem witness_HostMemoryWrites_raster : ∃ s t u : State, (s.status ≠ .busy ∧ s.pending = .pixDefine 65535 65535 (.index 7) :: []) ∧
    (t.status ≠ .busy ∧ t.pending = .setOracle [true, false] :: []) ∧ u.status ≠ .busy ∧
    u.pending = .rasterProvide 0xFFFFFFFF 1 :: [] :=
  ⟨withPending p1 [.pixDefine 65535 65535 (.index 7)], withPending p1 [.setOracle [true, false]],
    withPending p1 [.rasterProvide 0xFFFFFFFF 1], ⟨by decide, rfl⟩, ⟨by decide, rfl⟩, by decide, rfl⟩

theorem witness_HostMemoryReads_pal : ∃ s : State, s.status ≠ .busy ∧ s.pending = .palRead 3 :: [] ∧
    memRead s.pal 3 = some ⟨0x12, 0x80, 0xFF⟩ ∧ memRead s.pal 255 = none :=
  ⟨withPending p1 [.palRead 3], by decide, rfl, by decide, by decide⟩

theorem witness_HostMemoryReads_rowin : ∃ s : State, s.status ≠ .busy ∧ s.pending = .rowinRead 65534 :: [] ∧ 65534 < 65535 ∧
    memRead s.rowin 65534 = some 7 ∧ memRead s.rowin 65533 = none ∧ 65535 ≤ 65535 :=
  ⟨{ withPending p1 [.rowinRead 65534] with rowin := [(65534, 7)] }, by decide, rfl, by decide, by decide, by decide, by decide⟩

theorem witness_HostMemoryWrites_outside : ∃ s : State, s.status ≠ .busy ∧ s.pending = .rowinWrite 65535 7 :: [] ∧ 65535 ≤ 65535 :=
  ⟨withPending p1 [.rowinWrite 65535 7], by decide, rfl, by decide⟩

theorem witness_HostMemoryReads_rowout : ∃ s : State, s.status ≠ .busy ∧ s.pending = .rowoutRead 131069 :: [] ∧ 131069 < 131070 ∧
    memRead s.rowout 131069 = some 7 ∧ memRead s.rowout 131068 = none ∧ 131070 ≤ 131070 :=
  ⟨{ withPending p1 [.rowoutRead 131069] with rowout := [(131069, 7)] }, by decide, rfl, by decide, by decide, by decide, by decide⟩

theorem witness_HostMemoryReads_pln : ∃ s : State, s.status ≠ .busy ∧ s.pending = .plnRead 0 0 1 :: [] ∧
    plnRead s.pln 0 0 1 = some 0 ∧ plnRead s.pln 7 65535 8191 = none :=
  ⟨{ withPending p1 [.plnRead 0 0 1] with pln := plnZero 1 1 2 }, by decide, rfl, by decide +kernel, by decide +kernel⟩

theorem witness_HardwareResetState : ∃ s : State, s.status ≠ .busy ∧ s.pending = .hardReset :: [] :=
  ⟨{ withPending p1 [.hardReset] with status := .fault }, by decide, rfl⟩

theorem witness_RowBytesIsLeastEven : 42 % 2 = 0 ∧ 321 ≤ 8 * 42 ∧ 0 % 2 = 0 ∧ 0 ≤ 8 * 0 := by decide

/-- P1 with its command pending is quiescent, and its step answers a next state. -/
theorem witness_StepKeepsQuiescent : Quiescent (withPending p1 [.regWrite 0 1]) ∧
    ∃ t, step (withPending p1 [.regWrite 0 1]) = .next t := by
  refine ⟨?_, ?_⟩
  · constructor
    case noContext => intro _; decide
    case causeKnown => intro h; exact absurd h (by decide)
    all_goals decide +kernel
  · obtain ⟨t, he, _⟩ := answers_next (P := fun _ => true) (o := step (withPending p1 [.regWrite 0 1])) (by decide +kernel)
    exact ⟨t, he⟩

/-! ## Two files that are too long: rows of 0xFF and 0x00 in turn, which no repeat block shortens -/

/-- A raster of `h` rows of `8 n - 1` columns, eight of index 255 and eight of index 0 in turn, with COMPRESS on. -/
def bigState (n h : Nat) : State :=
  { State.reset with
    width := BitVec.ofNat 32 (8 * n - 1), height := BitVec.ofNat 32 h, palsize := 256, ctrl := 0x100
    pal := (List.range 256).map fun i => (i, ⟨0, 0, 0⟩)
    rasterWidth := BitVec.ofNat 32 (8 * n - 1), rasterHeight := BitVec.ofNat 32 h
    pix := (List.range h).flatMap fun y => (List.range (8 * n - 1)).map fun x =>
      (pixKey x y, Pixel.index (if x / 8 % 2 = 0 then 0xFF else 0)) }

theorem bigState_isHam (n h : Nat) : isHam (bigState n h) = false := by
  have : (bigState n h).ctrl = 0x100 := rfl
  rw [isHam, chipset, this]
  decide

theorem bigState_cmapCount (n h : Nat) : cmapCount (bigState n h) = 256 := by
  have : (bigState n h).palsize = 256 := rfl
  rw [cmapCount, bigState_isHam, this]
  decide

theorem bigState_pixRead {n h x y : Nat} (hn : 8 * n - 1 ≤ 2 ^ 16) (hx : x < 8 * n - 1) (hy : y < h) :
    pixRead (bigState n h) x y = some (.index (if x / 8 % 2 = 0 then 0xFF else 0)) := by
  refine memRead_of_mem (e := (pixKey x y, Pixel.index (if x / 8 % 2 = 0 then 0xFF else 0))) ?_ ?_
  · refine List.pairwise_flatMap.mpr ⟨fun y _ => ?_, List.pairwise_lt_range.imp fun {y z} hyz => ?_⟩
    · exact List.pairwise_map.mpr (List.pairwise_lt_range.imp fun {a b} hab => by simp only [pixKey]; omega)
    · intro e he f hf
      obtain ⟨a, ha, rfl⟩ := List.mem_map.mp he
      obtain ⟨b, hb, rfl⟩ := List.mem_map.mp hf
      have := List.mem_range.mp ha
      simp only [pixKey]
      omega
  · exact List.mem_flatMap.mpr ⟨y, List.mem_range.mpr hy, List.mem_map.mpr ⟨x, List.mem_range.mpr hx, rfl⟩⟩

/-- `n` bytes 0xFF and 0x00 in turn. -/
def inTurn : Bool → Nat → List Byte
  | _, 0 => []
  | b, n + 1 => (if b then 0xFF else 0x00) :: inTurn (!b) n

theorem inTurn_length (b : Bool) (n : Nat) : (inTurn b n).length = n := by
  induction n generalizing b with
  | zero => rfl
  | succ n ih => simp [inTurn, ih]

theorem inTurn_get {b : Bool} {n i : Nat} (h : i < n) :
    (inTurn b n)[i]? = some (if (i % 2 = 0) = (b = true) then 0xFF else 0x00) := by
  induction n generalizing b i with
  | zero => omega
  | succ n ih =>
    cases i with
    | zero => cases b <;> simp [inTurn]
    | succ i =>
      rw [inTurn, List.getElem?_cons_succ, ih (by omega)]
      rcases Nat.mod_two_eq_zero_or_one i with h | h <;> cases b <;> simp [Nat.add_mod, h]

theorem inTurn_startsRun3 (b : Bool) (n : Nat) : startsRun3 (inTurn b n) = false := by
  match n with
  | 0 => rfl
  | 1 => rfl
  | 2 => cases b <;> rfl
  | n + 3 => cases b <;> rfl

theorem inTurn_drop (b : Bool) (n k : Nat) : ∃ c, (inTurn b n).drop k = inTurn c (n - k) := by
  induction k generalizing b n with
  | zero => exact ⟨b, rfl⟩
  | succ k ih =>
    cases n with
    | zero => exact ⟨b, by simp [inTurn]⟩
    | succ n => simpa [inTurn] using ih (!b) n

theorem inTurn_scan (b : Bool) (n c : Nat) (h : c ≤ 127) : literalScan c (inTurn b n) = min (c + n) 127 := by
  induction n generalizing b c with
  | zero => simp [inTurn, literalScan, h]
  | succ n ih =>
    have h3 := inTurn_startsRun3 b (n + 1)
    rw [inTurn] at h3 ⊢
    rw [literalScan, h3]
    by_cases hc : c < 127
    · rw [if_pos ⟨hc, by simp⟩, ih _ _ (by omega)]
      omega
    · rw [if_neg fun h => hc h.1]
      omega

/-- No repeat block shortens it. -/
theorem inTurn_compress (b : Bool) (n : Nat) : (compress (inTurn b n)).length = n + (n + 126) / 127 := by
  induction n using Nat.strongRecOn generalizing b with
  | _ n ih =>
    cases n with
    | zero => rfl
    | succ n =>
      have hrun : ¬ 3 ≤ runLength (inTurn b (n + 1)) := by
        rw [← startsRun3_iff, inTurn_startsRun3]
        simp
      have hlit : literalLength (inTurn b (n + 1)) = min (1 + n) 127 := inTurn_scan (!b) n 1 (by omega)
      have hlen := inTurn_length b (n + 1)
      obtain ⟨c, hd⟩ := inTurn_drop b (n + 1) (turnLength (inTurn b (n + 1)))
      have htl : turnLength (inTurn b (n + 1)) = min (1 + n) 127 := by
        simp only [turnLength, Config.rleTrailQuirk, Config.rleMinRun, hlen, if_neg hrun, hlit]
        split <;> omega
      have htb : (turnBlock (inTurn b (n + 1))).length = 1 + min (1 + n) 127 := by
        simp only [turnBlock, Config.rleTrailQuirk, Config.rleMinRun, hlen, if_neg hrun, hlit]
        split
        · simp [hlen]
          omega
        · simp [hlen]
          omega
      rw [htl] at hd
      have hcc := compress_cons (if b then 0xFF else 0x00) (inTurn (!b) n)
      change compress (inTurn b (n + 1)) = turnBlock (inTurn b (n + 1)) ++
        compress ((inTurn b (n + 1)).drop (turnLength (inTurn b (n + 1)))) at hcc
      rw [hcc, htl, hd, List.length_append, htb, ih _ (by omega)]
      omega

theorem bigState_planeRow {n h p y : Nat} (hn : n ≤ 8192) (h2 : n % 2 = 0) (h0 : 0 < n) (hy : y < h) (hp : p < 8) :
    imagePlaneRow (bigState n h) p y = inTurn true n := by
  have hw : (bigState n h).width.toNat = 8 * n - 1 := by simp [bigState]; omega
  have hr : rowBytes (bigState n h).width.toNat = n := by rw [hw, rowBytes]; omega
  have hi := bigState_isHam n h
  have key : ∀ b < n, planeByte (codeRow (bigState n h) y) p b = if b % 2 = 0 then 0xFF else 0 := fun b hb => by
    refine BitVec.eq_of_getLsbD_eq fun i hi8 => ?_
    rw [planeByte_getLsbD]
    have hcode : (codeRow (bigState n h) y).getD (8 * b + (7 - i)) 0 = if b % 2 = 0 then 0xFF else 0 := by
      simp only [codeRow, hi, Bool.false_eq_true, if_false, hw]
      by_cases hlt : 8 * b + (7 - i) < 8 * n - 1
      · have e : (8 * b + (7 - i)) / 8 = b := by omega
        rw [List.getD_eq_getElem?_getD, List.getElem?_map, List.getElem?_range hlt]
        simp only [Option.map_some, Option.getD_some, indexAt, bigState_pixRead (by omega : 8 * n - 1 ≤ 2 ^ 16) hlt hy, e]
      · have : b % 2 = 1 := by omega
        rw [List.getD_eq_getElem?_getD, List.getElem?_eq_none (by simp; omega)]
        simp [this]
    rw [hcode]
    have hall : ∀ i < 8, ∀ p < 8, (decide (i < 8) && (0xFF : Byte).getLsbD p) = (0xFF : Byte).getLsbD i := by decide
    split
    · exact hall i hi8 p hp
    · simp
  refine List.ext_getElem? fun b => ?_
  rw [imagePlaneRow, hr]
  by_cases hb : b < n
  · rw [List.getElem?_map, List.getElem?_range hb, inTurn_get hb]
    simp [key b hb]
  · rw [List.getElem?_eq_none (by simp; omega), List.getElem?_eq_none (by rw [inTurn_length]; omega)]

theorem length_flatMap_const {f : Nat → List Byte} {c : Nat} (k : Nat) (h : ∀ i < k, (f i).length = c) :
    ((List.range k).flatMap f).length = k * c := by
  induction k with
  | zero => simp
  | succ k ih =>
    rw [List.range_succ, List.flatMap_append, List.length_append, ih fun i hi => h i (by omega)]
    simp [h k (by omega), Nat.succ_mul]

theorem bigState_bodyLength {n h : Nat} (hn : n ≤ 8192) (h2 : n % 2 = 0) (h0 : 0 < n) (hh : h < 2 ^ 32) :
    (imageBody (bigState n h)).length = h * (8 * (n + (n + 126) / 127)) := by
  have hP : planeCount (bigState n h) = 8 := by
    have : (bigState n h).palsize = 256 := rfl
    rw [planeCount, bigState_isHam, this]
    decide
  have hH : (bigState n h).height.toNat = h := by simp [bigState]; omega
  rw [imageBody, hH]
  refine length_flatMap_const h fun y hy => ?_
  rw [hP]
  refine length_flatMap_const 8 fun p hp => ?_
  have hco : compressOn (bigState n h) = true := by
    have : (bigState n h).ctrl = 0x100 := rfl
    rw [compressOn, this]
    decide
  rw [storedRow, hco, if_pos rfl, bigState_planeRow hn h2 h0 hy hp, inTurn_compress]

theorem bigState_ready {n h : Nat} (hn : n ≤ 8192) (h2 : n % 2 = 0) (h0 : 0 < n) (hh : 1 ≤ h ∧ h ≤ 65535) :
    Ready (bigState n h) ∧ configLegal (bigState n h) = true ∧ rasterReady (bigState n h) ∧
    paletteReady (bigState n h) ∧ ∀ a ∈ (bigState n h).oracle, a = true := by
  have hw : (bigState n h).width.toNat = 8 * n - 1 := by simp [bigState]; omega
  have hH : (bigState n h).height.toNat = h := by simp [bigState]; omega
  have hi := bigState_isHam n h
  refine ⟨.inl rfl, ?_, ⟨by simp [rasterMatches, bigState], fun x hx y hy => ?_⟩, ?_, fun a ha => by simp [bigState, State.reset] at ha⟩
  · have hc : chipset (bigState n h) = 0 := by
      have : (bigState n h).ctrl = 0x100 := rfl
      rw [chipset, this]
      decide
    have hp : paletteSizeOk (bigState n h).palsize = true := by
      show paletteSizeOk 256#32 = true
      decide
    have hdw : dimensionOk (bigState n h).width = true := by
      simp only [dimensionOk, hw, Config.maxDim, Bool.decide_and, Bool.and_eq_true, decide_eq_true_eq]
      omega
    have hdh : dimensionOk (bigState n h).height = true := by
      simp only [dimensionOk, hH, Config.maxDim, Bool.decide_and, Bool.and_eq_true, decide_eq_true_eq]
      omega
    simp [configLegal, hc, hp, hi, hdw, hdh]
  · rw [bigState_pixRead (by omega) (by omega) (by omega)]
    simp only [pixelFits, hi, Bool.not_false]
  · rw [paletteReady, bigState_cmapCount]
    exact (by decide +kernel :
      ∀ i < 256, (memRead ((List.range 256).map fun i => (i, (⟨0, 0, 0⟩ : Rgb))) i).isSome = true)

/-- BODY alone is too long. -/
theorem witness_EncodeEnds_bodyTooLong : ∃ s : State, (Ready s ∧ configLegal s = true ∧ rasterReady s ∧ paletteReady s ∧
    ∀ a ∈ s.oracle, a = true) ∧ ¬ lengthsFit s ∧ 2 ^ 32 ≤ (imageBody s).length := by
  have hl := bigState_bodyLength (n := 8192) (h := 65535) (by omega) (by omega) (by omega) (by omega)
  exact ⟨bigState 8192 65535, bigState_ready (by omega) (by omega) (by omega) (by omega), fun h => by
    have := h.1
    omega, by omega⟩

/-- BODY fits, and the file with its header does not. -/
theorem witness_EncodeEnds_fileTooLong : ∃ s : State, (Ready s ∧ configLegal s = true ∧ rasterReady s ∧ paletteReady s ∧
    ∀ a ∈ s.oracle, a = true) ∧ ¬ lengthsFit s ∧ ¬ 2 ^ 32 ≤ (imageBody s).length := by
  have hl := bigState_bodyLength (n := 8130) (h := 65512) (by omega) (by omega) (by omega) (by omega)
  have hr := bigState_ready (n := 8130) (h := 65512) (by omega) (by omega) (by omega) (by omega)
  refine ⟨bigState 8130 65512, hr, fun h => ?_, by omega⟩
  have hcm := imageCmap_length hr.2.2.2.1
  have := h.2
  simp only [imageChunks, imageHead, chunk, List.length_append, hcm, bigState_cmapCount, hl] at this
  simp [tagBody, tagCmap, tagBmhd, be32, imageBmhd, be16] at this
  omega

end Sys2Proof.Tests
end

section
/-!
The statements of 00_scope.md. `rowBytes` is the lower adjoint of `8 * ·` on the even numbers, from which both halves of
00 R6's formula follow: `rowBytes w` has a bit for every column, and is the least even number that has.
-/
namespace Sys2Proof.Proofs

open Sys2Proof.Machine Sys2Proof.Claims

theorem rowBytes_even (w : Nat) : rowBytes w % 2 = 0 := Nat.mul_mod_right 2 _

/-- With `n = 2 * k`, both sides say that `k` words of 16 columns hold `w` columns. -/
theorem rowBytes_le_iff {w n : Nat} (hn : n % 2 = 0) : rowBytes w ≤ n ↔ w ≤ 8 * n := by
  obtain ⟨k, rfl⟩ := Nat.dvd_of_mod_eq_zero hn
  have hwords : (w + 15) / 16 ≤ k ↔ w ≤ 16 * k := by omega
  rw [rowBytes, Nat.mul_le_mul_left_iff two_pos, hwords, ← Nat.mul_assoc]

/-- Settles O57: `rowBytes_le_iff` at `rowBytes w` itself gives the bit for every column, at any other even number that it
is the least. -/
theorem rowBytesIsLeastEven : Obligations.RowBytesIsLeastEven := fun w =>
  ⟨rowBytes_even w, (rowBytes_le_iff (rowBytes_even w)).mp le_rfl, fun _ hn => (rowBytes_le_iff hn).mpr, rfl, rfl⟩

end Sys2Proof.Proofs
end

section
/-!
The statements of 10_state.md: what the registers read (R26 to R28, R38), and that every step keeps the quiescent states
(R26 to R31 with 20 R60, R72 and 70 R250).

A step is a host action on a state from whose queue it was taken. A command goes through states that are not quiescent
themselves, as STATE is BUSY in them and the sink may be held; `Settles` says of such a state that nothing but STATE, PHASE
and the sink is in the way. Every part of a command keeps `Settles`, and both of its ends lead back to a quiescent state:
completion with the sink released, and a fault from anywhere.
-/
namespace Sys2Proof.Proofs

open Sys2Proof.Machine Sys2Proof.Claims

/-! ## The registers -/

theorem statusWord_toNat (s : State) :
    (statusWord s).toNat = (statusCode s.status).toNat + 4 * s.sinkOpen.toNat := by
  have bits : ∀ (b : Bool) (c : BitVec 2), ((0#29) ++ BitVec.ofBool b ++ c).toNat = c.toNat + 4 * b.toNat := by decide
  exact bits s.sinkOpen (statusCode s.status)

/-- FAULT_CHUNK is the low byte of its register and FAULT_PLANE the byte above it (10 R28). -/
theorem contextWord_toNat (plane chunk : Byte) :
    ((0#16) ++ plane ++ chunk).toNat = chunk.toNat + 256 * plane.toNat := by
  have hplane : ((0#16) ++ plane).toNat = plane.toNat := by
    rw [BitVec.toNat_append]
    simp
  rw [BitVec.toNat_append, hplane, ← Nat.shiftLeft_add_eq_or_of_lt chunk.isLt, Nat.shiftLeft_eq]
  omega

/-- CMD and the reserved numbers read 0 (10 R38). -/
theorem regRead_unused {n : BitVec 8} (h : n = 0 ∨ 14 ≤ n.toNat) (s : State) : regRead n s = 0 := by
  rcases h with rfl | h
  · rfl
  · obtain ⟨k, hk⟩ := Nat.exists_eq_add_of_le' h
    simp only [regRead, hk]

/-- Settles O52: each number by its own line of `regRead`; the two words that are put together, STATUS and the context, by
their values. -/
theorem registerMap : Obligations.RegisterMap := fun s => by
  refine ⟨?_, ?_, contextWord_toNat _ _, rfl, rfl, rfl, rfl, rfl, ?_, rfl, rfl, rfl, rfl, fun n h => regRead_unused h s⟩
  · refine (statusWord_toNat s).trans ?_
    cases s.status <;> rfl
  · exact BitVec.toNat_setWidth_of_le (by decide)
  · exact BitVec.toNat_setWidth_of_le (by decide)

/-! ## Between the two ends of a command -/

/-- Were the sink released and the command at its end, the state would be quiescent. -/
def Settles (s : State) : Prop := Quiescent (complete (sinkClose s))

theorem settles_of_ready {s : State} (hs : Ready s) (h : Quiescent s) : Settles s :=
  have hn : s.status ≠ .fault := by rcases hs with e | e <;> simp [e]
  { h with
    notBusy := nofun
    phaseIdle := rfl
    sinkReleased := rfl
    noContext := fun _ => h.noContext hn
    causeKnown := nofun }

theorem Settles.completed {s : State} (h : Settles s) (hc : s.sinkOpen = false) : Quiescent (complete s) :=
  { h with sinkReleased := hc }

/-- Taking a fault ends a command in a quiescent state (60 R222). -/
theorem Settles.raised {s : State} (h : Settles s) (c : Cause) (ctx : Context) (v : Word) :
    Quiescent (raiseFault c ctx v s) := by
  have he : raiseFault c ctx v s = { complete (sinkClose s) with
      cause := causeCode c, faultChunk := ctx.chunk, faultRow := ctx.row, faultPlane := ctx.plane, faultValue := v
      status := .fault } := by
    cases ho : s.sinkOpen <;> simp [raiseFault, releaseSink, complete, sinkClose, ho]
  rw [he]
  exact { h with
    notBusy := nofun
    noContext := fun hn => absurd rfl hn
    causeKnown := fun _ => ⟨c, rfl⟩ }

theorem Settles.seqFrame {s t : State} (h : Settles s) (hf : SeqFrame s t) (ha : StaysAtEnd s t) : Settles t := by
  rw [Settles, show t = _ from hf]
  exact { h with atEnd := ha h.atEnd }

theorem Settles.pixelFrame {s t : State} (h : Settles s) (hf : PixelFrame s t) (hp : PlnWithin t.pln) : Settles t := by
  rw [Settles, show t = _ from hf]
  exact { h with plnWf := hp.1, plnInside := hp.2 }

theorem Settles.plnDrawn {s : State} (h : Settles s) : Settles (drawPln s) :=
  { h with plnWf := drawPln_wf h.plnWf, plnInside := drawPln_inside h.plnInside }

/-! ## ENCODE -/

theorem ends_true (f : Flow) : f.Ends (fun _ => True) fun _ => True := by cases f <;> trivial

theorem ends_and {Q Q' R R' : State → Prop} {f : Flow} (h : f.Ends Q R) (h' : f.Ends Q' R') :
    f.Ends (fun t => Q t ∧ Q' t) fun t => R t ∧ R' t := by
  cases f with
  | go s => exact ⟨h, h'⟩
  | raised s => exact ⟨h, h'⟩
  | refused r => trivial

/-- The sequence's last step closes the sink (43 R184). -/
theorem chsWrite_closes (s : State) : (chsWrite s).Ends (fun t => t.sinkOpen = false) fun _ => True :=
  andThen_ends (ends_true _) fun t _ => andThen_ends (ends_true (chsFormFix t)) fun _ _ => rfl

theorem Settles.chsWrite_ends {s : State} (h : Settles s) :
    (chsWrite s).Ends (fun t => Settles t ∧ t.sinkOpen = false) Quiescent := by
  refine (ends_and (chsWrite_seqEnds s) (chsWrite_closes s)).mono ?_ ?_
  · rintro t ⟨⟨hf, ha⟩, hc⟩
    exact ⟨h.seqFrame hf ha, hc⟩
  · rintro t ⟨⟨c, ctx, v, u, n, rfl, hf, ha⟩, -⟩
    have hu : Settles u := h.seqFrame hf ha
    have hn : Settles { u with freeTick := n } := { hu with }
    exact hn.raised c ctx v

/-- The values that mode selection gives NPLANES and ROWBYTES are those of 00 R6. -/
theorem encodeBegun_sized {s : State} (hl : configLegal s = true) : PlanesSized (encodeBegun s) := by
  have hp := planeCount_le hl
  have hr := rowBytes_le hl
  refine ⟨(?_ : (BitVec.ofNat 32 (planeCount s)).toNat ≤ 8),
    (?_ : (BitVec.ofNat 32 (rowBytes s.width.toNat)).toNat ≤ 8192)⟩ <;> rw [BitVec.toNat_ofNat] <;> omega

theorem Settles.begun {s : State} (h : Settles s) (hl : configLegal s = true) : Settles (encodeBegun s) := by
  have he : (encodeBegun s).rowbytes.toNat % 2 = 0 := by
    show (BitVec.ofNat 32 (rowBytes s.width.toNat)).toNat % 2 = 0
    have := rowBytes_even s.width.toNat
    rw [BitVec.toNat_ofNat]
    omega
  obtain ⟨hp, hr⟩ := encodeBegun_sized hl
  exact { h with planesBound := hp, rowbytesBound := hr, rowbytesEven := he }

theorem Settles.runEncode_ends {s : State} (h : Settles s) : (runEncode s).Ends Quiescent Quiescent := by
  by_cases hl : configLegal s = true
  · rw [runEncode_legal hl]
    obtain ⟨-, ⟨-, hh⟩, -⟩ := configLegal_bounds hl
    refine andThen_ends (andThen_ends (P := Settles) ?_ fun t ht => ht.chsWrite_ends) fun t ht => ht.1.completed ht.2
    rcases encodePixels_cases (encodeBegun s) hh with ⟨t, he, hf, hp, -⟩ | ⟨r, he, -⟩
    · have hb : Settles { encodeBegun s with phase := .pixels } := { h.begun hl with }
      rw [he]
      exact hb.pixelFrame hf (hp (encodeBegun_sized hl))
    · rw [he]
      trivial
  · obtain ⟨c, v, he, -⟩ := runEncode_illegal hl
    have hb : Settles { s with status := .busy, phase := .validate } := { h with }
    rw [he]
    exact hb.plnDrawn.raised c {} v

/-! ## The RLE commands -/

/-- A row grows to no more than its double, so what it becomes fits ROWOUT's `2 * ROW_CAP` bytes (20 R60): a turn emits at
most two bytes for each that it consumes. -/
theorem compress_length_le (row : List Byte) : (compress row).length ≤ 2 * row.length := by
  induction row using turn_induction with
  | h0 => simp
  | h b bs ih =>
    have hturn : (turnBlock (b :: bs)).length ≤ 2 * turnLength (b :: bs) := by
      have hl := literalLength_bounds b bs
      simp only [turnBlock, turnLength, Config.rleMinRun]
      split
      · simp
      · split <;> simp <;> omega
    have hlen := (turnLength_bounds b bs).2.1
    rw [List.length_drop] at ih
    rw [compress_cons, List.length_append]
    simp only [List.length_cons] at ih ⊢
    omega

theorem readRow_length_le {s : State} {row : List Byte} (h : readRow s = .ok row) : row.length ≤ Config.rowCap := by
  unfold readRow at h
  split at h
  · cases h
  · rename_i hcap
    split at h
    · cases h
    · rename_i hr
      cases h
      rw [(memReadList_some hr).1]
      exact Nat.le_of_not_lt hcap

/-- A result that fits ROWOUT leaves the memory in its space and defined below OUTLEN (40 R132, R133). -/
theorem Settles.rleFinished {s : State} (h : Settles s) (hc : s.sinkOpen = false) {r : RlcRegs}
    (hr : r.out.length ≤ 2 * Config.rowCap) : Quiescent (finishRle r (beginRle s)) :=
  { h with
    sinkReleased := hc
    rowoutWf := memWriteList_wf h.rowoutWf 0 r.out
    rowoutInside := fun e he => by
      rcases memWriteList_key he with hk | hk
      · omega
      · exact h.rowoutInside e hk
    rowoutDefined := fun i hi => by
      have hi : i < r.out.length := Nat.lt_of_lt_of_le hi (Nat.mod_le _ _)
      show (memRead (memWriteList s.rowout 0 r.out) i).isSome = true
      rw [memRead_memWriteList, if_pos (by omega)]
      simpa using hi }

theorem Settles.runRleCompress_ends {s : State} (h : Settles s) (hc : s.sinkOpen = false) :
    (runRleCompress s).Ends Quiescent Quiescent := by
  unfold runRleCompress
  split
  · trivial
  · rename_i row hrow
    refine h.rleFinished hc ?_
    have := compress_length_le row
    have := readRow_length_le hrow
    rw [compressRegs_out]
    omega

theorem Settles.runRleDecompress_ends {s : State} (h : Settles s) (hc : s.sinkOpen = false) :
    (runRleDecompress s).Ends Quiescent Quiescent := by
  unfold runRleDecompress
  split
  · trivial
  · split
    · rename_i r _
      have hb : Settles { beginRle s with rlc := r } := { h with }
      exact hb.raised _ _ _
    · split
      · trivial
      · rename_i hfits
        exact h.rleFinished hc (Nat.le_of_not_lt hfits)

/-! ## Commands -/

/-- The runs of the commands that only IDLE and DONE accept (44 R196). -/
def workingRuns : List (State → Flow) := [runEncode, runRleCompress, runRleDecompress]

theorem Settles.workingRun_ends {s : State} (h : Settles s) (hc : s.sinkOpen = false) {f : State → Flow}
    (hf : f ∈ workingRuns) : (f s).Ends Quiescent Quiescent := by
  simp only [workingRuns, List.mem_cons, List.not_mem_nil, or_false] at hf
  rcases hf with rfl | rfl | rfl
  · exact h.runEncode_ends
  · exact h.runRleCompress_ends hc
  · exact h.runRleDecompress_ends hc

/-- What a command that answers a next state did (44 R196): nothing, CLEAR's work, or the run of a working command that
was accepted. -/
theorem exec_cmd_next {i : Instr} {s t : State} (hi : i.space = .cmd) (h : exec i s = .next t) :
    t = s ∨ t = clearFault s ∨ Ready s ∧ ∃ f ∈ workingRuns, (f s).outcome = .next t := by
  have accepted : ∀ f ∈ workingRuns, whenAccepted (fun s => (f s).outcome) s = .next t →
      t = s ∨ t = clearFault s ∨ Ready s ∧ ∃ f ∈ workingRuns, (f s).outcome = .next t := by
    intro f hf h
    rcases whenAccepted_next h with ⟨hs, h⟩ | ⟨-, h⟩
    · exact .inr (.inr ⟨hs, f, hf, h⟩)
    · exact .inl h
  cases i with
  | encode => exact accepted runEncode (by simp [workingRuns]) h
  | rleCompress => exact accepted runRleCompress (by simp [workingRuns]) h
  | rleDecompress => exact accepted runRleDecompress (by simp [workingRuns]) h
  | clear =>
    simp only [exec, execClear] at h
    split at h
    · cases h
    · cases h
      exact .inr (.inl rfl)
  | nop | reserved05 | reserved0607 | reserved080F | reserved101F | reserved203F | reserved407F | reserved80FF =>
    cases h
    exact .inl rfl
  | br1Lit | br1Nop | br1Rep | ham6Set | ham6ModB | ham6ModR | ham6ModG | iffForm | iffIlbm | iffBmhd | iffCamg | iffCmap
  | iffBody => cases hi

/-- The return from a fault (60 R226). -/
theorem clearFault_quiescent {s : State} (h : Quiescent s) : Quiescent (clearFault s) :=
  { h with
    notBusy := nofun
    noContext := fun _ => ⟨rfl, rfl, rfl, rfl, rfl⟩
    causeKnown := nofun }

theorem exec_cmd_keeps_quiescent {i : Instr} {s t : State} (hi : i.space = .cmd) (hq : Quiescent s)
    (h : exec i s = .next t) : Quiescent t := by
  rcases exec_cmd_next hi h with rfl | rfl | ⟨hs, f, hf, h⟩
  · exact hq
  · exact clearFault_quiescent hq
  · exact ends_of_outcome ((settles_of_ready hs hq).workingRun_ends hq.sinkReleased hf) h

theorem decodeCmd_space (c : Byte) : (decodeCmd c).space = .cmd := by
  unfold decodeCmd
  repeat' split
  all_goals rfl

/-! ## Host actions that are no command -/

/-- A register write changes nothing but the configuration registers (44 R199). -/
theorem regWrite_frame (n : BitVec 8) (v : Word) (s : State) :
    ∃ w h p c r, regWrite n v s = { s with width := w, height := h, palsize := p, ctrl := c, rowlen := r } := by
  unfold regWrite
  split <;> exact ⟨_, _, _, _, _, rfl⟩

theorem regWrite_quiescent {s : State} (hq : Quiescent s) (n : BitVec 8) (v : Word) : Quiescent (regWrite n v s) := by
  obtain ⟨w, h, p, c, r, he⟩ := regWrite_frame n v s
  rw [he]
  exact { hq with }

theorem readElement_keeps_quiescent {α : Type} {v : Option α} {r : Refusal} {ret : α → Returned} {s t : State}
    (hq : Quiescent s) (h : readElement v r ret s = .next t) : Quiescent t := by
  cases v with
  | none => cases h
  | some a =>
    cases h
    exact { hq with }

theorem pixelDefined_quiescent {s : State} (hq : Quiescent s) (x y : BitVec 16) (v : Pixel) :
    Quiescent (pixelDefined x y v s) :=
  { hq with
    pixWf := memWrite_wf hq.pixWf _ _
    pixInside := fun e he => by
      rcases memWrite_key he with rfl | he
      · exact pixKey_lt x.isLt y.isLt
      · exact hq.pixInside e he
    pixInRaster := pixelDefined_inRaster hq.pixInRaster x y v }

/-- A hardware reset keeps the host's raster, OUT and queue, of which the quiescent states say the same after it as before
it, and brings the block's own state to the reset state's (70 R245). -/
theorem hardwareReset_quiescent {s : State} (hq : Quiescent s) : Quiescent (hardwareReset s) :=
  { hq with
    notBusy := nofun
    phaseIdle := rfl
    sinkReleased := rfl
    noContext := fun _ => ⟨rfl, rfl, rfl, rfl, rfl⟩
    causeKnown := nofun
    palWf := .nil
    plnWf := .nil
    rowinWf := .nil
    rowoutWf := .nil
    plnInside := nofun
    palInside := nofun
    rowinInside := nofun
    rowoutInside := nofun
    rowoutDefined := nofun
    planesBound := Nat.zero_le _
    rowbytesBound := Nat.zero_le _
    rowbytesEven := rfl }

theorem hostAccess_keeps_quiescent {a : HostAction} {s t : State} (hq : Quiescent s) (h : hostAccess a s = .next t) :
    Quiescent t := by
  cases a with
  | regWrite n v => cases h; exact regWrite_quiescent hq n v
  | regRead n => cases h; exact { hq with }
  | palWrite i c =>
    cases h
    exact { hq with
      palWf := memWrite_wf hq.palWf _ _
      palInside := fun e he => by
        rcases memWrite_key he with rfl | he
        · exact i.isLt
        · exact hq.palInside e he }
  | palRead i => exact readElement_keeps_quiescent hq h
  | rowinWrite i v =>
    simp only [hostAccess] at h
    split at h
    · rename_i hi
      cases h
      exact { hq with
        rowinWf := memWrite_wf hq.rowinWf _ _
        rowinInside := fun e he => by
          rcases memWrite_key he with rfl | he
          · exact hi
          · exact hq.rowinInside e he }
    · cases h
  | rowinRead i | rowoutRead i =>
    simp only [hostAccess] at h
    split at h
    · exact readElement_keeps_quiescent hq h
    · cases h
  | rowoutWrite i v => cases h; exact hq
  | plnWrite p y b v => cases h; exact hq
  | plnRead p y b => exact readElement_keeps_quiescent hq h
  | rasterProvide w h' => cases h; exact { hq with pixWf := .nil, pixInside := nofun, pixInRaster := nofun }
  | pixDefine x y v => cases h; exact pixelDefined_quiescent hq x y v
  | setOracle answers => cases h; exact { hq with }
  | hardReset => cases h; exact hardwareReset_quiescent hq
  | unit sp bytes => cases h

/-! ## The step -/

/-- An action of the spec's host that answers a next state is a command, after which the answers left over are dropped, or
an access of the port. -/
theorem perform_host_next {a : HostAction} {s t : State} (ha : a.isHost = true) (h : perform a s = .next t) :
    (∃ c u, exec (decodeCmd c) s = .next u ∧ t = { u with oracle := [] }) ∨ hostAccess a s = .next t := by
  unfold perform at h
  split at h
  · cases h
  · split at h
    · rename_i sp bytes hf
      have hcmd : ∃ c, sp = .cmd ∧ bytes = [c] := by
        cases a with
        | regWrite n v =>
          simp only [fetch] at hf
          split at hf
          · cases hf
            exact ⟨_, rfl, rfl⟩
          · cases hf
        | unit => cases ha
        | _ => cases hf
      obtain ⟨c, rfl, rfl⟩ := hcmd
      simp only [runFetched, decode, ha, if_true] at h
      cases he : exec (decodeCmd c) s with
      | next u =>
        rw [he] at h
        cases h
        exact .inl ⟨c, u, he, rfl⟩
      | fault f => rw [he] at h; cases h
      | refused r => rw [he] at h; cases h
    · exact .inr h

/-- Settles O60: a step takes an action off the queue, and a command, or an access of the port, leads from one quiescent
state to the next. -/
theorem stepKeepsQuiescent : Obligations.StepKeepsQuiescent := by
  intro s t hq h
  unfold step at h
  split at h
  · cases h
    exact hq
  · rename_i a rest hp
    have hrest : Quiescent { s with pending := rest } :=
      { hq with hostOnly := fun b hb => hq.hostOnly b (hp ▸ List.mem_cons_of_mem a hb) }
    have ha : a.isHost = true := hq.hostOnly a (hp ▸ List.mem_cons_self)
    rcases perform_host_next ha h with ⟨c, u, he, rfl⟩ | h
    · exact { exec_cmd_keeps_quiescent (decodeCmd_space c) hrest he with }
    · exact hostAccess_keeps_quiescent hrest h

end Sys2Proof.Proofs
end

section
/-!
The statements of 20_memory.md: where the column of a pixel lies in its plane-row (R66), what a failed sink operation leaves
in OUT (R70, R71, R73), and that the host has no move while STATE is BUSY (R79).

Laws/Sink.lean says what OUT holds where an operation of the sink fails; `ioFailure_eq_with` adds every register of the fault
state it raises. ENCODE comes to its sink only through pixel encoding, which goes on wherever the raster is provided
(`encodePixels_goes`).
-/
namespace Sys2Proof.Proofs

open Sys2Proof.Machine Sys2Proof.Claims

/-! ## The host while STATE is BUSY -/

/-- Settles O10: the queue holds a host action, and a host action performed in BUSY takes the first branch of `perform`. -/
theorem hostHasNoMoveWhileBusy : Obligations.HostHasNoMoveWhileBusy := by
  intro s a rest hbusy hhost hpending
  simp only [step, hpending]
  exact if_pos ⟨hhost, hbusy⟩

/-! ## Columns of a plane-row -/

/-- Settles O28: bit `i` of byte `b` is that of column `8 b + (7 - i)`, which is `x` at `b = x / 8` and `i = 7 - x % 8`. -/
theorem columnBitPosition : Obligations.ColumnBitPosition := by
  intro codes p x
  have hbit : 7 - x % 8 < 8 := by omega
  have hcolumn : 8 * (x / 8) + (7 - (7 - x % 8)) = x := by omega
  rw [planeByte_getLsbD, hcolumn, decide_eq_true hbit, Bool.true_and]

/-! ## A sink operation that fails -/

/-- Taking a fault, field by field: the sink is not held after it, whether or not it was before (60 R222). -/
theorem raiseFault_eq_with (c : Cause) (ctx : Context) (v : Word) (s : State) :
    raiseFault c ctx v s = { s with
      cause := causeCode c, faultChunk := ctx.chunk, faultRow := ctx.row, faultPlane := ctx.plane, faultValue := v
      status := .fault, phase := .idle, sinkOpen := false } := by
  cases hopen : s.sinkOpen <;> simp [raiseFault, releaseSink, sinkClose, hopen]

/-- IOFailure, field by field, where the length of OUT fits FAULT_VALUE (60 R218, log 7). -/
theorem ioFailure_eq_with (ctx : Context) {s : State} {len : Nat} (hlen : s.out.length = len) (hfits : len < 2 ^ 32) :
    ioFailure ctx s = { s with
      cause := 3, faultChunk := ctx.chunk, faultRow := ctx.row, faultPlane := ctx.plane
      faultValue := BitVec.ofNat 32 len, status := .fault, phase := .idle, sinkOpen := false } := by
  subst hlen
  rw [ioFailure, if_pos hfits, raiseFault_eq_with]
  rfl

/-- An append that fails at byte `k`, field by field (20 R71, 60 R222). -/
theorem appendAll_failAt (ctx : Context) (bs : List Byte) {s : State} {k : Nat} (hend : s.wpos = s.out.length)
    (hk : k < bs.length) (hfail : FailAt k s) (hfits : s.out.length + k < 2 ^ 32) :
    appendAll ctx bs s = .raised { s with
      out := s.out ++ bs.take k, wpos := s.wpos + k, oracle := s.oracle.drop (k + 1)
      cause := 3, faultChunk := ctx.chunk, faultRow := ctx.row, faultPlane := ctx.plane
      faultValue := BitVec.ofNat 32 (s.out.length + k), status := .fault, phase := .idle, sinkOpen := false } := by
  have hlen : (s.out ++ bs.take k).length = s.out.length + k := by
    rw [List.length_append, List.length_take_of_le hk.le]
  rw [appendAll_no ctx bs hend hk hfail, ioFailure_eq_with ctx hlen hfits]

/-- A patch that fails at its operation `k`, field by field (20 R73, 60 R222): the reposition is operation 0, so `k - 1`
bytes were written. -/
theorem sinkPatch32_failAt (ctx : Context) {off v k : Nat} {s : State} (hoff : off + 4 ≤ s.out.length) (hv : v < 2 ^ 32)
    (hk : k < 6) (hfail : FailAt k s) (hfits : s.out.length < 2 ^ 32) :
    sinkPatch32 ctx off v s = .raised { s with
      out := overwrite s.out off ((be32 v).take (k - 1)), wpos := s.out.length, oracle := s.oracle.drop (k + 1)
      cause := 3, faultChunk := ctx.chunk, faultRow := ctx.row, faultPlane := ctx.plane
      faultValue := BitVec.ofNat 32 s.out.length, status := .fault, phase := .idle, sinkOpen := false } := by
  rw [sinkPatch32_no ctx hoff hv hk hfail, ioFailure_eq_with ctx (overwrite_length _ _ _) hfits]

/-- The bytes of OUT after the first `n` bytes of a list were written over it. -/
theorem overwrite_take_getElem? {out bs : List Byte} {off n i : Nat} (hn : n ≤ bs.length) (hi : i < out.length) :
    (overwrite out off (bs.take n))[i]? = if off ≤ i ∧ i < off + n then bs[i - off]? else out[i]? := by
  rw [overwrite_get _ _ _ _ hi, List.length_take_of_le hn]
  refine ite_congr rfl (fun hin => ?_) fun _ => rfl
  exact List.getElem?_take_of_lt (by omega)

/-- Settles O36: an append and a patch each by their rule, and IFF.BMHD as one append under the context BMHD. -/
theorem failedAppendKeepsTheBytesBefore : Obligations.FailedAppendKeepsTheBytesBefore := by
  refine ⟨fun ctx bs s k hend hk hfail hfits => appendAll_failAt ctx bs hend hk hfail hfits, ?_, ?_⟩
  · intro ctx off v s k hoff hv hk hfail hfits
    refine ⟨_, sinkPatch32_failAt ctx hoff hv hk hfail hfits, overwrite_length _ _ _, fun i hi => ?_, rfl⟩
    have hwritten : k - 1 ≤ (be32 v).length := show k - 1 ≤ 4 by omega
    exact overwrite_take_getElem? hwritten hi
  · intro s k hend hk hfail hfits
    have happend : chsBmhd s = .raised _ :=
      appendAll_failAt ctxBmhd (tagBmhd ++ be32 20 ++ bmhdPayload s) (s := { s with phase := .bmhd }) hend hk hfail hfits
    exact ⟨_, congrArg Flow.outcome happend, rfl, rfl⟩

/-! ## ENCODE up to its sink -/

theorem pixelFrame_of_rowDone {s t : State} {n y : Nat} {codes : List Byte} (h : RowDone s n y codes t) : PixelFrame s t := by
  rw [PixelFrame, h.rest]

/-- Pixel encoding goes on where the raster is provided: every row finds the pixels MODE reads (44 R205). -/
theorem encodePixels_goes {s : State} (hw : s.width.toNat ≤ 65535) (hh : s.height.toNat ≤ 65535) (hr : rasterReady s) :
    ∃ t, encodePixels s = .go t ∧ PixelFrame { s with phase := .pixels } t := by
  obtain ⟨hsize, hfits⟩ := hr
  have hrow : ∀ y < s.height.toNat, ∀ t, PixelFrame { s with phase := .pixels } t →
      ∃ u, (if isHam s then hamRow else bpeRow) y t = .go u ∧ PixelFrame { s with phase := .pixels } u := by
    intro y hy t ht
    have hread : ∀ x, pixRead t x y = pixRead s x y := fun x => congrArg (fun m => memRead m (pixKey x y)) ht.pix
    have htw : t.width.toNat = s.width.toNat := congrArg BitVec.toNat ht.width
    have hy16 : y < 2 ^ 16 := by omega
    have hw16 : t.width.toNat < 2 ^ 16 := by omega
    have hpix : ∀ x < t.width.toNat, pixelFits s (pixRead t x y) = true := fun x hx => by
      rw [hread]
      exact hfits x (htw ▸ hx) y hy
    cases hm : isHam s with
    | true =>
      obtain ⟨u, hu, hdone⟩ := hamRow_goes hy16 hw16 fun x hx => pixelFits_colour (hpix x hx) hm
      exact ⟨u, hu, ht.trans (pixelFrame_of_rowDone hdone)⟩
    | false =>
      obtain ⟨u, hu, hdone⟩ := bpeRow_goes hy16 hw16 fun x hx => pixelFits_index (hpix x hx) hm
      exact ⟨u, hu, ht.trans (pixelFrame_of_rowDone hdone)⟩
  simp only [encodePixels, hsize, Bool.true_eq_false, if_false]
  cases hm : isHam s with
  | true | false =>
    simp only [hm, if_true, Bool.false_eq_true, if_false] at hrow
    exact forEach_range_goes (P := fun _ => PixelFrame { s with phase := .pixels }) _ rfl hrow

/-- Pixel encoding keeps what ENCODE keeps. -/
theorem encodeKeeps_of_pixelFrame {s t : State} (h : PixelFrame { encodeBegun s with phase := .pixels } t) :
    EncodeKeeps s t := by
  rw [show t = _ from h]
  exact ⟨rfl, rfl, rfl, rfl, rfl, rfl, rfl, rfl, rfl, rfl, rfl, rfl, rfl, rfl⟩

/-- The sequence where the sink cannot be created, field by field: nothing was written, and one answer is used up (20 R70,
43 R167). -/
theorem chsWrite_failAtOpen {s : State} (hfail : FailAt 0 s) (hfits : s.out.length < 2 ^ 32) :
    chsWrite s = .raised { s with
      oracle := s.oracle.tail, cause := 3, faultChunk := 1, faultRow := 0, faultPlane := 0
      faultValue := BitVec.ofNat 32 s.out.length, status := .fault, phase := .idle, sinkOpen := false } := by
  have hno : sinkAnswer s = false := firstNo_zero.mp hfail
  rcases chsOpen_cases s with ⟨hyes, -⟩ | ⟨-, hopen⟩
  · rw [hno] at hyes
    cases hyes
  · rw [chsWrite_eq, hopen, andThen_raised,
      ioFailure_eq_with ctxOpen (s := { s with phase := .openSink, oracle := s.oracle.tail }) rfl hfits]
    rfl

/-- Settles O45: pixel encoding goes on and leaves OUT and the answers as they were, so the answer that fails is the one
step 0 of the sequence gets. -/
theorem openFailureLeavesOut : Obligations.OpenFailureLeavesOut := by
  intro s hs hl hr hfail hfits
  obtain ⟨⟨-, hw⟩, ⟨-, hh⟩, -⟩ := configLegal_bounds hl
  obtain ⟨t, hgo, hf⟩ := encodePixels_goes (s := encodeBegun s) hw hh hr
  have hout : t.out = s.out := by rw [hf]; rfl
  have horacle : t.oracle = s.oracle := by rw [hf]; rfl
  have hwrite := chsWrite_failAtOpen (s := t) (by rwa [FailAt, horacle]) (by rwa [hout])
  rw [hout, horacle] at hwrite
  have hexec := exec_encode hs
  rw [runEncode_legal hl, hgo, andThen_go, hwrite, andThen_raised, outcome_raised] at hexec
  have hkeeps : EncodeKeeps s t := encodeKeeps_of_pixelFrame hf
  exact ⟨_, hexec, rfl, rfl, rfl, rfl, rfl, rfl, rfl, rfl, rfl, hkeeps⟩

end Sys2Proof.Proofs
end

section
/-!
The statements of 30_encoding.md: the decoder and the encoder undo each other in the four code spaces (R91, R93, R96, R99),
a write to CMD runs the command its byte decodes to, and HAM6.SET has no meaning (R97).

A code is its fixed high bits with the operand below them, so a byte whose high bits are those of a row is the encoding of the
row at its own low bits (`append_lowBits`). The two round trips are put together from one lemma a code space each way.
-/
namespace Sys2Proof.Proofs

open Sys2Proof.Machine

/-! ## High and low bits of a byte -/

/-- A word is its high bits, whatever they are known to be, followed by its low bits. -/
theorem append_lowBits {m k : Nat} {c : BitVec (m + k)} {hi : BitVec m} (h : c.extractLsb' k m = hi) :
    hi ++ c.extractLsb' 0 k = c :=
  h ▸ BitVec.extractLsb'_append_extractLsb'

/-- The highest bit of a byte tells whether its value is above 127. -/
theorem highBit_eq (c : Byte) : c.extractLsb' 7 1 = if c.toNat ≤ 127 then 0 else 1 := by
  have hc := c.isLt
  rw [← BitVec.toNat_inj, BitVec.extractLsb'_toNat, Nat.shiftRight_eq_div_pow]
  split
  · show c.toNat / 128 % 2 = 0
    omega
  · show c.toNat / 128 % 2 = 1
    omega

theorem litByte_lowBits {c : Byte} (h : c.toNat ≤ 127) : (0b0#1) ++ c.extractLsb' 0 7 = c :=
  append_lowBits ((highBit_eq c).trans (if_pos h))

theorem repByte_lowBits {c : Byte} (h : ¬ c.toNat ≤ 127) : (0b1#1) ++ c.extractLsb' 0 7 = c :=
  append_lowBits ((highBit_eq c).trans (if_neg h))

/-- A byte that holds a 6-bit code is the two class bits under two clear ones, followed by the operand (R96). -/
theorem ham6Byte_lowBits {c : Byte} {k : BitVec 2} {hi : BitVec 4} (h6 : c.extractLsb' 6 2 = 0)
    (hk : c.extractLsb' 4 2 = k) (hhi : 0#2 ++ k = hi) : hi ++ c.extractLsb' 0 4 = c := by
  have hhigh : c.extractLsb' 6 2 ++ c.extractLsb' 4 2 = c.extractLsb' 4 4 :=
    BitVec.extractLsb'_append_extractLsb'_eq_extractLsb' rfl
  rw [h6, hk] at hhigh
  exact append_lowBits (hhigh.symm.trans hhi)

/-! ## Decoding what was encoded -/

theorem decode_encode_cmd {i : Instr} (hi : i.space = .cmd) (rest : List Byte) :
    decode .cmd (encode i ++ rest) = .ok (i, rest) := by
  have hcmd : ∃ c, encode i = [c] ∧ decodeCmd c = i := by
    cases i with
    | nop | encode | rleCompress | rleDecompress | clear | reserved05 => exact ⟨_, rfl, by decide⟩
    | reserved0607 lo | reserved080F lo | reserved101F lo | reserved203F lo | reserved407F lo | reserved80FF lo =>
      refine ⟨_, rfl, ?_⟩
      revert lo
      decide
    | _ => cases hi
  obtain ⟨c, he, hd⟩ := hcmd
  rw [he, List.singleton_append, decode, hd]

/-- A LIT block reads its `n + 1` data bytes (R93). -/
theorem decodeBr1_lit {n : BitVec 7} {data : List Byte} (hlen : data.length = n.toNat + 1) (rest : List Byte) :
    decodeBr1 ((0b0#1) ++ n) (data ++ rest) = .ok (.br1Lit n data, rest) := by
  have hn : n.toNat ≤ 127 := Nat.le_of_lt_succ n.isLt
  have hlow : BitVec.extractLsb' 0 7 ((0b0#1) ++ n : Byte) = n := BitVec.extractLsb'_append_eq_right
  have hfits : ¬ (data ++ rest).length < data.length := by simp
  simp only [decodeBr1, litByte_toNat, if_pos hn, ← hlen, if_neg hfits, hlow, List.take_left, List.drop_left]

/-- A REP block reads its data byte; its control byte is never that of NOP (R93). -/
theorem decodeBr1_rep {n : BitVec 7} (hn : n ≠ 0) (data : Byte) (rest : List Byte) :
    decodeBr1 ((0b1#1) ++ n) (data :: rest) = .ok (.br1Rep n data, rest) := by
  have hlow : BitVec.extractLsb' 0 7 ((0b1#1) ++ n : Byte) = n := BitVec.extractLsb'_append_eq_right
  have hlit : ¬ 128 + n.toNat ≤ 127 := by omega
  have hnop : ((0b1#1) ++ n : Byte) ≠ 0x80 := fun h => hn (hlow.symm.trans (congrArg (BitVec.extractLsb' 0 7) h))
  simp only [decodeBr1, repByte_toNat, if_neg hlit, if_neg hnop, hlow]

theorem decode_encode_br1 {i : Instr} (hi : i.space = .br1) (hw : i.wellFormed = true) (rest : List Byte) :
    decode .br1 (encode i ++ rest) = .ok (i, rest) := by
  cases i with
  | br1Lit n data => exact decodeBr1_lit (by simpa [Instr.wellFormed] using hw) rest
  | br1Nop => rfl
  | br1Rep n data => exact decodeBr1_rep (by simpa [Instr.wellFormed] using hw) data rest
  | _ => cases hi

theorem decode_encode_ham6 {i : Instr} (hi : i.space = .ham6) (rest : List Byte) :
    decode .ham6 (encode i ++ rest) = .ok (i, rest) := by
  have hham : ∃ c, encode i = [c] ∧ decodeHam6 c = .ok i := by
    cases i with
    | ham6Set d | ham6ModB d | ham6ModR d | ham6ModG d =>
      refine ⟨_, rfl, ?_⟩
      revert d
      decide
    | _ => cases hi
  obtain ⟨c, he, hd⟩ := hham
  rw [he, List.singleton_append, decode, hd]
  rfl

theorem decode_encode_iff {i : Instr} (hi : i.space = .iff) (rest : List Byte) :
    decode .iff (encode i ++ rest) = .ok (i, rest) := by
  cases i with
  | iffForm | iffIlbm | iffBmhd | iffCamg | iffCmap | iffBody => rfl
  | _ => cases hi

/-- Settles O1: by code space; well-formedness says something of BR1 alone. -/
theorem decodeOfEncodeIsTheInstruction : Obligations.DecodeOfEncodeIsTheInstruction := by
  intro i rest hw
  cases hi : i.space with
  | cmd => exact decode_encode_cmd hi rest
  | br1 => exact decode_encode_br1 hi hw rest
  | ham6 => exact decode_encode_ham6 hi rest
  | iff => exact decode_encode_iff hi rest

/-! ## Encoding what was decoded -/

/-- Outside BR1 an element's fields are exactly its free bits. -/
theorem wellFormed_of_space_ne_br1 {i : Instr} (h : i.space ≠ .br1) : i.wellFormed = true := by
  cases i with
  | br1Lit | br1Nop | br1Rep => exact absurd rfl h
  | _ => rfl

/-- Outside BR1 the encoding and the code space are all there is to say of an element that was read. -/
theorem reads_of_encode {sp : CodeSpace} {i : Instr} {bs : List Byte} (hsp : sp ≠ .br1) (hspace : i.space = sp)
    (hbytes : encode i = bs) (rest : List Byte) :
    i.wellFormed = true ∧ i.space = sp ∧ bs ++ rest = encode i ++ rest :=
  ⟨wellFormed_of_space_ne_br1 (hspace ▸ hsp), hspace, by rw [hbytes]⟩

/-- Every row of CMD encodes to the byte it was read from; the byte that no other row takes is above 127 (R91, R92). -/
theorem encode_decodeCmd (c : Byte) : encode (decodeCmd c) = [c] := by
  fun_cases decodeCmd c with
  | case1 | case2 | case3 | case4 | case5 | case6 =>
    rename_i h
    exact congrArg List.singleton h.symm
  | case7 | case8 | case9 | case10 | case11 =>
    rename_i h
    exact congrArg List.singleton (append_lowBits h)
  | case12 =>
    have hhigh : ¬ c.toNat ≤ 127 := by
      simp only [← BitVec.toNat_inj, BitVec.ofNat_eq_ofNat, BitVec.toNat_ofNat, BitVec.extractLsb'_toNat] at *
      omega
    exact congrArg List.singleton (repByte_lowBits hhigh)

/-- What a BR1 block reads (R93). -/
theorem decodeBr1_ok {c : Byte} {bs rest : List Byte} {i : Instr} (h : decodeBr1 c bs = .ok (i, rest)) :
    i.wellFormed = true ∧ i.space = .br1 ∧ c :: bs = encode i ++ rest := by
  unfold decodeBr1 at h
  split_ifs at h with hlit hshort hnop
  case neg =>
    cases h
    have hc := litByte_lowBits hlit
    have hn : (c.extractLsb' 0 7).toNat = c.toNat := by rw [← litByte_toNat, hc]
    have hlen : (bs.take (c.toNat + 1)).length = c.toNat + 1 := List.length_take_of_le (Nat.le_of_not_lt hshort)
    refine ⟨?_, rfl, ?_⟩
    · rw [Instr.wellFormed, hlen, hn, beq_self_eq_true]
    · rw [encode, hc, List.cons_append, List.take_append_drop]
  case pos =>
    cases h
    exact ⟨rfl, rfl, congrArg (· :: bs) hnop⟩
  case neg =>
    have hc := repByte_lowBits hlit
    have hn : c.extractLsb' 0 7 ≠ 0 := fun hn => hnop (by rw [← hc, hn]; rfl)
    cases bs with
    | nil => cases h
    | cons b bs =>
      cases h
      exact ⟨bne_iff_ne.mpr hn, rfl, congrArg (· :: b :: rest) hc.symm⟩

/-- What a byte of HAM6 reads (R96). -/
theorem decodeHam6_ok {c : Byte} {i : Instr} (h : decodeHam6 c = .ok i) : i.space = .ham6 ∧ encode i = [c] := by
  unfold decodeHam6 at h
  split_ifs at h with h6 h0 h1 h2
  all_goals have hclear := not_not.mp h6
  · cases h
    exact ⟨rfl, congrArg List.singleton (ham6Byte_lowBits hclear h0 rfl)⟩
  · cases h
    exact ⟨rfl, congrArg List.singleton (ham6Byte_lowBits hclear h1 rfl)⟩
  · cases h
    exact ⟨rfl, congrArg List.singleton (ham6Byte_lowBits hclear h2 rfl)⟩
  · have h3 := (by decide : ∀ k : BitVec 2, k ≠ 0 → k ≠ 1 → k ≠ 2 → k = 3) _ h0 h1 h2
    cases h
    exact ⟨rfl, congrArg List.singleton (ham6Byte_lowBits hclear h3 rfl)⟩

/-- What a tag reads (R99). -/
theorem decodeTag_ok {t : List Byte} {i : Instr} (h : decodeTag t = .ok i) : i.space = .iff ∧ encode i = t := by
  unfold decodeTag at h
  split_ifs at h with hform hilbm hbmhd hcamg hcmap hbody
  · cases h; exact ⟨rfl, hform.symm⟩
  · cases h; exact ⟨rfl, hilbm.symm⟩
  · cases h; exact ⟨rfl, hbmhd.symm⟩
  · cases h; exact ⟨rfl, hcamg.symm⟩
  · cases h; exact ⟨rfl, hcmap.symm⟩
  · cases h; exact ⟨rfl, hbody.symm⟩

/-- An answer of a decoder of codes, with the bytes after the code. -/
theorem map_rest_ok {r : Except DecodeError Instr} {rest rest' : List Byte} {i : Instr}
    (h : r.map (fun i => (i, rest')) = .ok (i, rest)) : r = .ok i ∧ rest' = rest := by
  cases r with
  | error e => cases h
  | ok j =>
    cases h
    exact ⟨rfl, rfl⟩

/-- Settles O2: by the decoder's cases; a code of one byte or a tag is the whole of what it read, a BR1 block is
`decodeBr1_ok`. -/
theorem decodeReadsOnlyEncodings : Obligations.DecodeReadsOnlyEncodings := by
  intro sp bs rest i h
  fun_cases decode sp bs with
  | case1 b0 b1 b2 b3 tail =>
    obtain ⟨htag, rfl⟩ := map_rest_ok h
    obtain ⟨hspace, hbytes⟩ := decodeTag_ok htag
    exact reads_of_encode (by decide) hspace hbytes tail
  | case2 | case3 => simp [decode] at h
  | case4 c tail =>
    obtain ⟨rfl, rfl⟩ := Prod.mk.inj (Except.ok.inj h)
    exact reads_of_encode (by decide) (decodeCmd_space c) (encode_decodeCmd c) tail
  | case5 c tail => exact decodeBr1_ok h
  | case6 c tail =>
    obtain ⟨hham, rfl⟩ := map_rest_ok h
    obtain ⟨hspace, hbytes⟩ := decodeHam6_ok hham
    exact reads_of_encode (by decide) hspace hbytes tail

/-- Settles O3: the decoder run on the nine words. -/
theorem specWordsDecode : Obligations.SpecWordsDecode := by
  unfold Obligations.SpecWordsDecode
  decide

/-! ## Running what was decoded -/

/-- Outside BUSY a write to CMD runs the command of its low byte (R91, 44 R195). -/
theorem perform_command {s : State} (hs : s.status ≠ .busy) (v : Word) :
    perform (.regWrite 0 v) s = dropOracle (exec (decodeCmd (v.setWidth 8)) s) :=
  if_neg fun h => hs h.2

/-- Settles O4: the command is the one of the low byte, and the step performs the action it took off the queue. -/
theorem stepRunsTheDecodedCommand : Obligations.StepRunsTheDecodedCommand := by
  intro s v rest hs hp
  refine ⟨decodeCmd (v.setWidth 8), rfl, ?_⟩
  rw [step, hp]
  exact perform_command (s := { s with pending := rest }) hs v

/-- Settles O25: the arm of HAM6.SET is the refusal (R97). -/
theorem hamSetHasNoMeaning : Obligations.HamSetHasNoMeaning := by
  intro s d
  rfl

end Sys2Proof.Proofs
end

section
/-!
The statements of 40_rle_byterun1.md: compress and decompress (R120 to R131, R134), and the commands that run them on ROWIN
(R132, R133).

Both directions are read as lists of blocks. Every turn of compress emits the encoding of one block whose output is the bytes
the turn consumed (`turn_block`), and decompress of encoded blocks is their output, whatever follows them
(`decompress_blocks_append`). That the two are inverse, and the shape of the output, are then facts about one list of blocks.
-/
namespace Sys2Proof.Proofs

open Sys2Proof.Machine Sys2Proof.Claims

/-! ## The two kinds of turn -/

theorem not_startsRun3_iff {row : List Byte} : startsRun3 row = false ↔ ¬ 3 ≤ runLength row := by
  rw [← startsRun3_iff, Bool.not_eq_true]

/-- A turn where a run starts (R123): the trailing byte of R122 is no run. -/
theorem turn_of_run {b : Byte} {bs : List Byte} (h : 3 ≤ runLength (b :: bs)) :
    turnBlock (b :: bs) = [u8 ((257 - runLength (b :: bs)) % 256), b] ∧ turnLength (b :: bs) = runLength (b :: bs) := by
  have hle := (runLength_bounds b bs).2.2
  have hlong : bs ≠ [] := by
    rintro rfl
    exact absurd (h.trans hle) (by decide)
  simp [turnBlock, turnLength, hlong, h]

/-- A turn where no run starts (R124), of which the trailing byte (R122) is a case. -/
theorem turn_of_literal {b : Byte} {bs : List Byte} (h : ¬ 3 ≤ runLength (b :: bs)) :
    turnBlock (b :: bs) = u8 (literalLength (b :: bs) - 1) :: (b :: bs).take (literalLength (b :: bs)) ∧
      turnLength (b :: bs) = literalLength (b :: bs) := by
  cases bs with
  | nil => exact ⟨rfl, rfl⟩
  | cons c cs => simp [turnBlock, turnLength, h]

theorem runLength_replicate_append {b : Byte} {run : Nat} {rest : List Byte} (h1 : 1 ≤ run) (h2 : run ≤ 127)
    (hend : run = 127 ∨ rest.head? ≠ some b) : runLength (List.replicate run b ++ rest) = run := by
  obtain ⟨k, rfl⟩ := Nat.exists_eq_add_of_le' h1
  have hwhile : ((List.replicate k b ++ rest).takeWhile (· == b)).length = k + (rest.takeWhile (· == b)).length := by
    rw [List.takeWhile_append_of_pos (by simp), List.length_append, List.length_replicate]
  have hstop : k + 1 = 127 ∨ rest.takeWhile (· == b) = [] := hend.imp_right fun hne => by
    cases rest with
    | nil => rfl
    | cons c cs => simpa using hne
  rw [List.replicate_succ, List.cons_append, runLength, hwhile, Config.rleMaxRun]
  rcases hstop with hk | hnil
  · omega
  · rw [hnil, List.length_nil]
    omega

/-- Settles O15: the run is what `runLength` counts, so the first turn is a repeat block of it. -/
theorem runBecomesOneRepeatBlock : Obligations.RunBecomesOneRepeatBlock := by
  intro b run rest h3 h127 hend
  have hlen : runLength (List.replicate run b ++ rest) = run := runLength_replicate_append (by omega) h127 hend
  have hdrop : (List.replicate run b ++ rest).drop run = rest := List.drop_left' List.length_replicate
  obtain ⟨k, rfl⟩ := Nat.exists_eq_add_of_le' (show 1 ≤ run by omega)
  rw [List.replicate_succ, List.cons_append] at hlen hdrop ⊢
  obtain ⟨hblock, hturn⟩ := turn_of_run (by rw [hlen]; exact h3)
  rw [compress_cons, hblock, hturn, hlen, hdrop]
  rfl

theorem literalLength_append {lit rest : List Byte} (h1 : 1 ≤ lit.length) (h127 : lit.length ≤ 127)
    (hno : ∀ k < lit.length, startsRun3 ((lit ++ rest).drop k) = false)
    (hstop : lit.length = 127 ∨ rest = [] ∨ startsRun3 rest = true) : literalLength (lit ++ rest) = lit.length := by
  cases lit with
  | nil => cases h1
  | cons b bs =>
    have hlen : (b :: bs).length = 1 + bs.length := Nat.add_comm _ _
    rw [hlen] at h127 hno hstop ⊢
    exact literalScan_eq bs rest 1 h127 (fun k hk => hno (k + 1) (by omega)) hstop

/-- Settles O16: no run starts at the first byte, so the first turn is a literal block, and the scan stops after `lit`. -/
theorem literalStopsBeforeRun : Obligations.LiteralStopsBeforeRun := by
  intro lit rest h1 h127 hno hstop
  have hlen := literalLength_append h1 h127 hno hstop
  have hrun : ¬ 3 ≤ runLength (lit ++ rest) := not_startsRun3_iff.mp (hno 0 h1)
  have hdrop : (lit ++ rest).drop lit.length = rest := List.drop_left
  have htake : (lit ++ rest).take lit.length = lit := List.take_left
  obtain ⟨b, bs, hcons⟩ : ∃ b bs, lit ++ rest = b :: bs :=
    List.exists_cons_of_length_pos (by rw [List.length_append]; omega)
  rw [hcons] at hlen hrun hdrop htake ⊢
  obtain ⟨hblock, hturn⟩ := turn_of_literal hrun
  rw [compress_cons, hblock, hturn, hlen, hdrop, htake]

/-- Where no run starts, compress cuts the row into literal blocks of 127 bytes and one of what is left. -/
theorem compress_length_of_no_run (row : List Byte) (hno : ∀ k, startsRun3 (row.drop k) = false) :
    (compress row).length = row.length + (row.length + 126) / 127 := by
  by_cases hnil : row = []
  · rw [hnil]
    rfl
  · have hpos := List.length_pos_iff.mpr hnil
    have htake : (row.take 127).length = min 127 row.length := List.length_take
    have hdrop : (row.drop 127).length = row.length - 127 := List.length_drop
    have hcut : (row.take 127).length = 127 ∨ row.drop 127 = [] ∨ startsRun3 (row.drop 127) = true := by
      rw [htake, List.drop_eq_nil_iff]
      omega
    have hturn := literalStopsBeforeRun (row.take 127) (row.drop 127) (by omega) (by omega)
      (fun k _ => by rw [List.take_append_drop]; exact hno k) hcut
    have hrest := compress_length_of_no_run (row.drop 127) fun k => by rw [List.drop_drop]; exact hno _
    rw [List.take_append_drop] at hturn
    rw [hturn, List.length_append, List.length_cons, hrest]
    omega
termination_by row.length

/-- Settles O13: at most two bytes for each byte that a turn consumes, and one control byte for each 127 of a row without
runs. -/
theorem compressedLength : Obligations.CompressedLength := ⟨compress_length_le, compress_length_of_no_run⟩

/-! ## compress emits blocks -/

/-- A block that R127 allows in the output of compress: no literal block of 128 bytes, no repeat block of 2 or 128. -/
def CappedBlock (i : Instr) : Prop :=
  i.wellFormed = true ∧
    ((∃ n data, i = .br1Lit n data ∧ n.toNat ≤ 126) ∨ ∃ n v, i = .br1Rep n v ∧ 2 ≤ n.toNat ∧ n.toNat ≤ 126)

theorem blockOutput_rep (n : BitVec 7) (b : Byte) :
    blockOutput (.br1Rep n b) = List.replicate (257 - (128 + n.toNat)) b := rfl

/-- A literal block of `k` bytes (R124). -/
theorem cappedBlock_lit {data : List Byte} (h1 : 1 ≤ data.length) (h127 : data.length ≤ 127) :
    ∃ i, CappedBlock i ∧ encode i = u8 (data.length - 1) :: data ∧ blockOutput i = data := by
  have hn : (BitVec.ofNat 7 (data.length - 1)).toNat = data.length - 1 := Nat.mod_eq_of_lt (by omega)
  have hwf : data.length = (BitVec.ofNat 7 (data.length - 1)).toNat + 1 := by omega
  have hbyte : (0b0#1) ++ BitVec.ofNat 7 (data.length - 1) = u8 (data.length - 1) := by
    refine BitVec.eq_of_toNat_eq ?_
    rw [litByte_toNat, hn]
    exact (Nat.mod_eq_of_lt (by omega)).symm
  exact ⟨.br1Lit (BitVec.ofNat 7 (data.length - 1)) data, ⟨beq_iff_eq.mpr hwf, .inl ⟨_, _, rfl, by omega⟩⟩,
    congrArg (· :: data) hbyte, rfl⟩

/-- A repeat block of `run` bytes (R123): the control byte `257 - run` is above 128. -/
theorem cappedBlock_rep {run : Nat} (b : Byte) (h3 : 3 ≤ run) (h127 : run ≤ 127) :
    ∃ i, CappedBlock i ∧ encode i = [u8 ((257 - run) % 256), b] ∧ blockOutput i = List.replicate run b := by
  have hn : (BitVec.ofNat 7 (129 - run)).toNat = 129 - run := Nat.mod_eq_of_lt (by omega)
  have hpos : (BitVec.ofNat 7 (129 - run)).toNat ≠ 0 := by omega
  have hwf : BitVec.ofNat 7 (129 - run) ≠ 0 := fun h0 => hpos (congrArg BitVec.toNat h0)
  have hbyte : (0b1#1) ++ BitVec.ofNat 7 (129 - run) = u8 ((257 - run) % 256) := by
    refine BitVec.eq_of_toNat_eq ?_
    rw [repByte_toNat, hn, u8, BitVec.toNat_ofNat]
    omega
  have hcount : 257 - (128 + (129 - run)) = run := by omega
  refine ⟨.br1Rep (BitVec.ofNat 7 (129 - run)) b, ⟨bne_iff_ne.mpr hwf, .inr ⟨_, _, rfl, by omega, by omega⟩⟩,
    congrArg (· :: [b]) hbyte, ?_⟩
  rw [blockOutput_rep, hn, hcount]

/-- A turn emits one block, whose output is the bytes the turn consumed (R122 to R124). -/
theorem turn_block (b : Byte) (bs : List Byte) :
    ∃ i, CappedBlock i ∧ encode i = turnBlock (b :: bs) ∧ blockOutput i = (b :: bs).take (turnLength (b :: bs)) := by
  by_cases hrun : 3 ≤ runLength (b :: bs)
  · obtain ⟨hblock, hturn⟩ := turn_of_run hrun
    rw [hblock, hturn, take_runLength]
    exact cappedBlock_rep b hrun (runLength_bounds b bs).2.1
  · obtain ⟨hblock, hturn⟩ := turn_of_literal hrun
    obtain ⟨h1, h127, hle⟩ := literalLength_bounds b bs
    have hlen : ((b :: bs).take (literalLength (b :: bs))).length = literalLength (b :: bs) :=
      List.length_take_of_le hle
    have hlit := cappedBlock_lit (data := (b :: bs).take (literalLength (b :: bs))) (by omega) (by omega)
    rw [hlen] at hlit
    rwa [hblock, hturn]

/-- The output of compress is a list of encoded blocks, and the row is what they stand for. -/
theorem compress_blocks (row : List Byte) :
    ∃ blocks : List Instr, compress row = blocks.flatMap encode ∧ (∀ i ∈ blocks, CappedBlock i) ∧
      blocks.flatMap blockOutput = row := by
  induction row using turn_induction with
  | h0 => exact ⟨[], rfl, nofun, rfl⟩
  | h b bs ih =>
    obtain ⟨blocks, hbytes, hcapped, hout⟩ := ih
    obtain ⟨i, hi, henc, hiout⟩ := turn_block b bs
    refine ⟨i :: blocks, ?_, List.forall_mem_cons.mpr ⟨hi, hcapped⟩, ?_⟩
    · rw [compress_cons, List.flatMap_cons, henc, hbytes]
    · rw [List.flatMap_cons, hiout, hout, List.take_append_drop]

/-- Settles O14: the blocks are those of the turns. -/
theorem compressEmitsCappedBlocks : Obligations.CompressEmitsCappedBlocks := by
  intro row
  obtain ⟨blocks, hbytes, hcapped, -⟩ := compress_blocks row
  exact ⟨blocks, hbytes, hcapped⟩

/-! ## decompress reads blocks -/

/-- A block the decoder reads: an element of BR1 that has an encoding (30 R93). -/
def IsBlock (i : Instr) : Prop := i.space = .br1 ∧ i.wellFormed = true

theorem CappedBlock.isBlock {i : Instr} (h : CappedBlock i) : IsBlock i := by
  obtain ⟨hwf, ⟨n, data, rfl, -⟩ | ⟨n, v, rfl, -⟩⟩ := h
  · exact ⟨rfl, hwf⟩
  · exact ⟨rfl, hwf⟩

/-- The encoding of a block begins with its control byte. -/
theorem IsBlock.encode_cons {i : Instr} (h : IsBlock i) : ∃ c cs, encode i = c :: cs := by
  obtain ⟨hbr1, -⟩ := h
  cases i with
  | br1Lit | br1Nop | br1Rep => exact ⟨_, _, rfl⟩
  | _ => cases hbr1

/-- What decompress makes of a block, whatever follows it. -/
theorem decompress_block {i : Instr} (h : IsBlock i) (rest : List Byte) :
    (∀ out, decompress rest = .ok out → decompress (encode i ++ rest) = .ok (blockOutput i ++ out)) ∧
    ∀ off, decompress rest = .error off → decompress (encode i ++ rest) = .error ((encode i).length + off) := by
  have hdecode := decode_encode_br1 h.1 h.2 rest
  obtain ⟨c, cs, hcons⟩ := h.encode_cons
  rw [hcons, List.cons_append] at hdecode ⊢
  have hsize := blockSize_add hdecode
  rw [List.length_append] at hsize
  refine ⟨fun out hrest => ?_, fun off hrest => ?_⟩
  · rw [decompress_cons, hdecode]
    simp only [hrest]
  · rw [decompress_cons, hdecode]
    simp only [hrest, List.length_cons]
    congr 2
    omega

theorem decompress_blocks_append {blocks : List Instr} (h : ∀ i ∈ blocks, IsBlock i) {rest out : List Byte}
    (hrest : decompress rest = .ok out) :
    decompress (blocks.flatMap encode ++ rest) = .ok (blocks.flatMap blockOutput ++ out) := by
  induction blocks with
  | nil => exact hrest
  | cons i blocks ih =>
    obtain ⟨hi, hblocks⟩ := List.forall_mem_cons.mp h
    rw [List.flatMap_cons, List.flatMap_cons, List.append_assoc, List.append_assoc]
    exact (decompress_block hi _).1 _ (ih hblocks)

theorem decompress_blocks_append_error {blocks : List Instr} (h : ∀ i ∈ blocks, IsBlock i) {rest : List Byte} {off : Nat}
    (hrest : decompress rest = .error off) :
    decompress (blocks.flatMap encode ++ rest) = .error ((blocks.flatMap encode).length + off) := by
  induction blocks with
  | nil => simpa using hrest
  | cons i blocks ih =>
    obtain ⟨hi, hblocks⟩ := List.forall_mem_cons.mp h
    rw [List.flatMap_cons, List.append_assoc, List.length_append, Nat.add_assoc]
    exact (decompress_block hi _).2 _ (ih hblocks)

/-- Settles O12: compress writes blocks whose output is the row, and decompress reads them. -/
theorem decompressInvertsCompress : Obligations.DecompressInvertsCompress := by
  intro row
  obtain ⟨blocks, hbytes, hcapped, hout⟩ := compress_blocks row
  have hread := decompress_blocks_append (fun i hi => (hcapped i hi).isBlock) decompress_nil
  rwa [List.append_nil, List.append_nil, ← hbytes, hout] at hread

/-- A stream that decompresses begins with a block, and what follows the block decompresses. -/
theorem decompress_cons_ok {c : Byte} {cs out : List Byte} (h : decompress (c :: cs) = .ok out) :
    ∃ i rest out', IsBlock i ∧ c :: cs = encode i ++ rest ∧ rest.length ≤ cs.length ∧ decompress rest = .ok out' := by
  rw [decompress_cons] at h
  split at h
  · cases h
  · rename_i i rest hdecode
    split at h
    · rename_i out' hrest
      obtain ⟨hwf, hspace, hbytes⟩ := decodeBr1_ok hdecode
      exact ⟨i, rest, out', ⟨hspace, hwf⟩, hbytes, decodeBr1_length hdecode, hrest⟩
    · cases h

/-- A stream that decompresses is a list of encoded blocks. -/
theorem blocks_of_decompress : ∀ {s out : List Byte}, decompress s = .ok out →
    ∃ blocks : List Instr, s = blocks.flatMap encode ∧ ∀ i ∈ blocks, IsBlock i
  | [], _, _ => ⟨[], rfl, nofun⟩
  | c :: cs, _, h => by
    obtain ⟨i, rest, out', hi, hbytes, hshorter, hrest⟩ := decompress_cons_ok h
    obtain ⟨blocks, rfl, hblocks⟩ := blocks_of_decompress hrest
    exact ⟨i :: blocks, hbytes, List.forall_mem_cons.mpr ⟨hi, hblocks⟩⟩
termination_by s => s.length
decreasing_by exact Nat.lt_succ_of_le hshorter

/-! ## The decoder's block classes -/

theorem lowBits_toNat_of_lit {c : Byte} (h : c.toNat ≤ 127) : (c.extractLsb' 0 7).toNat = c.toNat := by
  rw [← litByte_toNat, litByte_lowBits h]

theorem lowBits_toNat_of_rep {c : Byte} (h : 128 ≤ c.toNat) : 128 + (c.extractLsb' 0 7).toNat = c.toNat := by
  rw [← repByte_toNat, repByte_lowBits (by omega)]

/-- Settles O17: each class by its block, whose encoding begins with the control byte. -/
theorem decoderReadsEachBlockClass : Obligations.DecoderReadsEachBlockClass := by
  intro c rest out hrest
  refine ⟨fun data hc hlen => ?_, fun hc => ?_, fun b hc => ?_⟩
  · have hblock : IsBlock (.br1Lit (c.extractLsb' 0 7) data) :=
      ⟨rfl, beq_iff_eq.mpr (by rw [lowBits_toNat_of_lit hc, hlen])⟩
    have hread := (decompress_block hblock rest).1 out hrest
    rwa [encode, litByte_lowBits hc] at hread
  · obtain rfl : c = 0x80 := BitVec.eq_of_toNat_eq hc
    exact (decompress_block (i := .br1Nop) ⟨rfl, rfl⟩ rest).1 out hrest
  · have hn := lowBits_toNat_of_rep hc.le
    have hpos : (c.extractLsb' 0 7).toNat ≠ 0 := by omega
    have hblock : IsBlock (.br1Rep (c.extractLsb' 0 7) b) :=
      ⟨rfl, bne_iff_ne.mpr fun h0 => hpos (congrArg BitVec.toNat h0)⟩
    have hread := (decompress_block hblock rest).1 out hrest
    rwa [encode, repByte_lowBits (by omega), blockOutput_rep, hn] at hread

/-- A block whose data bytes end early does not decode (R131). -/
theorem decompress_cutOff {c : Byte} {data : List Byte}
    (h : (c.toNat ≤ 127 ∧ data.length < c.toNat + 1) ∨ (128 < c.toNat ∧ data = [])) :
    decompress (c :: data) = .error 0 := by
  have hdecode : decode .br1 (c :: data) = .error .truncatedBlock := by
    rcases h with ⟨hlit, hshort⟩ | ⟨hrep, rfl⟩
    · simp only [decode, decodeBr1, if_pos hlit, if_pos hshort]
    · have hnop : c ≠ 0x80 := fun h => absurd (h ▸ hrep) (by decide)
      simp only [decode, decodeBr1, if_neg (show ¬ c.toNat ≤ 127 by omega), if_neg hnop]
  rw [decompress_cons, hdecode]

/-- Settles O18: the blocks of `whole` are read, and the offset of the block that is cut off is their length. -/
theorem cutOffBlockIsMalformed : Obligations.CutOffBlockIsMalformed := by
  intro whole out data c hwhole hcut
  obtain ⟨blocks, rfl, hblocks⟩ := blocks_of_decompress hwhole
  exact decompress_blocks_append_error hblocks (decompress_cutOff hcut)

/-- Settles O23: the three arms; a REP control byte is 128 and its operand. -/
theorem decoderBlocksRun : Obligations.DecoderBlocksRun := by
  intro s n data b
  have hcount : 257 - (128 + n.toNat) = 129 - n.toNat := by omega
  have hrep : rlcRep n b s.rlc =
      { s.rlc with out := s.rlc.out ++ List.replicate (129 - n.toNat) b, i := s.rlc.i + 2 } := by
    rw [rlcRep, hcount]
  refine ⟨rfl, rfl, ?_⟩
  rw [← hrep]
  rfl

/-! ## The commands -/

theorem exec_rleCompress {s : State} (hs : Ready s) : exec .rleCompress s = (runRleCompress s).outcome :=
  whenAccepted_idle (run := fun s => (runRleCompress s).outcome) hs

theorem exec_rleDecompress {s : State} (hs : Ready s) : exec .rleDecompress s = (runRleDecompress s).outcome :=
  whenAccepted_idle (run := fun s => (runRleDecompress s).outcome) hs

theorem readRow_of_rowinIs {s : State} {row : List Byte} (h : RowinIs row s) : readRow s = .ok row := by
  obtain ⟨hcap, hlen, hbytes⟩ := h
  have hdefined : (memReadList s.rowin 0 s.rowlen.toNat).isSome = true := memReadList_isSome fun i hi => by
    rw [Nat.zero_add, hbytes i hi, List.getElem?_eq_getElem (hlen ▸ hi)]
    rfl
  obtain ⟨vs, hvs⟩ := Option.isSome_iff_exists.mp hdefined
  obtain ⟨hvlen, hvbytes⟩ := memReadList_some hvs
  have hrow : vs = row := List.ext_getElem? fun i => by
    rcases Nat.lt_or_ge i s.rowlen.toNat with hi | hi
    · rw [← hvbytes i hi, Nat.zero_add, hbytes i hi]
    · rw [List.getElem?_eq_none (by omega), List.getElem?_eq_none (by omega)]
  simp only [readRow, if_neg (Nat.not_lt.mpr hcap), hvs, hrow]

theorem readRow_aboveCap {s : State} (h : 65535 < s.rowlen.toNat) : readRow s = .error .rowlenAboveCap := if_pos h

theorem readRow_noValue {s : State} {i : Nat} (hcap : s.rowlen.toNat ≤ 65535) (hi : i < s.rowlen.toNat)
    (hnone : memRead s.rowin i = none) : readRow s = .error .noValueRowin := by
  have hread : memReadList s.rowin 0 s.rowlen.toNat = none := Option.eq_none_iff_forall_ne_some.mpr fun vs hvs => by
    obtain ⟨hlen, hbytes⟩ := memReadList_some hvs
    have hi' := hbytes i hi
    rw [Nat.zero_add, hnone, eq_comm, List.getElem?_eq_none_iff] at hi'
    omega
  simp only [readRow, if_neg (Nat.not_lt.mpr hcap), hread]

/-- What a command that completes leaves (R132, R133). -/
theorem finishRle_result {r : RlcRegs} (s : State) (h : r.out.length < 2 ^ 32) :
    RowoutBecomes r.out s (finishRle r (beginRle s)) ∧
    (finishRle r (beginRle s)).outlen.toNat = r.out.length ∧
    finishRle r (beginRle s) = { s with
      status := .done, phase := .idle, rlc := (finishRle r (beginRle s)).rlc
      rowout := (finishRle r (beginRle s)).rowout, outlen := (finishRle r (beginRle s)).outlen } := by
  refine ⟨⟨fun i hi => ?_, fun i hi => ?_⟩, Nat.mod_eq_of_lt h, rfl⟩
  · rw [finishRle_rowout, memRead_memWriteList, if_pos (by omega), Nat.sub_zero]
  · rw [finishRle_rowout, memRead_memWriteList, if_neg (by omega), beginRle_rowout]

/-- Settles O19: a row in ROWIN is at most 65535 bytes, so its compressed length fits OUTLEN. -/
theorem rleCompressResult : Obligations.RleCompressResult := by
  intro s row hs hrow
  have hrun : runRleCompress s = .go (finishRle (compressRegs row s.rlc) (beginRle s)) := by
    simp only [runRleCompress, readRow_of_rowinIs hrow]
  have hfits : (compressRegs row s.rlc).out.length < 2 ^ 32 := by
    have hdouble := compress_length_le row
    obtain ⟨hcap, hlen, -⟩ := hrow
    rw [compressRegs_out]
    omega
  have hresult := finishRle_result s hfits
  rw [compressRegs_out] at hresult
  exact ⟨_, (exec_rleCompress hs).trans (congrArg Flow.outcome hrun), hresult⟩

/-- Settles O20: decompress on the working registers, then the end of the command. -/
theorem rleDecompressResult : Obligations.RleDecompressResult := by
  intro s row out hs hrow hout hcap
  obtain ⟨r, hr, rfl⟩ := decompressRegs_ok hout s.rlc
  have hrun : runRleDecompress s = .go (finishRle r (beginRle s)) := by
    simp only [runRleDecompress, readRow_of_rowinIs hrow, hr]
    exact if_neg (Nat.not_lt.mpr hcap)
  exact ⟨_, (exec_rleDecompress hs).trans (congrArg Flow.outcome hrun), finishRle_result s (by omega)⟩

/-- Settles O21: the fault is taken with the offset of the cursor's control byte, before ROWOUT and OUTLEN are written. -/
theorem rleDecompressTakesMalformedFault : Obligations.RleDecompressTakesMalformedFault := by
  intro s row off hs hrow hoff
  obtain ⟨r, hr, rfl⟩ := decompressRegs_error hoff s.rlc
  have hrun : runRleDecompress s =
      .raised (raiseFault .malformedRle {} (BitVec.ofNat 32 (r.i - 1)) { beginRle s with rlc := r }) := by
    simp only [runRleDecompress, readRow_of_rowinIs hrow, hr]
  rw [raiseFault_eq_with] at hrun
  exact ⟨_, (exec_rleDecompress hs).trans (congrArg Flow.outcome hrun), rfl⟩

theorem rleCommands_refuse {s : State} (hs : Ready s) {e : Refusal} (hrow : readRow s = .error e) :
    exec .rleCompress s = .refused e ∧ exec .rleDecompress s = .refused e := by
  simp only [exec_rleCompress hs, exec_rleDecompress hs, runRleCompress, runRleDecompress, hrow, outcome_refused, and_self]

/-- Settles O22: the first two while the row is read, the third once it is decompressed. -/
theorem rleCommandsRefuseWhatHasNoMeaning : Obligations.RleCommandsRefuseWhatHasNoMeaning := by
  refine ⟨fun s hs habove => rleCommands_refuse hs (readRow_aboveCap habove),
    fun s i hs hcap hi hnone => rleCommands_refuse hs (readRow_noValue hcap hi hnone), ?_⟩
  intro s row out hs hrow hout hlong
  obtain ⟨r, hr, rfl⟩ := decompressRegs_ok hout s.rlc
  have hrun : runRleDecompress s = .refused .rowoutAboveCap := by
    simp only [runRleDecompress, readRow_of_rowinIs hrow, hr]
    exact if_pos hlong
  exact (exec_rleDecompress hs).trans (congrArg Flow.outcome hrun)

end Sys2Proof.Proofs
end

section
/-!
The statements of 41_bitplane_encoder.md: pixel encoding fills PLN with the bits of every pixel's code (R141 to R143), and the
planes give an index back (R145).

`RowDone` says what one row of BPE or HAME leaves in the planes. The two units differ in the codes of a row alone, which
`codeRow` and `planeCount` have for both, so the loop over the rows is one induction: `RowsFilled` says that the rows before
row `n` hold their plane bytes and the others the zero fill.
-/
namespace Sys2Proof.Proofs

open Sys2Proof.Machine Sys2Proof.Claims

/-! ## One row of either unit -/

/-- The row encoder of MODE (44 R205). -/
def modeRow (s : State) : Nat → State → Flow := if isHam s then hamRow else bpeRow

/-- A row of a raster that MODE fits goes on, and its codes are those of `codeRow`. -/
theorem modeRow_goes {s : State} {y : Nat} (hy : y < 2 ^ 16) (hw : s.width.toNat < 2 ^ 16)
    (hn : s.nplanes.toNat = planeCount s) (hfits : ∀ x < s.width.toNat, pixelFits s (pixRead s x y) = true) :
    ∃ t, modeRow s y s = .go t ∧ RowDone s (planeCount s) y (codeRow s y) t := by
  cases hm : isHam s with
  | true =>
    simp only [modeRow, planeCount, codeRow, hm, if_true]
    exact hamRow_goes hy hw fun x hx => pixelFits_colour (hfits x hx) hm
  | false =>
    rw [← hn]
    simp only [modeRow, codeRow, hm, Bool.false_eq_true, if_false]
    exact bpeRow_goes hy hw fun x hx => pixelFits_index (hfits x hx) hm

/-! ## The loop over the rows -/

/-- Where the loop over the rows begins: PLN is the zero fill (41 R141). -/
def zeroFilled (s : State) : State :=
  { s with phase := .pixels, pln := plnZero (planeCount s) s.height.toNat s.rowbytes.toNat }

/-- Exactly one of BPE and HAME runs, row by row (44 R205). -/
theorem encodePixels_eq {s : State} (hsize : rasterMatches s = true) (hn : s.nplanes.toNat = planeCount s) :
    encodePixels s = forEach (modeRow s) (List.range s.height.toNat) (zeroFilled s) := by
  cases hm : isHam s with
  | true =>
    simp only [encodePixels, modeRow, zeroFilled, planeCount, hsize, hm, if_true, Bool.true_eq_false, if_false]
    rfl
  | false =>
    simp only [encodePixels, modeRow, zeroFilled, ← hn, hsize, hm, Bool.false_eq_true, Bool.true_eq_false, if_false]
    rfl

/-- The first `n` rows of the bitmap of `s` hold their plane bytes, the other rows the zero fill. -/
structure RowsFilled (s : State) (n : Nat) (t : State) : Prop where
  frame : PixelFrame { s with phase := .pixels } t
  bytes : ∀ p y b, plnRead t.pln p y b =
    if p < planeCount s ∧ y < s.height.toNat ∧ b < rowBytes s.width.toNat then
      some (if y < n then planeByte (codeRow s y) p b else 0)
    else none

theorem rowsFilled_zeroFilled {s : State} (hl : configLegal s = true) (hrb : s.rowbytes.toNat = rowBytes s.width.toNat) :
    RowsFilled s 0 (zeroFilled s) := by
  obtain ⟨-, ⟨-, hh⟩, -⟩ := configLegal_bounds hl
  refine ⟨rfl, fun p y b => ?_⟩
  have hzero := plnRead_plnZero (planeCount_le hl).2 (show s.height.toNat ≤ 2 ^ 16 by omega) (rowBytes_le hl) p y b
  rwa [← hrb] at hzero ⊢

/-- Row `n` ORs its plane bytes into its zero fill and leaves the other rows as they were. -/
theorem RowsFilled.row {s t u : State} {n : Nat} (h : RowsFilled s n t) (hu : RowDone t (planeCount s) n (codeRow s n) u) :
    RowsFilled s (n + 1) u := by
  refine ⟨h.frame.trans (pixelFrame_of_rowDone hu), fun p y b => ?_⟩
  rw [hu.bytes, h.bytes]
  by_cases hin : p < planeCount s ∧ y < s.height.toNat ∧ b < rowBytes s.width.toNat
  · rw [if_pos hin, if_pos hin]
    rcases Nat.lt_trichotomy y n with hlt | rfl | hgt
    · rw [if_neg fun hrow => hlt.ne hrow.2, if_pos hlt, if_pos (hlt.trans n.lt_succ_self)]
    · rw [if_pos ⟨hin.1, rfl⟩, if_neg (lt_irrefl y), if_pos y.lt_succ_self]
      exact congrArg some BitVec.zero_or
    · rw [if_neg fun hrow => hgt.ne' hrow.2, if_neg hgt.not_gt, if_neg (Nat.not_lt.mpr hgt)]
  · rw [if_neg hin, if_neg hin, Option.map_none, ite_self]

/-- After the last row PLN holds the bitmap. -/
theorem RowsFilled.planesHold {s t : State} (h : RowsFilled s s.height.toNat t) : PlanesHold s t := fun p y b =>
  (h.bytes p y b).trans (ite_congr rfl (fun hin => by rw [if_pos hin.2.1]) fun _ => rfl)

/-- Row `n` of the loop goes on: the state there still has the raster and the configuration of `s`. -/
theorem RowsFilled.next {s t : State} {n : Nat} (h : RowsFilled s n t) (hn : n < s.height.toNat)
    (hl : configLegal s = true) (hr : rasterReady s) (hp : s.nplanes.toNat = planeCount s) :
    ∃ u, modeRow s n t = .go u ∧ RowsFilled s (n + 1) u := by
  obtain ⟨⟨-, hw⟩, ⟨-, hh⟩, -⟩ := configLegal_bounds hl
  have hwidth : t.width.toNat = s.width.toNat := congrArg BitVec.toNat h.frame.width
  have hplanes : planeCount t = planeCount s := by rw [h.frame]; rfl
  have hpt : t.nplanes.toNat = planeCount t := by rw [h.frame.nplanes, hplanes]; exact hp
  have hrow : modeRow t = modeRow s := by rw [h.frame]; rfl
  have hcodes : codeRow t n = codeRow s n := by rw [h.frame]; rfl
  have hfits : ∀ x, pixelFits t (pixRead t x n) = pixelFits s (pixRead s x n) := by rw [h.frame]; exact fun _ => rfl
  have hgo := modeRow_goes (s := t) (y := n) (by omega) (by omega) hpt fun x hx =>
    (hfits x).trans (hr.2 x (hwidth ▸ hx) n hn)
  rw [hrow, hplanes, hcodes] at hgo
  obtain ⟨u, hu, hdone⟩ := hgo
  exact ⟨u, hu, h.row hdone⟩

/-- Pixel encoding of a provided raster completes and leaves the bitmap in PLN. -/
theorem encodePixels_fills {s : State} (hl : configLegal s = true) (hr : rasterReady s)
    (hn : s.nplanes.toNat = planeCount s) (hrb : s.rowbytes.toNat = rowBytes s.width.toNat) :
    ∃ t, encodePixels s = .go t ∧ PixelFrame { s with phase := .pixels } t ∧ PlanesHold s t := by
  obtain ⟨t, ht, hfilled⟩ := forEach_range_goes (P := RowsFilled s) s.height.toNat (rowsFilled_zeroFilled hl hrb)
    fun n hlt t h => h.next hlt hl hr hn
  exact ⟨t, (encodePixels_eq hr.1 hn).trans ht, hfilled.frame, hfilled.planesHold⟩

/-- Settles O29: the loop over the rows from the zero fill. -/
theorem pixelsFillThePlanes : Obligations.PixelsFillThePlanes := fun _ hl hr hn hrb => encodePixels_fills hl hr hn hrb

/-! ## The index out of the planes -/

/-- The `n` lowest bits of a number, each at its place, sum to what it is modulo `2 ^ n`. -/
theorem sum_two_pow_mul_testBit (v n : Nat) :
    ((List.range n).map fun p => 2 ^ p * (v.testBit p).toNat).sum = v % 2 ^ n := by
  induction n with
  | zero => rw [Nat.pow_zero, Nat.mod_one]; rfl
  | succ n ih =>
    rw [List.range_succ, List.map_append, List.sum_append, ih, Nat.mod_pow_succ, ← Nat.toNat_testBit]
    rfl

/-- Bit `i` of a byte, as the statement reads it. -/
theorem ushiftRight_toNat_mod_two (v : Byte) (i : Nat) : (v >>> i).toNat % 2 = (v.getLsbD i).toNat := by
  rw [BitVec.toNat_ushiftRight, ← BitVec.testBit_toNat, Nat.toNat_testBit, Nat.shiftRight_eq_div_pow]

/-- Column `x` of plane `p` is bit `p` of the pixel's index (R142, R143). -/
theorem planeByte_codeRow_bit {s : State} {x : Nat} (hm : isHam s = false) (hx : x < s.width.toNat) (y p : Nat) :
    (planeByte (codeRow s y) p (x / 8)).getLsbD (7 - x % 8) = (indexAt s x y).toNat.testBit p := by
  have hcode : (codeRow s y).getD x 0 = indexAt s x y := by
    simp [codeRow, hm, hx]
  rw [columnBitPosition, hcode, BitVec.testBit_toNat]

/-- Settles O30: pixel encoding goes on only where the raster is provided, so PLN holds the bitmap; there the bits of a
column are those of its index. -/
theorem planesGiveTheIndexBack : Obligations.PlanesGiveTheIndexBack := by
  intro s t x y hl hm hn hrb hgo hx hy
  obtain ⟨-, ⟨-, hh⟩, -⟩ := configLegal_bounds hl
  have hr : rasterReady s := by
    rcases encodePixels_cases s hh with ⟨-, -, -, -, hr⟩ | ⟨r, hrefused, -⟩
    · exact hr
    · rw [hgo] at hrefused
      cases hrefused
  have hpln : PlanesHold s t := by
    obtain ⟨u, hu, -, hpln⟩ := encodePixels_fills hl hr hn hrb
    cases hgo.symm.trans hu
    exact hpln
  have hb : x / 8 < rowBytes s.width.toNat := by
    have hcolumns := (rowBytes_le_iff (rowBytes_even s.width.toNat)).mp le_rfl
    omega
  have hbit : ∀ p < s.nplanes.toNat, ((plnRead t.pln p y (x / 8)).getD 0 >>> (7 - x % 8)).toNat % 2 =
      ((indexAt s x y).toNat.testBit p).toNat := by
    intro p hp
    rw [hpln, if_pos ⟨hn ▸ hp, hy, hb⟩, Option.getD_some, ushiftRight_toNat_mod_two, planeByte_codeRow_bit hm hx]
  rw [← sum_two_pow_mul_testBit]
  exact congrArg List.sum (List.map_congr_left fun p hp => by rw [hbit p (List.mem_range.mp hp)])

end Sys2Proof.Proofs
end

section
/-!
The statements of 42_ham_encoder.md: the selected channel (R153), what the codes MODR, MODG and MODB do when run alone
(R155 to R158), and which codes HAME emits (R159, R160).
-/
namespace Sys2Proof.Proofs

open Sys2Proof.Machine Sys2Proof.Claims

/-! ## The selected channel -/

/-- Settles O26: each branch of `selectChannel` is one of three cases of the differences, of which exactly one holds. -/
theorem hamSelectsLargestDifference : Obligations.HamSelectsLargestDifference := by
  intro dr dg db
  unfold selectChannel
  split_ifs with hred hgreen <;> simp only [true_iff, false_iff] <;> omega

/-! ## A code at the cursors -/

theorem toNat_u8 {n : Nat} (h : n < 256) : (u8 n).toNat = n := Nat.mod_eq_of_lt h

/-- R158: the bits that `distribute` reads off the byte are those of the code's number. -/
theorem distribute_writes_code {code : Nat} (h : code < 256) (s : State) :
    CodeWritten code s (distribute (u8 code) Config.hamPlanes s) := by
  intro p y b
  rw [plnRead_distribute, ← BitVec.testBit_toNat, toNat_u8 h]

/-- Settles O24: each code sets a channel that `distribute` does not read, then distributes its own bits. -/
theorem hamCodesModifyOneChannel : Obligations.HamCodesModifyOneChannel := by
  intro s d
  have hd := d.isLt
  exact ⟨⟨_, rfl, distribute_eq _ _ _, distribute_writes_code (by omega) { s with hr := d }⟩,
    ⟨_, rfl, distribute_eq _ _ _, distribute_writes_code (by omega) { s with hg := d }⟩,
    ⟨_, rfl, distribute_eq _ _ _, distribute_writes_code (by omega) { s with hb := d }⟩⟩

/-! ## The codes of a row -/

/-- A code of HAM6 that sets a channel, and so none of the codes of HAM6.SET (30 R96, R97). -/
def IsModifyCode (c : Byte) : Prop := 16 ≤ c.toNat ∧ c.toNat < 64

/-- The bases of MODB, MODR and MODG are 16, 32 and 48, and a channel's value is below 16 (R154). -/
theorem isModifyCode_u8 {base : Nat} (hlow : 16 ≤ base) (hhigh : base ≤ 48) (q : BitVec 4) :
    IsModifyCode (u8 (base + q.toNat)) := by
  have hq := q.isLt
  rw [IsModifyCode, toNat_u8 (by omega)]
  omega

/-- A pixel gives one code, whichever channel is selected, and leaves the accumulator to the pixels after it. -/
theorem hamCodes_cons_emits (r g b : BitVec 4) (c : Rgb) (cs : List Rgb) :
    ∃ code r' g' b', IsModifyCode code ∧ hamCodes r g b (c :: cs) = code :: hamCodes r' g' b' cs := by
  rw [hamCodes]
  split <;> exact ⟨_, _, _, _, isModifyCode_u8 (by decide) (by decide) _, rfl⟩

theorem isModifyCode_of_mem_hamCodes {cs : List Rgb} {r g b : BitVec 4} {code : Byte}
    (h : code ∈ hamCodes r g b cs) : IsModifyCode code := by
  induction cs generalizing r g b with
  | nil => cases h
  | cons c cs ih =>
    obtain ⟨first, r', g', b', hfirst, hcodes⟩ := hamCodes_cons_emits r g b c cs
    rw [hcodes] at h
    rcases List.mem_cons.mp h with rfl | hrest
    · exact hfirst
    · exact ih hrest

/-- Settles O27: the codes of the right part come after all of the left part's. -/
theorem hamEmitsOnlyModifyCodes : Obligations.HamEmitsOnlyModifyCodes := by
  intro r g b left right
  exact ⟨hamCodes_length r g b left, fun _ hc => isModifyCode_of_mem_hamCodes hc,
    _, (hamCodes_append r g b left right).symm⟩

end Sys2Proof.Proofs
end

section
/-!
The statements of 43_chunk_serializer.md: what each element of IFF appends (R168 to R181), and the lengths of a finished file
(R180, R183, R186, R187).

Where the sink does not fail, a part of the sequence that appends is one function of the state, `appendedOut`, and two in a row
are one of the joined bytes; the chunks up to CMAP are that. BODY's placeholder is patched on the way, so its statement goes
through the parts `Appended` of Laws/Chs.lean. The file of an ENCODE in DONE is `imageFile` (`exec_encode_done`), whose lengths
are counted chunk by chunk.
-/
namespace Sys2Proof.Proofs

open Sys2Proof.Machine Sys2Proof.Claims

/-! ## The CMAP byte of a channel -/

/-- R174: a channel's high nibble is at most 15, so the product fits a byte. -/
theorem cmapByte_toNat (c : Byte) : (cmapByte c).toNat = c.toNat / 16 * 17 := by
  have hc := c.isLt
  exact toNat_u8 (by omega)

/-- Settles O58: on values, where `16 q + r` is `17 q` exactly for `r = q`. -/
theorem cmapByteOfAChannel : Obligations.CmapByteOfAChannel := by
  intro c
  have hc := c.isLt
  refine ⟨cmapByte_toNat c, ?_⟩
  rw [← BitVec.toNat_inj, cmapByte_toNat]
  omega

/-! ## Chunks that are appended -/

/-- The bytes are appended, and one answer is used up for each (20 R71). -/
def appendedOut (bs : List Byte) (s : State) : State :=
  { s with out := s.out ++ bs, wpos := s.wpos + bs.length, oracle := s.oracle.drop bs.length }

theorem appendedOut_nil (s : State) : appendedOut [] s = s := by
  simp [appendedOut]

theorem appendedOut_appendedOut (as bs : List Byte) (s : State) :
    appendedOut bs (appendedOut as s) = appendedOut (as ++ bs) s := by
  simp [appendedOut, Nat.add_assoc]

theorem appendedOut_atEnd (bs : List Byte) {s : State} (hend : s.wpos = s.out.length) :
    (appendedOut bs s).wpos = (appendedOut bs s).out.length := by
  simp [appendedOut, hend]

/-- The next `n` appends go through: the write offset is at the end of OUT, and the sink succeeds (20 R71, R75). -/
def CanAppend (n : Nat) (s : State) : Prop := s.wpos = s.out.length ∧ Succeed n s

theorem canAppend_append {as bs : List Byte} {s : State} (h : CanAppend (as ++ bs).length s) :
    CanAppend as.length s ∧ CanAppend bs.length (appendedOut as s) := by
  obtain ⟨hend, hyes⟩ := h
  rw [List.length_append] at hyes
  obtain ⟨hnow, hlater⟩ := answersYes_add.mp hyes
  exact ⟨⟨hend, hnow⟩, appendedOut_atEnd as hend, hlater⟩

theorem appendAll_goes (ctx : Context) (bs : List Byte) {s : State} (h : CanAppend bs.length s) :
    appendAll ctx bs s = .go (appendedOut bs s) :=
  appendAll_yes ctx bs h.1 h.2

/-- Settles O31: the tag and the placeholder are two appends, and `SinkTell` between them is the placeholder's offset. -/
theorem formHeaderIsAppended : Obligations.FormHeaderIsAppended := by
  intro s hend
  refine ⟨fun hyes => ?_, fun hyes => ?_⟩
  · obtain ⟨htag, hplace⟩ := canAppend_append (as := tagForm) (bs := Config.placeholder)
      (s := { s with phase := .form }) ⟨hend, hyes⟩
    have hform : chsForm s = .go (appendedOut Config.placeholder
        { appendedOut tagForm { s with phase := .form } with formLenOff := s.wpos + 4 }) := by
      rw [chsForm, appendAll_goes _ _ htag]
      exact appendAll_goes _ _ hplace
    refine (congrArg Flow.outcome hform).trans ?_
    simp [appendedOut, tagForm, hend]
  · exact congrArg Flow.outcome (appendAll_goes ctxForm tagIlbm (s := { s with phase := .form }) ⟨hend, hyes⟩)

/-- The compression flag is COMPRESS as a byte (30 R101). -/
theorem compressFlag_eq (s : State) : u8 (compressOn s).toNat = if s.ctrl.getLsbD 8 then 1 else 0 := by
  rw [compressOn]
  cases s.ctrl.getLsbD 8 <;> rfl

/-- Settles O32: one append of the header and the payload, whose fields are those of the statement. -/
theorem bmhdIsAppended : Obligations.BmhdIsAppended := by
  intro s hend hyes
  refine (congrArg Flow.outcome (appendAll_goes ctxBmhd (tagBmhd ++ be32 20 ++ bmhdPayload s)
    (s := { s with phase := .bmhd }) ⟨hend, hyes⟩)).trans ?_
  rw [bmhdPayload, compressFlag_eq, outcome_go, appendedOut]
  simp only [List.append_assoc]
  rfl

/-- Settles O33: by MODE; in HAM mode CAMG is one append. -/
theorem camgOnlyInHamMode : Obligations.CamgOnlyInHamMode := by
  intro s hend hyes
  refine ⟨fun hchip => ?_, fun hchip => ?_⟩
  · have hcamg : chsCamg s = .go (appendedOut (tagCamg ++ be32 4 ++ be32 Config.camgHam) { s with phase := .camg }) := by
      rw [chsCamg, if_pos (by simp [isHam, hchip])]
      exact appendAll_goes _ _ ⟨hend, hyes⟩
    exact congrArg Flow.outcome hcamg
  · have hcamg : chsCamg s = .go s := if_neg (by simp [isHam, hchip])
    exact congrArg Flow.outcome hcamg

/-! ## CMAP -/

/-- An entry that holds a value is appended as its three channels (R172). -/
theorem chsCmapEntry_goes {s : State} {i : Nat} (hval : (memRead s.pal i).isSome = true)
    (h : CanAppend (cmapBytes s i).length s) : chsCmapEntry i s = .go (appendedOut (cmapBytes s i) s) := by
  obtain ⟨c, hc⟩ := Option.isSome_iff_exists.mp hval
  simp only [cmapBytes, hc] at h
  simp only [chsCmapEntry, cmapBytes, hc, cmapTriple_eq]
  exact appendAll_goes _ _ h

theorem chsCmapEntries_go {is : List Nat} {s : State} (hval : ∀ i ∈ is, (memRead s.pal i).isSome = true)
    (h : CanAppend (is.flatMap (cmapBytes s)).length s) :
    forEach chsCmapEntry is s = .go (appendedOut (is.flatMap (cmapBytes s)) s) := by
  induction is generalizing s with
  | nil => rw [List.flatMap_nil, appendedOut_nil, forEach_nil]
  | cons i is ih =>
    obtain ⟨hi, his⟩ := List.forall_mem_cons.mp hval
    rw [List.flatMap_cons] at h
    obtain ⟨hnow, hlater⟩ := canAppend_append h
    rw [forEach_cons, chsCmapEntry_goes hi hnow, andThen_go, List.flatMap_cons, ← appendedOut_appendedOut]
    exact ih (s := appendedOut (cmapBytes s i) s) his hlater

theorem chunk_length (tag payload : List Byte) :
    (chunk tag payload).length = tag.length + 4 + payload.length + payload.length % 2 := by
  simp only [chunk, List.length_append, padBytes_length]
  rfl

/-- Step 4 (R172, R173): the header, the entries and the pad are one chunk. -/
theorem chsCmap_goes {s : State} (hp : paletteReady s) (h : CanAppend (chunk tagCmap (imageCmap s)).length s) :
    chsCmap s = .go (appendedOut (chunk tagCmap (imageCmap s)) { s with phase := .cmap }) := by
  have hcan : CanAppend (chunk tagCmap (imageCmap s)).length { s with phase := .cmap } := h
  rw [chunk, imageCmap_length hp] at hcan ⊢
  obtain ⟨hchunk, hpad⟩ := canAppend_append hcan
  obtain ⟨hhead, hentries⟩ := canAppend_append hchunk
  have hgo : forEach chsCmapEntry (List.range (cmapCount s)) (appendedOut _ { s with phase := .cmap }) =
      .go (appendedOut (imageCmap s) _) := chsCmapEntries_go (fun i hi => hp i (List.mem_range.mp hi)) hentries
  rw [← appendedOut_appendedOut] at hpad
  rw [chsCmap, appendAll_goes _ _ hhead, andThen_go, hgo, andThen_go, appendAll_goes _ _ hpad, appendedOut_appendedOut,
    appendedOut_appendedOut, ← List.append_assoc]

/-- The CMAP payload, entry by entry, as its statement has it. -/
theorem imageCmap_eq_getD {s : State} (hp : paletteReady s) :
    imageCmap s = (List.range (cmapCount s)).flatMap fun i =>
      let c := (memRead s.pal i).getD ⟨0, 0, 0⟩
      [cmapByte c.r, cmapByte c.g, cmapByte c.b] :=
  flatMap_range_congr fun i hi => by
    obtain ⟨c, hc⟩ := Option.isSome_iff_exists.mp (hp i hi)
    simp [hc]

/-- Settles O34: the chunk of the palette's bytes, as long as the answers that are used up. -/
theorem cmapIsAppended : Obligations.CmapIsAppended := by
  intro s hend hp hyes
  have hlen : (chunk tagCmap (imageCmap s)).length = 8 + 3 * cmapCount s + cmapCount s % 2 := by
    rw [chunk_length, imageCmap_length hp]
    show 4 + 4 + _ + _ = _
    omega
  have hgo := chsCmap_goes hp (by rw [hlen]; exact ⟨hend, hyes⟩)
  refine (congrArg Flow.outcome hgo).trans ?_
  rw [outcome_go, appendedOut, hlen, imageCmap_eq_getD hp]
  rfl

/-! ## BODY -/

/-- A part of the sequence goes on where every answer it uses up is yes. -/
theorem appended_goes {base s : State} {bytes : List Byte} {ctxs : List Context} {f : Flow}
    (h : Appended base s bytes ctxs f) (hyes : answersYes bytes.length s.oracle) :
    ∃ t, f = .go t ∧ AppFrame base t ∧ t.out = s.out ++ bytes ∧ t.wpos = t.out.length ∧
      t.oracle = s.oracle.drop bytes.length := by
  rcases h.2 with ⟨t, hgo, hframe, hout, hend, -, horacle⟩ | ⟨k, ctx, u, hk, -, hno, -⟩
  · exact ⟨t, hgo, hframe, hout, hend, horacle⟩
  · exact absurd (answersYes_not_firstNo hyes hno) (Nat.not_le.mpr hk)

/-- A length patch over its placeholder, whose length fits, where the sink does not fail (R180, R183). -/
theorem patchLength_goes (ctx : Context) {pre post : List Byte} {len : Nat} {s : State}
    (hout : s.out = pre ++ [0, 0, 0, 0] ++ post) (hfits : len < 2 ^ 32) (hyes : answersYes 6 s.oracle) :
    patchLength ctx pre.length len s =
      .go { s with out := pre ++ be32 len ++ post, wpos := s.out.length, oracle := s.oracle.drop 6 } := by
  have hoff : pre.length + 4 ≤ s.out.length := by
    rw [hout]
    simp
  rw [patchLength, if_neg (Nat.not_le.mpr hfits), sinkPatch32_yes ctx hoff hfits hyes, hout,
    overwrite_middle pre [0, 0, 0, 0] post (be32 len) rfl]

theorem planeBody_eq (s : State) : planeBody s = chsRowBytes s := rfl

/-- The state steps 5a and 5b leave but for the cursor P, RLC's registers and the sink: the two offsets and the cursor Y. -/
def bodyBegun (s : State) : State :=
  { atRow s s.height.toNat with bodyLenOff := s.out.length + 4, bodyStart := s.out.length + 8 }

/-- Steps 5a and 5b (R176 to R179) where the sink does not fail. -/
theorem chsBodyRows_go {s : State} (hend : s.wpos = s.out.length) (hyes : ∀ a ∈ s.oracle, a = true)
    (hpln : ∀ y < s.height.toNat, ∀ p < s.nplanes.toNat, ∀ b < s.rowbytes.toNat, (plnRead s.pln p y b).isSome = true) :
    ∃ t, (chsBodyHeader s).andThen chsRows = .go t ∧ AppFrame (bodyBegun s) t ∧
      t.out = s.out ++ tagBody ++ [0, 0, 0, 0] ++ chsRowBytes s ∧ t.wpos = t.out.length ∧ ∀ a ∈ t.oracle, a = true := by
  obtain ⟨t, hgo, ht, hout, hend', horacle⟩ := appended_goes (chsBodyHeader_appended hend) (answersYes_of_all hyes)
  have hyes' : ∀ a ∈ t.oracle, a = true := fun a ha => hyes a (List.mem_of_mem_drop (horacle ▸ ha))
  have hrows : chsRowBytes t = chsRowBytes s := by rw [ht]; rfl
  obtain ⟨u, hgo', hu, hout', hend'', horacle'⟩ :=
    appended_goes (chsRows_appended hend' (by rw [ht]; exact hpln)) (answersYes_of_all hyes')
  refine ⟨u, by rw [hgo, andThen_go, hgo'], ?_, ?_, hend'', fun a ha => hyes' a (List.mem_of_mem_drop (horacle' ▸ ha))⟩
  · rw [AppFrame, hu, ht]
    rfl
  · rw [hout', hout, ← hrows, ← List.append_assoc]
    rfl

/-- The state step 5c leaves where OUT was `pre`, the placeholder and `rows` (R180). -/
def bodyPatched (pre rows : List Byte) (s : State) : State :=
  { s with
    phase := .bodyFix, bodyLen := rows.length, out := pre ++ be32 rows.length ++ rows, wpos := s.out.length
    oracle := s.oracle.drop 6 }

theorem bodyPatched_atEnd {s : State} {pre rows : List Byte} (hout : s.out = pre ++ [0, 0, 0, 0] ++ rows) :
    (bodyPatched pre rows s).wpos = (bodyPatched pre rows s).out.length := by
  show s.out.length = (pre ++ be32 rows.length ++ rows).length
  rw [hout]
  simp only [List.length_append]
  rfl

/-- Step 5c (R180) on what step 5b appended, where the sink does not fail. -/
theorem chsBodyFix_goes {s : State} {pre rows : List Byte} (hout : s.out = pre ++ [0, 0, 0, 0] ++ rows)
    (hend : s.wpos = s.out.length) (hoff : s.bodyLenOff = pre.length) (hstart : s.bodyStart = pre.length + 4)
    (hfits : rows.length < 2 ^ 32) (hyes : ∀ a ∈ s.oracle, a = true) : chsBodyFix s = .go (bodyPatched pre rows s) := by
  have hlen : s.out.length = pre.length + 4 + rows.length := by
    rw [hout, List.length_append, List.length_append]
    rfl
  have hbody : sinkTell s - s.bodyStart = rows.length := by
    show s.wpos - _ = _
    omega
  rw [chsBodyFix, hbody]
  refine (congrArg (fun off => patchLength ctxBodyFix off _ _) hoff).trans ?_
  exact patchLength_goes ctxBodyFix hout hfits (answersYes_of_all hyes)

/-- Step 5d (R181) after it. -/
theorem chsBodyPad_goes {s : State} {pre rows : List Byte} (hout : s.out = pre ++ [0, 0, 0, 0] ++ rows)
    (hyes : ∀ a ∈ s.oracle, a = true) :
    chsBodyPad (bodyPatched pre rows s) = .go (appendedOut (padBytes rows.length) (bodyPatched pre rows s)) := by
  have hyes' : ∀ a ∈ (bodyPatched pre rows s).oracle, a = true := fun a ha => hyes a (List.mem_of_mem_drop ha)
  exact appendAll_goes ctxBodyFix (padBytes rows.length) ⟨bodyPatched_atEnd hout, answersYes_of_all hyes'⟩

/-- Settles O35: steps 5a and 5b, then the patch of the length and the pad, which make the bytes one chunk. -/
theorem bodyIsAppended : Obligations.BodyIsAppended := by
  intro s hend hyes hfits hpln
  rw [planeBody_eq] at hfits ⊢
  obtain ⟨t, hrows, ht, hout, hend', hyes'⟩ := chsBodyRows_go hend hyes hpln
  have hoff : t.bodyLenOff = (s.out ++ tagBody).length := by rw [ht, List.length_append]; rfl
  have hstart : t.bodyStart = (s.out ++ tagBody).length + 4 := by rw [ht, List.length_append]; rfl
  have hbody : chsBody s = .go (appendedOut (padBytes (chsRowBytes s).length)
      (bodyPatched (s.out ++ tagBody) (chsRowBytes s) t)) := by
    rw [chsBody, hrows, andThen_go, chsBodyFix_goes hout hend' hoff hstart hfits hyes', andThen_go,
      chsBodyPad_goes hout hyes']
  have hwpos := appendedOut_atEnd (padBytes (chsRowBytes s).length) (bodyPatched_atEnd hout)
  refine ⟨_, congrArg Flow.outcome hbody, ?_, ?_, ?_, rfl, ?_⟩
  · show s.out ++ tagBody ++ _ ++ _ ++ _ = _
    simp only [chunk, List.append_assoc]
    rfl
  · show t.bodyLenOff = _
    rw [ht]
    rfl
  · show t.bodyStart = _
    rw [ht]
    rfl
  · rw [← hwpos, appendedOut, bodyPatched, ht]
    rfl

/-! ## The file of an ENCODE -/

theorem imageBmhd_length (s : State) : (imageBmhd s).length = 20 := rfl

/-- The chunks before BODY: 28 bytes of BMHD, 12 of CAMG in HAM mode, and CMAP, which is never padded (R173). -/
theorem imageHead_length {s : State} (hl : configLegal s = true) (hp : paletteReady s) :
    (imageHead s).length = 36 + (if isHam s then 12 else 0) + 3 * cmapCount s := by
  have heven := cmapCount_even hl
  have hcamg : (if isHam s then chunk tagCamg (be32 0x800) else []).length = if isHam s then 12 else 0 := by
    split <;> rfl
  rw [imageHead, List.length_append, List.length_append, hcamg, chunk_length, chunk_length, imageBmhd_length,
    imageCmap_length hp]
  show 4 + 4 + 20 + 20 % 2 + _ + (4 + 4 + _ + _) = _
  omega

theorem imageChunks_length {s : State} (hl : configLegal s = true) (hp : paletteReady s) :
    (imageChunks s).length =
      44 + (if isHam s then 12 else 0) + 3 * cmapCount s + (imageBody s).length + (imageBody s).length % 2 := by
  rw [imageChunks, List.length_append, chunk_length, imageHead_length hl hp]
  show _ + (4 + 4 + _ + _) = _
  omega

theorem imageFile_length (s : State) : (imageFile s).length = 12 + (imageChunks s).length := by
  simp only [imageFile, List.length_append]
  rfl

/-- The FORM length is the second field of the file (R183). -/
theorem imageFile_formLength (s : State) : ((imageFile s).drop 4).take 4 = be32 (4 + (imageChunks s).length) := rfl

/-- The BODY length follows the tag of BODY (R180). -/
theorem imageFile_bodyLength (s : State) :
    ((imageFile s).drop (16 + (imageHead s).length)).take 4 = be32 (imageBody s).length := by
  have hfile : imageFile s = (tagForm ++ be32 (4 + (imageChunks s).length) ++ tagIlbm ++ imageHead s ++ tagBody) ++
      (be32 (imageBody s).length ++ (imageBody s ++ padBytes (imageBody s).length)) := by
    simp only [imageFile, imageChunks, chunk, List.append_assoc]
  have hlen : (tagForm ++ be32 (4 + (imageChunks s).length) ++ tagIlbm ++ imageHead s ++ tagBody).length =
      16 + (imageHead s).length := by
    simp only [List.length_append]
    show 4 + 4 + 4 + _ + 4 = _
    omega
  rw [hfile, List.drop_left' hlen]
  rfl

/-! ## The ends of an ENCODE -/

theorem encodeBegun_nplanes {s : State} (hl : configLegal s = true) : (encodeBegun s).nplanes.toNat = planeCount s := by
  have hle := planeCount_le hl
  have hfits : planeCount s < 2 ^ 32 := by omega
  exact Nat.mod_eq_of_lt hfits

theorem encodeBegun_rowbytes {s : State} (hl : configLegal s = true) :
    (encodeBegun s).rowbytes.toNat = rowBytes s.width.toNat := by
  have hle := rowBytes_le hl
  have hfits : rowBytes s.width.toNat < 2 ^ 32 := by omega
  exact Nat.mod_eq_of_lt hfits

/-- An ENCODE that answers a next state took a validation fault, or it put the bitmap into PLN and went through the sequence
(44 R200). -/
theorem exec_encode_next {s t : State} (hs : Ready s) (h : exec .encode s = .next t) :
    (∃ c v u, t = raiseFault c {} v u ∧
      (c = .unsupportedChipset ∨ c = .invalidDimensions ∨ c = .invalidPaletteSize)) ∨
    configLegal s = true ∧ ∃ u, PixelFrame { encodeBegun s with phase := .pixels } u ∧ PlanesHold s u ∧
      ((chsWrite u).andThen fun v => .go (complete v)).outcome = .next t := by
  rw [exec_encode hs] at h
  by_cases hl : configLegal s = true
  · obtain ⟨-, ⟨-, hh⟩, -⟩ := configLegal_bounds hl
    refine .inr ⟨hl, ?_⟩
    rw [runEncode_legal hl] at h
    rcases encodePixels_cases (encodeBegun s) hh with ⟨-, -, -, -, hr⟩ | ⟨r, hrefused, -⟩
    · obtain ⟨u, hgo, hf, hpln⟩ := encodePixels_fills (s := encodeBegun s) hl hr (encodeBegun_nplanes hl)
        (encodeBegun_rowbytes hl)
      rw [hgo, andThen_go] at h
      exact ⟨u, hf, hpln, h⟩
    · rw [hrefused] at h
      cases h
  · obtain ⟨c, v, he, hc⟩ := runEncode_illegal hl
    rw [he] at h
    cases h
    exact .inl ⟨c, v, _, rfl, hc⟩

/-- The sequence where PLN holds the bitmap and every palette entry a value: the sink is not created, or the sequence
completes or takes a fault after that. -/
theorem chsWrite_cases {s u : State} (hl : configLegal s = true) (hp : paletteReady s)
    (hf : PixelFrame { encodeBegun s with phase := .pixels } u) (hpln : PlanesHold s u) :
    (∃ v, chsWrite u = .raised (ioFailure ctxOpen v)) ∨
      SinkDone (sinkOpened u) (chsWrite u) ∨ SinkFault (sinkOpened u) (chsWrite u) := by
  obtain ⟨-, hheight, hplanes, -⟩ := chsReads_image hl hf hpln
  have hrowbytes : (sinkOpened u).rowbytes.toNat = rowBytes s.width.toNat := by
    rw [← encodeBegun_rowbytes hl, show (sinkOpened u).rowbytes = u.rowbytes from rfl, hf]
  have hpal : paletteReady (sinkOpened u) := by
    simp only [sinkOpened]
    rw [hf]
    exact hp
  have hread : ∀ y < (sinkOpened u).height.toNat, ∀ p < (sinkOpened u).nplanes.toNat,
      ∀ b < (sinkOpened u).rowbytes.toNat, (plnRead (sinkOpened u).pln p y b).isSome = true := by
    intro y hy p hp b hb
    rw [hheight] at hy
    rw [hplanes] at hp
    rw [hrowbytes] at hb
    rw [show plnRead (sinkOpened u).pln p y b = _ from hpln p y b, if_pos ⟨hp, hy, hb⟩]
    rfl
  rw [chsWrite_eq]
  rcases chsOpen_cases u with ⟨-, hopen⟩ | ⟨-, hopen⟩
  · rw [hopen, andThen_go]
    exact .inr (chsRest_cases rfl rfl hpal hread)
  · rw [hopen, andThen_raised]
    exact .inl ⟨_, rfl⟩

theorem sinkFault_raised {s : State} {f : Flow} (h : SinkFault s f) : ∃ v, f = .raised v := by
  obtain ⟨c, ctx, val, v, n, hraised, -⟩ := h
  exact ⟨_, hraised⟩

/-- A sequence that ends on a fault leaves STATE FAULT (60 R222). -/
theorem chsWrite_raised_status {u v : State} (h : chsWrite u = .raised v) : v.status = .fault := by
  have hends := chsWrite_seqEnds u
  rw [h] at hends
  obtain ⟨c, ctx, val, w, n, rfl, -⟩ := hends
  rfl

/-- An ENCODE in DONE has written the file, and BODY_LEN is the payload's length (43 R180, R185). -/
theorem exec_encode_done {s t : State} (hs : Ready s) (h : exec .encode s = .next t) (hdone : t.status = .done) :
    configLegal s = true ∧ paletteReady s ∧ t.out = imageFile s ∧ t.bodyLen = (imageBody s).length := by
  rcases exec_encode_next hs h with ⟨c, v, u, rfl, -⟩ | ⟨hl, u, hf, hpln, hrun⟩
  · cases hdone
  · cases hwrite : chsWrite u with
    | go v =>
      have hready := chsWrite_goes_ready u
      rw [hwrite, ends_go, hf] at hready
      have hp : paletteReady s := hready
      obtain ⟨hbody, hfile, -⟩ := chsFile_is_imageFile hl hp hf hpln
      rw [hwrite] at hrun
      cases hrun
      rcases chsWrite_cases hl hp hf hpln with ⟨w, hraised⟩ | ⟨w, hgo, hout, -, -, hlen, -⟩ | hfault
      · cases hwrite.symm.trans hraised
      · cases hwrite.symm.trans hgo
        exact ⟨hl, hp, hout.trans hfile, hlen.trans (congrArg List.length hbody)⟩
      · obtain ⟨w, hraised⟩ := sinkFault_raised hfault
        cases hwrite.symm.trans hraised
    | raised v =>
      rw [hwrite] at hrun
      cases hrun
      rw [chsWrite_raised_status hwrite] at hdone
      cases hdone
    | refused r =>
      rw [hwrite] at hrun
      cases hrun

/-- Settles O48: the lengths and the fields are those of the file that was written. -/
theorem lengthFieldsOfTheFile : Obligations.LengthFieldsOfTheFile := by
  intro s t hs h hdone
  obtain ⟨hl, hp, hout, hbody⟩ := exec_encode_done hs h hdone
  have heven := cmapCount_even hl
  have hcamg : (if isHam s then 12 else 0) % 2 = 0 := by split <;> rfl
  have hchunks := imageChunks_length hl hp
  have hlen : t.out.length = 12 + (imageChunks s).length := by rw [hout, imageFile_length]
  have hform : t.out.length - 8 = 4 + (imageChunks s).length := by omega
  have hoff : 52 + (if isHam s then 12 else 0) + 3 * cmapCount s = 16 + (imageHead s).length := by
    rw [imageHead_length hl hp]
    omega
  rw [← hbody] at hchunks
  refine ⟨by omega, by omega, ?_, ?_⟩
  · rw [hform, hout, imageFile_formLength]
  · rw [hoff, hout, hbody, imageFile_bodyLength]

/-! ## Without compression -/

/-- R178: every plane-row is stored as its ROWBYTES bytes. -/
theorem imageBody_length_uncompressed {s : State} (hc : compressOn s = false) :
    (imageBody s).length = s.height.toNat * planeCount s * rowBytes s.width.toNat := by
  have hrow : ∀ p y, (storedRow s p y).length = rowBytes s.width.toNat := by
    intro p y
    simp [storedRow, hc, imagePlaneRow]
  simp [imageBody, List.length_flatMap, hrow, Nat.mul_assoc]

/-- The largest bitmap leaves 65536 bytes of a 32-bit length, and the chunks around it take less than 900 (60 R221). -/
theorem lengthsFit_uncompressed {s : State} (hl : configLegal s = true) (hp : paletteReady s)
    (hc : compressOn s = false) : lengthsFit s := by
  obtain ⟨-, ⟨-, hh⟩, -, hpal, -⟩ := configLegal_bounds hl
  have hbody : (imageBody s).length ≤ 65535 * 8 * 8192 := by
    rw [imageBody_length_uncompressed hc]
    exact Nat.mul_le_mul (Nat.mul_le_mul hh (planeCount_le hl).2) (rowBytes_le hl)
  have hcount : cmapCount s ≤ 256 := by
    rw [cmapCount]
    split
    · decide
    · exact hpal
  have hcamg : (if isHam s then 12 else 0) ≤ 12 := by split <;> decide
  have hchunks := imageChunks_length hl hp
  exact ⟨by omega, by omega⟩

/-- A fault of the sequence is LengthOverflow only where a length does not fit (R180, R183). -/
theorem sinkFault_cause {s u v : State} (hl : configLegal s = true) (hp : paletteReady s) (hfits : lengthsFit s)
    (hf : PixelFrame { encodeBegun s with phase := .pixels } u) (hpln : PlanesHold s u)
    (h : SinkFault (sinkOpened u) (.raised v)) : v.cause = 3 := by
  obtain ⟨hbody, -, hunpatched, -⟩ := chsFile_is_imageFile hl hp hf hpln
  obtain ⟨c, ctx, val, w, n, hraised, -, -, -, hcause⟩ := h
  cases hraised
  rcases hcause with ⟨rfl, -⟩ | ⟨-, ⟨hlong, -⟩ | ⟨-, hlong, -⟩⟩
  · rfl
  · rw [hbody] at hlong
    exact absurd hfits.1 (Nat.not_lt.mpr hlong)
  · rw [hunpatched] at hlong
    exact absurd hfits.2 (Nat.not_lt.mpr hlong)

theorem ioFailure_cause (ctx : Context) (s : State) : (ioFailure ctx s).cause = 3 := by
  obtain ⟨v, n, he, -⟩ := ioFailure_eq ctx s
  rw [he]
  rfl

theorem chsFrame_cause {s t : State} (h : ChsFrame s t) : t.cause = s.cause := by rw [h]

theorem pixelFrame_cause {s t : State} (h : PixelFrame s t) : t.cause = s.cause := by rw [h]

/-- An ENCODE whose lengths fit takes no LengthOverflow: CAUSE is another one's code, or as it was (60 R215, R221). -/
theorem exec_encode_cause {s t : State} (hs : Ready s) (hp : paletteReady s)
    (hfits : configLegal s = true → lengthsFit s) (h : exec .encode s = .next t) : t.cause = s.cause ∨ t.cause ≠ 6 := by
  rcases exec_encode_next hs h with ⟨c, v, u, rfl, hc⟩ | ⟨hl, u, hf, hpln, hrun⟩
  · have hcode : causeCode c ≠ 6 := by rcases hc with rfl | rfl | rfl <;> decide
    exact .inr hcode
  · rcases chsWrite_cases hl hp hf hpln with ⟨w, hraised⟩ | ⟨w, hgo, -, -, -, -, -, -, hframe, -⟩ | hfault
    · rw [hraised] at hrun
      cases hrun
      rw [ioFailure_cause]
      exact .inr (by decide)
    · rw [hgo] at hrun
      cases hrun
      have hpixels := pixelFrame_cause hf
      have hsequence := chsFrame_cause hframe
      exact .inl (hsequence.trans hpixels)
    · obtain ⟨w, hraised⟩ := sinkFault_raised hfault
      rw [hraised] at hrun hfault
      cases hrun
      rw [sinkFault_cause hl hp (hfits hl) hf hpln hfault]
      exact .inr (by decide)

/-- Settles O49: the payload of the file that was written, and lengths that always fit. -/
theorem uncompressedBodyLength : Obligations.UncompressedBodyLength := by
  intro s t hs hc hp h
  refine ⟨fun hdone => ?_, fun hne => ?_⟩
  · obtain ⟨-, -, -, hbody⟩ := exec_encode_done hs h hdone
    rw [hbody, imageBody_length_uncompressed hc]
  · rcases exec_encode_cause hs hp (fun hl => lengthsFit_uncompressed hl hp hc) h with hkept | hother
    · rwa [hkept]
    · exact hother

end Sys2Proof.Proofs
end

section
/-!
The statements of 44_sequencer.md on single runs: the commands without a unit (R196 to R198, R211), the accesses of the port
(R199, R209), the checks that reject a configuration (R201 to R203), and the ends of ENCODE (R200, R204 to R207, R213).

ENCODE of a legal configuration with its raster provided is the sequence on the bitmap (`exec_encode_legal`), so its ends are
those of the sequence: the sink is not created, or the sequence completes or takes a fault after that (`chsWrite_cases`).
Where the sink fails no operation a length that does not fit (`chsWrite_neverFailing`) or an entry without value
(`chsWrite_refused`) is all that can keep it from completing.
-/
namespace Sys2Proof.Proofs

open Sys2Proof.Machine Sys2Proof.Claims

/-! ## Commands without a unit -/

/-- Settles O6: the arm of NOP answers the state it is given. -/
theorem nopChangesNothing : Obligations.NopChangesNothing := fun _ => rfl

/-- From 0x05 on every branch of the decoder is a reserved row (30 R92). -/
theorem exec_decodeCmd_reserved {c : Byte} (hc : 5 ≤ c.toNat) (s : State) : exec (decodeCmd c) s = .next s := by
  fun_cases decodeCmd c with
  | case1 | case2 | case3 | case4 | case5 =>
    rename_i h
    rw [h] at hc
    exact absurd hc (by decide)
  | case6 | case7 | case8 | case9 | case10 | case11 | case12 => rfl

/-- Settles O7: by the decoder's branches, and each reserved row by its arm. -/
theorem reservedCodesChangeNothing : Obligations.ReservedCodesChangeNothing :=
  ⟨fun _ s hc => exec_decodeCmd_reserved hc s, fun _ _ _ _ _ _ _ => ⟨rfl, rfl, rfl, rfl, rfl, rfl, rfl⟩⟩

/-- Settles O8: outside BUSY, CLEAR is the return from a fault. -/
theorem clearReturnsToIdle : Obligations.ClearReturnsToIdle := fun _ hs => if_neg hs

/-- Settles O9: the three commands share one acceptance test, which FAULT does not pass. -/
theorem workingCommandsIgnoredInFault : Obligations.WorkingCommandsIgnoredInFault := fun _ hs =>
  ⟨whenAccepted_fault (run := fun s => (runEncode s).outcome) hs,
    whenAccepted_fault (run := fun s => (runRleCompress s).outcome) hs,
    whenAccepted_fault (run := fun s => (runRleDecompress s).outcome) hs⟩

/-! ## Registers at the port -/

/-- CTRL stores bits 9:0 of what is written and reads 0 above them (10 R24). -/
theorem setWidth_ten_eq_and (v : Word) : (v.setWidth 10).setWidth 32 = v &&& 0x3FF := by
  apply BitVec.eq_of_toNat_eq
  have hmask : v.toNat &&& (2 ^ 10 - 1) = v.toNat % 2 ^ 10 := Nat.and_two_pow_sub_one_eq_mod _ _
  rw [BitVec.toNat_and, show (0x3FF : Word).toNat = 2 ^ 10 - 1 from rfl, hmask,
    BitVec.toNat_setWidth_of_le (by decide), BitVec.toNat_setWidth]

/-- The registers share no storage: a write changes what no other number reads (R199). -/
theorem regRead_regWrite_other {n m : BitVec 8} (h : m ≠ n) (v : Word) (s : State) :
    regRead m (regWrite n v s) = regRead m s := by
  have hne : m.toNat ≠ n.toNat := fun e => h (BitVec.eq_of_toNat_eq e)
  fun_cases regWrite n v s with
  | case6 => rfl
  | case1 hn | case2 hn | case3 hn | case4 hn | case5 hn =>
    rw [hn] at hne
    unfold regRead
    split <;> simp_all [statusWord]

/-- The five configuration registers read what was stored, and every other write is ignored (R199, 10 R38). -/
theorem regRead_regWrite_same (n : BitVec 8) (v : Word) (s : State) :
    regRead n (regWrite n v s) =
      if n = 6 ∨ n = 7 ∨ n = 8 ∨ n = 10 then v else if n = 9 then v &&& 0x3FF else regRead n s := by
  have hnumber : n = BitVec.ofNat 8 n.toNat := by rw [BitVec.ofNat_toNat, BitVec.setWidth_eq]
  fun_cases regWrite n v s with
  | case1 hn | case2 hn | case3 hn | case5 hn =>
    rw [hn] at hnumber
    subst hnumber
    rfl
  | case4 hn =>
    rw [hn] at hnumber
    subst hnumber
    exact setWidth_ten_eq_and v
  | case6 h6 h7 h8 h9 h10 =>
    have hstored : ¬ (n = 6 ∨ n = 7 ∨ n = 8 ∨ n = 10) := by
      rintro (rfl | rfl | rfl | rfl)
      · exact h6 rfl
      · exact h7 rfl
      · exact h8 rfl
      · exact h10 rfl
    have hctrl : n ≠ 9 := by
      rintro rfl
      exact h9 rfl
    rw [if_neg hstored, if_neg hctrl]

/-- Settles O51: by whether the number read is the one written. -/
theorem registerReadAfterWrite : Obligations.RegisterReadAfterWrite := by
  intro n m v s
  by_cases h : m = n
  · rw [h, regRead_regWrite_same]
    simp
  · rw [regRead_regWrite_other h, if_neg fun hm => h hm.1, if_neg fun hm => h hm.1]

/-! ## Accesses of the port -/

/-- Outside BUSY an action that presents nothing to the decoder is an access of the port, on the state from whose queue it
was taken (44 R195). -/
theorem step_access {s : State} {a : HostAction} {rest : List HostAction} (hs : s.status ≠ .busy)
    (hp : s.pending = a :: rest) (hf : fetch a = none) : step s = hostAccess a { s with pending := rest } := by
  simp only [step, hp, perform, hf]
  exact if_neg fun h => hs h.2

/-- Settles O53: neither access presents a code to the decoder, as only number 0 is CMD. -/
theorem registerAccessSteps : Obligations.RegisterAccessSteps := by
  intro s n v rest hs
  refine ⟨fun hp => step_access hs hp rfl, fun hp hn => step_access hs hp ?_⟩
  exact if_neg hn

/-- Settles O54: each write is its line of `hostAccess`; what the memories then hold is read after write. -/
theorem hostMemoryWrites : Obligations.HostMemoryWrites := by
  intro s rest hs
  refine ⟨fun i c hp => ?_, fun i v hp hi => ?_, fun i v hp hi => ?_, fun p y b v hp => step_access hs hp rfl,
    fun i v hp => step_access hs hp rfl, fun w h hp => step_access hs hp rfl, fun x y v hp => ?_,
    fun answers hp => step_access hs hp rfl⟩
  · exact ⟨_, step_access hs hp rfl, rfl, fun k => memRead_memWrite s.pal i.toNat k c⟩
  · exact ⟨_, (step_access hs hp rfl).trans (if_pos hi), rfl, fun k => memRead_memWrite s.rowin i k v⟩
  · exact (step_access hs hp rfl).trans (if_neg (Nat.not_lt.mpr hi))
  · exact ⟨_, step_access hs hp rfl, rfl, extentWith_toNat _ _, extentWith_toNat _ _,
      fun x' y' => pixRead_pixelDefined x y x' y' v { s with pending := rest }⟩

/-- A read answers the element, or is refused where there is none (R209). -/
theorem readElement_spec {α : Type} (o : Option α) (r : Refusal) (ret : α → Returned) (s : State) :
    (∀ a, o = some a → readElement o r ret s = .next { s with returned := ret a }) ∧
      (o = none → readElement o r ret s = .refused r) := by
  refine ⟨fun a ho => ?_, fun ho => ?_⟩ <;> rw [ho] <;> rfl

/-- The read of a space of `n` elements: outside it there is no element (20 R60, log 15). -/
theorem boundedRead_spec {α : Type} (o : Option α) (r : Refusal) (ret : α → Returned) (s : State) (i n : Nat)
    {x : Host.Outcome State Fault Refusal} (hx : x = if i < n then readElement o r ret s else .fault .noSuchElement) :
    (∀ a, i < n → o = some a → x = .next { s with returned := ret a }) ∧ (i < n → o = none → x = .refused r) ∧
      (n ≤ i → x = .fault .noSuchElement) := by
  obtain ⟨hsome, hnone⟩ := readElement_spec o r ret s
  exact ⟨fun a hi ho => (hx.trans (if_pos hi)).trans (hsome a ho), fun hi ho => (hx.trans (if_pos hi)).trans (hnone ho),
    fun hi => hx.trans (if_neg (Nat.not_lt.mpr hi))⟩

/-- Settles O55: each read is its line of `hostAccess`, in a space with a bound after the test of the index. -/
theorem hostMemoryReads : Obligations.HostMemoryReads := by
  intro s rest hs
  refine ⟨fun i hp => ?_, fun i hp => boundedRead_spec _ _ _ _ i 65535 (step_access hs hp rfl),
    fun i hp => boundedRead_spec _ _ _ _ i 131070 (step_access hs hp rfl), fun p y b hp => ?_⟩
  · rw [step_access hs hp rfl]
    exact readElement_spec _ _ _ _
  · rw [step_access hs hp rfl]
    exact readElement_spec _ _ _ _

/-! ## The checks -/

/-- Where the checks begin: STATE BUSY, PHASE PH_VALIDATE (R200). -/
def checking (s : State) : State := { s with status := .busy, phase := .validate }

/-- The checks come before everything else, so an ENCODE that one of them rejects has done no more than that (60 R222). -/
theorem rejected_takesValidationFault {s : State} {c : Cause} {v : Word} (hs : Ready s)
    (h : ((checkChipset (checking s)).andThen checkDimensions).andThen checkPalette = rejectConfig c v (checking s)) :
    TakesValidationFault s (causeCode c) v := by
  have hrun : runEncode s = rejectConfig c v (checking s) := by
    have hval : validate { s with status := .busy } = rejectConfig c v (checking s) := h
    rw [runEncode, hval]
    rfl
  refine ⟨raiseFault c {} v (drawPln (checking s)), ?_, ?_, fun p y b => ?_⟩
  · rw [exec_encode hs, hrun]
    rfl
  · rw [raiseFault_eq_with]
    rfl
  · rw [raiseFault_eq_with]
    exact (congrArg Option.isSome (plnRead_drawPln (checking s) p y b)).trans Option.isSome_map

theorem checkChipset_goes {s : State} (h : chipset s = 0 ∨ chipset s = 1) : checkChipset s = .go s := if_pos h

theorem dimensionOk_iff (v : Word) : dimensionOk v = true ↔ 1 ≤ v.toNat ∧ v.toNat ≤ 65535 := by
  simp [dimensionOk, Nat.succ_le_iff]

theorem checkDimensions_goes {s : State} (hw : dimensionOk s.width = true) (hh : dimensionOk s.height = true) :
    checkDimensions s = .go s := by
  rw [checkDimensions, if_neg (not_not.mpr hw), if_neg (not_not.mpr hh)]

/-- Settles O37: the chipset check is the first. -/
theorem chipsetRejectedFirst : Obligations.ChipsetRejectedFirst := by
  intro s hs h0 h1
  have hcheck : checkChipset (checking s) = rejectConfig .unsupportedChipset ((chipset s).setWidth 32) (checking s) :=
    if_neg (not_or.mpr ⟨h0, h1⟩)
  refine rejected_takesValidationFault (c := .unsupportedChipset) hs ?_
  rw [hcheck]
  rfl

/-- Settles O38: with a legal chipset the dimension check decides, WIDTH before HEIGHT. -/
theorem dimensionsRejectedSecond : Obligations.DimensionsRejectedSecond := by
  intro s hs hc
  have hchip : checkChipset (checking s) = .go (checking s) := checkChipset_goes hc
  refine ⟨fun hw => rejected_takesValidationFault (c := .invalidDimensions) hs ?_,
    fun hw1 hw2 hh => rejected_takesValidationFault (c := .invalidDimensions) hs ?_⟩
  · have hbad : ¬ dimensionOk s.width = true := by rw [dimensionOk_iff]; omega
    have hcheck : checkDimensions (checking s) = rejectConfig .invalidDimensions s.width (checking s) := if_pos hbad
    rw [hchip, andThen_go, hcheck]
    rfl
  · have hok : dimensionOk s.width = true := (dimensionOk_iff _).mpr ⟨hw1, hw2⟩
    have hbad : ¬ dimensionOk s.height = true := by rw [dimensionOk_iff]; omega
    have hcheck : checkDimensions (checking s) = rejectConfig .invalidDimensions s.height (checking s) :=
      (if_neg (not_not.mpr hok)).trans (if_pos hbad)
    rw [hchip, andThen_go, hcheck]
    rfl

/-- The legal palette sizes (R203). -/
theorem mem_of_paletteSizeOk {v : Word} (h : paletteSizeOk v = true) :
    v.toNat ∈ [2, 4, 8, 16, 32, 64, 128, 256] := by
  simp only [paletteSizeOk, decide_eq_true_eq] at h
  obtain ⟨(hmin : 2 ≤ v.toNat), (hmax : v.toNat ≤ 256), hpow⟩ := h
  have hlog : v.toNat.log2 < 9 := (Nat.log2_lt (by omega)).mpr (by omega)
  rw [← hpow] at hmin ⊢
  revert hmin
  interval_cases v.toNat.log2 <;> decide

/-- Settles O39: with legal dimensions the palette check decides, on its first test or on the one for HAM mode. -/
theorem paletteSizeRejectedThird : Obligations.PaletteSizeRejectedThird := by
  intro s hs hc hw1 hw2 hh1 hh2 hbad
  have hchip : checkChipset (checking s) = .go (checking s) := checkChipset_goes hc
  have hdim : checkDimensions (checking s) = .go (checking s) :=
    checkDimensions_goes ((dimensionOk_iff _).mpr ⟨hw1, hw2⟩) ((dimensionOk_iff _).mpr ⟨hh1, hh2⟩)
  have hcheck : checkPalette (checking s) = rejectConfig .invalidPaletteSize s.palsize (checking s) := by
    by_cases hok : paletteSizeOk s.palsize = true
    · obtain ⟨hham, hsmall⟩ := hbad.resolve_left (not_not.mpr (mem_of_paletteSizeOk hok))
      exact (if_neg (not_not.mpr hok)).trans (if_pos ⟨decide_eq_true hham, hsmall⟩)
    · exact if_pos hok
  refine rejected_takesValidationFault (c := .invalidPaletteSize) hs ?_
  rw [hchip, andThen_go, hdim, andThen_go, hcheck]

/-! ## The ends of ENCODE -/

/-- Settles O43: DONE is reached at the end of the sequence alone. -/
theorem doneMeansTheWholeFile : Obligations.DoneMeansTheWholeFile := by
  intro s t hs h hdone
  obtain ⟨hl, -, hout, -⟩ := exec_encode_done hs h hdone
  exact ⟨hl, hout⟩

/-- ENCODE of a legal configuration with its raster provided is the sequence on the bitmap (R200, R204, R205). -/
theorem exec_encode_legal {s : State} (hs : Ready s) (hl : configLegal s = true) (hr : rasterReady s) :
    ∃ u, PixelFrame { encodeBegun s with phase := .pixels } u ∧ PlanesHold s u ∧
      exec .encode s = ((chsWrite u).andThen fun t => .go (complete t)).outcome := by
  obtain ⟨u, hgo, hf, hpln⟩ := encodePixels_fills (s := encodeBegun s) hl hr (encodeBegun_nplanes hl)
    (encodeBegun_rowbytes hl)
  refine ⟨u, hf, hpln, ?_⟩
  rw [exec_encode hs, runEncode_legal hl, hgo, andThen_go]

/-- Pixel encoding leaves the sink and its answers as they were. -/
theorem pixelFrame_oracle {s u : State} (hf : PixelFrame { encodeBegun s with phase := .pixels } u) :
    u.oracle = s.oracle := by
  rw [hf]
  rfl

/-- A sink that fails no operation is created. -/
theorem chsOpen_goes {u : State} (hyes : ∀ a ∈ u.oracle, a = true) : chsOpen u = .go (sinkOpened u) := by
  have hanswer : sinkAnswer u = true := (answersYes_succ.mp (answersYes_of_all (n := 1) hyes)).1
  rcases chsOpen_cases u with ⟨-, hopen⟩ | ⟨hno, -⟩
  · exact hopen
  · rw [hanswer] at hno
    cases hno

/-- What the sequence reads once the sink is created holds values: the palette is provided, and PLN holds the bitmap. -/
theorem sinkOpened_reads {s u : State} (hl : configLegal s = true) (hp : paletteReady s)
    (hf : PixelFrame { encodeBegun s with phase := .pixels } u) (hpln : PlanesHold s u) :
    paletteReady (sinkOpened u) ∧ ∀ y < (sinkOpened u).height.toNat, ∀ p < (sinkOpened u).nplanes.toNat,
      ∀ b < (sinkOpened u).rowbytes.toNat, (plnRead (sinkOpened u).pln p y b).isSome = true := by
  obtain ⟨-, hheight, hplanes, -⟩ := chsReads_image hl hf hpln
  have hrowbytes : (sinkOpened u).rowbytes.toNat = rowBytes s.width.toNat := by
    rw [← encodeBegun_rowbytes hl, show (sinkOpened u).rowbytes = u.rowbytes from rfl, hf]
  rw [hheight, hplanes, hrowbytes]
  refine ⟨?_, fun y hy p hp b hb => ?_⟩
  · rw [show u = _ from hf]
    exact hp
  · rw [show plnRead (sinkOpened u).pln p y b = _ from hpln p y b, if_pos ⟨hp, hy, hb⟩]
    rfl

/-- The sequence where PLN holds the bitmap, every palette entry a value and the sink fails no operation: it completes, or
a length does not fit (R207, 60 R221). -/
theorem chsWrite_neverFailing {s u : State} (hl : configLegal s = true) (hp : paletteReady s)
    (hf : PixelFrame { encodeBegun s with phase := .pixels } u) (hpln : PlanesHold s u)
    (hyes : ∀ a ∈ s.oracle, a = true) :
    SinkDone (sinkOpened u) (chsWrite u) ∨
      ∃ ctx val v n, chsWrite u = .raised (raiseFault .lengthOverflow ctx val { v with freeTick := n }) ∧
        ChsFrame (sinkOpened u) v ∧ SinkOverflow (sinkOpened u) ctx val v := by
  rw [← pixelFrame_oracle hf] at hyes
  have hyes' : ∀ a ∈ (sinkOpened u).oracle, a = true := fun a ha => hyes a (List.mem_of_mem_tail ha)
  obtain ⟨hpal, hread⟩ := sinkOpened_reads hl hp hf hpln
  rw [chsWrite_eq, chsOpen_goes hyes, andThen_go]
  rcases chsRest_cases rfl rfl hpal hread with hdone | ⟨c, ctx, val, v, n, hraised, hframe, -, -, hcause⟩
  · exact .inl hdone
  · rcases hcause with ⟨-, -, k, hno, -⟩ | ⟨rfl, hover⟩
    · exact absurd hyes' (firstNo_not_all hno)
    · exact .inr ⟨ctx, val, v, n, hraised, hframe, hover⟩

/-- What the sequence on the bitmap leaves of the state ENCODE was given (60 R222). -/
theorem sequence_keeps {s u v : State} (hf : PixelFrame { encodeBegun s with phase := .pixels } u)
    (hseq : ChsFrame (sinkOpened u) v) :
    EncodeKeeps s v ∧ v.nplanes = (encodeBegun s).nplanes ∧ v.rowbytes = (encodeBegun s).rowbytes ∧ v.pln = u.pln ∧
      v.cause = s.cause ∧ v.faultChunk = s.faultChunk ∧ v.faultPlane = s.faultPlane ∧ v.faultRow = s.faultRow ∧
      v.faultValue = s.faultValue := by
  have hkeeps := encodeKeeps_of_pixelFrame hf
  rw [show v = _ from hseq]
  refine ⟨hkeeps, ?_⟩
  rw [show u = _ from hf]
  exact ⟨rfl, rfl, rfl, rfl, rfl, rfl, rfl, rfl⟩

/-- Settles O40: where both lengths fit, a sink that fails no operation lets the sequence complete. -/
theorem encodeWritesTheFile : Obligations.EncodeWritesTheFile := by
  intro s hs hl hr hp hfits hyes
  obtain ⟨u, hf, hpln, hexec⟩ := exec_encode_legal hs hl hr
  obtain ⟨hbody, hfile, hunpatched, -⟩ := chsFile_is_imageFile hl hp hf hpln
  rcases chsWrite_neverFailing hl hp hf hpln hyes with
    ⟨w, hgo, hout, hclosed, -, -, -, -, hframe, -⟩ | ⟨ctx, val, v, n, -, -, hover⟩
  · obtain ⟨hkeeps, hnplanes, hrowbytes, hplanes, hcause, hchunk, hplane, hrow, hvalue⟩ := sequence_keeps hf hframe
    rw [hgo] at hexec
    refine ⟨complete w, hexec, rfl, rfl, hclosed, hout.trans hfile, ?_, ?_, hcause, hchunk, hplane, hrow, hvalue, hkeeps,
      fun p y b => ?_⟩
    · exact (congrArg BitVec.toNat hnplanes).trans (encodeBegun_nplanes hl)
    · exact (congrArg BitVec.toNat hrowbytes).trans (encodeBegun_rowbytes hl)
    · exact (congrArg (fun m => plnRead m p y b) hplanes).trans (hpln p y b)
  · rw [SinkOverflow, hbody, hunpatched] at hover
    obtain ⟨hfits1, hfits2⟩ := hfits
    omega

/-- Settles O41: the sequence ends in one of its three ways, and of a sink that fails no operation only in LengthOverflow
where a length does not fit. -/
theorem encodeEndsWhateverTheSinkAnswers : Obligations.EncodeEndsWhateverTheSinkAnswers := by
  refine ⟨fun s hs hl hr hp => ?_, fun s hs hl hr hp hlong hyes => ?_⟩
  · obtain ⟨u, hf, hpln, hexec⟩ := exec_encode_legal hs hl hr
    rcases chsWrite_cases hl hp hf hpln with ⟨v, hraised⟩ | ⟨w, hgo, -, hclosed, -⟩ |
      ⟨c, ctx, val, v, n, hraised, -, -, -, hcause⟩
    · obtain ⟨val, n, he, -⟩ := ioFailure_eq ctxOpen v
      rw [hraised, he, raiseFault_eq_with] at hexec
      exact ⟨_, hexec, rfl, rfl, .inr ⟨rfl, .inl rfl⟩⟩
    · rw [hgo] at hexec
      exact ⟨_, hexec, hclosed, rfl, .inl rfl⟩
    · have hcode : causeCode c = 3 ∨ causeCode c = 6 := by
        rcases hcause with ⟨rfl, -⟩ | ⟨rfl, -⟩
        · exact .inl rfl
        · exact .inr rfl
      rw [hraised, raiseFault_eq_with] at hexec
      exact ⟨_, hexec, rfl, rfl, .inr ⟨rfl, hcode⟩⟩
  · obtain ⟨u, hf, hpln, hexec⟩ := exec_encode_legal hs hl hr
    obtain ⟨hbody, -, hunpatched, -, happended, hfixed⟩ := chsFile_is_imageFile hl hp hf hpln
    rcases chsWrite_neverFailing hl hp hf hpln hyes with
      ⟨w, -, -, -, -, -, hfits1, hfits2, -⟩ | ⟨ctx, val, v, n, hraised, hframe, hover⟩
    · rw [hbody] at hfits1
      rw [hunpatched] at hfits2
      exact absurd ⟨hfits1, hfits2⟩ hlong
    · obtain ⟨hkeeps, -⟩ := sequence_keeps hf hframe
      rw [hraised, raiseFault_eq_with] at hexec
      rw [SinkOverflow, hbody, hunpatched, happended, hfixed] at hover
      rcases hover with ⟨hbig, rfl, rfl, hout⟩ | ⟨hsmall, -, rfl, rfl, hout⟩
      · refine ⟨_, hexec, rfl, rfl, rfl, rfl, rfl, rfl, hkeeps, ?_⟩
        rw [if_pos hbig]
        exact ⟨rfl, rfl, hout⟩
      · refine ⟨_, hexec, rfl, rfl, rfl, rfl, rfl, rfl, hkeeps, ?_⟩
        rw [if_neg (Nat.not_le.mpr hsmall)]
        exact ⟨rfl, rfl, hout⟩

/-! ## Inputs without value -/

/-- What the sequence needs to go on: WPOS is at the end of OUT, and the sink fails no operation (20 R71, R75). -/
def NeverFails (s : State) : Prop := s.wpos = s.out.length ∧ ∀ a ∈ s.oracle, a = true

/-- A part of the sequence that goes on, and after which the next one can. -/
def GoesOn (s : State) (f : Flow) : Prop := ∃ t, f = .go t ∧ NeverFails t ∧ ChsFrame s t

theorem GoesOn.andThen {s : State} {f : Flow} {g : State → Flow} (hf : GoesOn s f)
    (hg : ∀ t, NeverFails t → ChsFrame s t → GoesOn t (g t)) : GoesOn s (f.andThen g) := by
  obtain ⟨t, rfl, ht, hst⟩ := hf
  obtain ⟨u, hu, hnu, htu⟩ := hg t ht hst
  exact ⟨u, hu, hnu, hst.trans htu⟩

theorem appended_goesOn {base s : State} {bytes : List Byte} {ctxs : List Context} {f : Flow}
    (h : Appended base s bytes ctxs f) (hbase : ChsFrame s base) (hs : NeverFails s) : GoesOn s f := by
  obtain ⟨t, hgo, hframe, -, hend, horacle⟩ := appended_goes h (answersYes_of_all hs.2)
  refine ⟨t, hgo, ⟨hend, fun a ha => hs.2 a ?_⟩, hbase.trans hframe.chs⟩
  rw [horacle] at ha
  exact List.mem_of_mem_drop ha

/-- An entry that holds a value is appended, and one that holds none is refused (R213, 43 R172). -/
theorem chsCmapEntry_goes_or_refuses (i : Nat) {s : State} (hs : NeverFails s) :
    (GoesOn s (chsCmapEntry i s) ∧ (memRead s.pal i).isSome = true) ∨ chsCmapEntry i s = .refused .noValuePal := by
  cases hread : memRead s.pal i with
  | none => exact .inr (by simp only [chsCmapEntry, hread])
  | some c =>
    have hgo := appended_goesOn (appendAll_appended ctxCmap (cmapTriple s i c) hs.1) rfl hs
    exact .inl ⟨by simpa only [chsCmapEntry, hread] using hgo, rfl⟩

/-- The entries are refused where one of them holds no value. -/
theorem chsCmapEntries_refused {s : State} {n : Nat} (hs : NeverFails s)
    (hp : ¬ ∀ i < n, (memRead s.pal i).isSome = true) :
    forEach chsCmapEntry (List.range n) s = .refused .noValuePal := by
  have hloop := forEach_range_goes_or_refuses (body := chsCmapEntry) (B := (· = .noValuePal))
    (P := fun j t => (NeverFails t ∧ t.pal = s.pal) ∧ ∀ i < j, (memRead s.pal i).isSome = true) n (s := s)
    ⟨⟨hs, rfl⟩, by simp⟩ fun j _ t ht => by
      obtain ⟨⟨ht, hpal⟩, hbefore⟩ := ht
      rcases chsCmapEntry_goes_or_refuses j ht with ⟨⟨u, hgo, hu, hframe⟩, hsome⟩ | hrefused
      · rw [hpal] at hsome
        have hpu : u.pal = t.pal := by rw [hframe]
        refine .inl ⟨u, hgo, ⟨hu, hpu.trans hpal⟩, fun i hi => ?_⟩
        rcases Nat.lt_succ_iff_lt_or_eq.mp hi with hlt | rfl
        · exact hbefore i hlt
        · exact hsome
      · exact .inr ⟨_, hrefused, rfl⟩
  rcases hloop with ⟨-, -, -, hall⟩ | ⟨r, hrefused, rfl⟩
  · exact absurd hall hp
  · exact hrefused

/-- Step 4 is refused there, after its header (43 R172). -/
theorem chsCmap_refused {s : State} (hs : NeverFails s) (hp : ¬ paletteReady s) :
    chsCmap s = .refused .noValuePal := by
  have hhead := appendAll_appended ctxCmap (tagCmap ++ be32 (3 * cmapCount s)) (s := { s with phase := .cmap }) hs.1
  obtain ⟨t, hgo, ht, hframe⟩ := appended_goesOn hhead rfl hs
  have hpal : t.pal = s.pal := by rw [hframe]
  rw [chsCmap, hgo, andThen_go, chsCmapEntries_refused ht (by rwa [hpal])]
  rfl

/-- The steps before CMAP go on where the sink fails no operation. -/
theorem chsHead_goesOn {s : State} (hs : NeverFails s) :
    GoesOn s ((((chsForm s).andThen chsIlbm).andThen chsBmhd).andThen chsCamg) :=
  (((appended_goesOn (chsForm_appended hs.1) rfl hs).andThen
    fun _ ht _ => appended_goesOn (chsIlbm_appended ht.1) rfl ht).andThen
    fun _ ht _ => appended_goesOn (chsBmhd_appended ht.1) rfl ht).andThen
    fun _ ht _ => appended_goesOn (chsCamg_appended ht.1) rfl ht

theorem chsWrite_refused {s : State} (hyes : ∀ a ∈ s.oracle, a = true) (hp : ¬ paletteReady s) :
    chsWrite s = .refused .noValuePal := by
  have hopened : NeverFails (sinkOpened s) := ⟨rfl, fun a ha => hyes a (List.mem_of_mem_tail ha)⟩
  obtain ⟨t, hhead, ht, hframe⟩ := chsHead_goesOn hopened
  have hpt : ¬ paletteReady t := by
    rw [show t = _ from hframe]
    exact hp
  rw [chsWrite_eq, chsOpen_goes hyes, andThen_go, chsAppends, hhead, andThen_go, chsCmap_refused ht hpt]
  rfl

/-- A raster that is not provided is refused before anything is written (R213, 93 U8). -/
theorem exec_encode_rasterRefused {s : State} (hs : Ready s) (hl : configLegal s = true) (hr : ¬ rasterReady s) :
    ∃ r, exec .encode s = .refused r ∧ RasterRefusal s r := by
  obtain ⟨-, ⟨-, hh⟩, -⟩ := configLegal_bounds hl
  rcases encodePixels_cases (encodeBegun s) hh with ⟨-, -, -, -, hready⟩ | ⟨r, hrefused, hcause⟩
  · exact absurd hready hr
  · refine ⟨r, ?_, hcause⟩
    rw [exec_encode hs, runEncode_legal hl, hrefused]
    rfl

/-- Settles O46: pixel encoding refuses a raster by its dimensions, then by a pixel; the sequence refuses a palette at
CMAP. -/
theorem encodeRefusesInputsWithoutValue : Obligations.EncodeRefusesInputsWithoutValue := by
  refine ⟨fun s hs hl hsize => ?_, fun s hs hl hw hh hr => ?_, fun s hs hl hr hp hyes => ?_⟩
  · have hother : ¬ rasterMatches s = true := by
      rw [rasterMatches_iff]
      exact not_and_or.mpr hsize
    obtain ⟨r, hexec, ⟨-, rfl⟩ | ⟨hmatch, -⟩⟩ := exec_encode_rasterRefused hs hl fun hr => hother hr.1
    · exact hexec
    · exact absurd hmatch hother
  · have hmatch : rasterMatches s = true := (rasterMatches_iff s).mpr ⟨hw, hh⟩
    obtain ⟨r, hexec, ⟨hother, -⟩ | ⟨-, rfl | rfl⟩⟩ := exec_encode_rasterRefused hs hl hr
    · rw [hmatch] at hother
      cases hother
    · exact .inl hexec
    · exact .inr hexec
  · obtain ⟨u, hf, -, hexec⟩ := exec_encode_legal hs hl hr
    have hpu : ¬ paletteReady u := by
      rw [show u = _ from hf]
      exact hp
    rw [chsWrite_refused (by rwa [pixelFrame_oracle hf]) hpu] at hexec
    exact hexec

end Sys2Proof.Proofs
end

section
/-!
DITHER has no effect (44_sequencer.md R210). No rule reads the bit, so the two runs of ENCODE go through the same parts
with the same answers, on states that differ in CTRL alone: every part of the command leads from a state and its twin to twins
again (`Commutes`). Only CHIPSET and COMPRESS are read of CTRL, so bits 8:0 are what the twins have in common.
-/
namespace Sys2Proof.Proofs

open Sys2Proof.Machine Sys2Proof.Claims

/-! ## Twins -/

/-- The twin of a state: the same but for CTRL. -/
def withCtrl (c : BitVec 10) (s : State) : State := { s with ctrl := c }

/-- CTRL differs from `c` at most in DITHER, its bit 9 (10 R24). -/
def AgreesBelowDither (c : BitVec 10) (s : State) : Prop := c.extractLsb' 0 9 = s.ctrl.extractLsb' 0 9

/-- The same end on a state and on its twin. -/
inductive Twin (c : BitVec 10) : Flow → Flow → Prop where
  | go {s : State} (h : AgreesBelowDither c s) : Twin c (.go s) (.go (withCtrl c s))
  | raised (s : State) : Twin c (.raised s) (.raised (withCtrl c s))
  | refused (r : Refusal) : Twin c (.refused r) (.refused r)

/-- A part of a command that leads from twins to twins. -/
def Commutes (c : BitVec 10) (f : State → Flow) : Prop :=
  ∀ s, AgreesBelowDither c s → Twin c (f s) (f (withCtrl c s))

section
variable {c : BitVec 10} {s : State}

theorem Twin.andThen {f f' : Flow} {g : State → Flow} (hf : Twin c f f') (hg : Commutes c g) :
    Twin c (f.andThen g) (f'.andThen g) := by
  cases hf with
  | go h => exact hg _ h
  | raised s => exact .raised s
  | refused r => exact .refused r

theorem Twin.ite {p p' : Prop} [Decidable p] [Decidable p'] {f f' g g' : Flow} (hp : p ↔ p') (hf : Twin c f f')
    (hg : Twin c g g') : Twin c (if p then f else g) (if p' then f' else g') := by
  by_cases h : p
  · rwa [if_pos h, if_pos (hp.mp h)]
  · rwa [if_neg h, if_neg (mt hp.mpr h)]

theorem Commutes.forEach {body : Nat → State → Flow} (hb : ∀ i, Commutes c (body i)) (is : List Nat) :
    Commutes c (forEach body is) := by
  induction is with
  | nil => exact fun _ h => .go h
  | cons i is ih => exact fun s h => (hb i s h).andThen ih

/-! ## What is read of CTRL -/

theorem chipset_withCtrl (h : AgreesBelowDither c s) : chipset (withCtrl c s) = chipset s := by
  have hlow : ∀ d : BitVec 10, d.extractLsb' 0 8 = (d.extractLsb' 0 9).extractLsb' 0 8 := by decide
  rw [chipset, chipset, hlow, hlow s.ctrl]
  exact congrArg (BitVec.extractLsb' 0 8) h

theorem compressOn_withCtrl (h : AgreesBelowDither c s) : compressOn (withCtrl c s) = compressOn s := by
  have hlow : ∀ d : BitVec 10, d.getLsbD 8 = (d.extractLsb' 0 9).getLsbD 8 := by decide
  rw [compressOn, compressOn, hlow, hlow s.ctrl]
  exact congrArg (fun d : BitVec 9 => d.getLsbD 8) h

theorem isHam_withCtrl (h : AgreesBelowDither c s) : isHam (withCtrl c s) = isHam s := by
  rw [isHam, isHam, chipset_withCtrl h]

theorem planeCount_withCtrl (h : AgreesBelowDither c s) : planeCount (withCtrl c s) = planeCount s := by
  rw [planeCount, planeCount, isHam_withCtrl h]
  rfl

theorem cmapCount_withCtrl (h : AgreesBelowDither c s) : cmapCount (withCtrl c s) = cmapCount s := by
  rw [cmapCount, cmapCount, isHam_withCtrl h]
  rfl

theorem bmhdPayload_withCtrl (h : AgreesBelowDither c s) : bmhdPayload (withCtrl c s) = bmhdPayload s := by
  rw [bmhdPayload, bmhdPayload, compressOn_withCtrl h]
  rfl

theorem isHam_iff_withCtrl (h : AgreesBelowDither c s) : isHam s = true ↔ isHam (withCtrl c s) = true := by
  rw [isHam_withCtrl h]

/-! ## Faults -/

theorem raiseFault_withCtrl (cause : Cause) (ctx : Context) (v : Word) (s : State) :
    raiseFault cause ctx v (withCtrl c s) = withCtrl c (raiseFault cause ctx v s) := by
  rw [raiseFault_eq_with, raiseFault_eq_with]
  rfl

theorem twin_raiseFault (cause : Cause) (ctx : Context) (v : Word) (s : State) :
    Twin c (.raised (raiseFault cause ctx v s)) (.raised (raiseFault cause ctx v (withCtrl c s))) := by
  rw [raiseFault_withCtrl]
  exact .raised _

/-- The length of OUT and the free value do not depend on CTRL (60 R218, log 7). -/
theorem ioFailure_withCtrl (ctx : Context) (s : State) : ioFailure ctx (withCtrl c s) = withCtrl c (ioFailure ctx s) := by
  by_cases hlen : s.out.length < 2 ^ 32
  · rw [ioFailure, ioFailure, if_pos hlen]
    exact (if_pos hlen).trans (raiseFault_withCtrl _ _ _ s)
  · rw [ioFailure, ioFailure, if_neg hlen]
    exact (if_neg hlen).trans (raiseFault_withCtrl _ _ _ { s with freeTick := s.freeTick + 1 })

theorem twin_ioFailure (ctx : Context) (s : State) :
    Twin c (.raised (ioFailure ctx s)) (.raised (ioFailure ctx (withCtrl c s))) := by
  rw [ioFailure_withCtrl]
  exact .raised _

/-! ## The sink -/

theorem sinkCreate_commutes : Commutes c sinkCreate := fun s h =>
  .ite Iff.rfl (.go h) (twin_ioFailure ctxOpen (answered s))

theorem sinkAppend_commutes (ctx : Context) (b : Byte) : Commutes c (sinkAppend ctx b) := fun s h =>
  .ite Iff.rfl (.refused _) (.ite Iff.rfl (.go h) (twin_ioFailure ctx (answered s)))

theorem appendAll_commutes (ctx : Context) (bs : List Byte) : Commutes c (appendAll ctx bs) := by
  induction bs with
  | nil => exact fun _ h => .go h
  | cons b bs ih => exact fun s h => (sinkAppend_commutes ctx b s h).andThen ih

theorem twin_patchFailed (ctx : Context) (s : State) : Twin c (patchFailed ctx s) (patchFailed ctx (withCtrl c s)) :=
  twin_ioFailure ctx { s with wpos := s.out.length }

theorem sinkSeek_commutes (ctx : Context) (off : Nat) : Commutes c (sinkSeek ctx off) := fun s h =>
  .ite Iff.rfl (.go h) (twin_patchFailed ctx (answered s))

theorem sinkOverwrite_commutes (ctx : Context) (b : Byte) : Commutes c (sinkOverwrite ctx b) := fun s h =>
  .ite Iff.rfl (.go h) (twin_patchFailed ctx (answered s))

theorem overwriteAll_commutes (ctx : Context) (bs : List Byte) : Commutes c (overwriteAll ctx bs) := by
  induction bs with
  | nil => exact fun _ h => .go h
  | cons b bs ih => exact fun s h => (sinkOverwrite_commutes ctx b s h).andThen ih

theorem sinkPatch32_commutes (ctx : Context) (off v : Nat) : Commutes c (sinkPatch32 ctx off v) := fun s h =>
  .ite Iff.rfl (((sinkSeek_commutes ctx off s h).andThen (overwriteAll_commutes ctx _)).andThen
    fun t ht => sinkSeek_commutes ctx t.out.length t ht) (.refused _)

/-! ## The sequence -/

theorem chsOpen_commutes : Commutes c chsOpen := fun s h => sinkCreate_commutes { s with phase := .openSink } h

theorem chsForm_commutes : Commutes c chsForm := fun s h =>
  (appendAll_commutes ctxForm tagForm { s with phase := .form } h).andThen fun t ht =>
    appendAll_commutes ctxForm Config.placeholder { t with formLenOff := sinkTell t } ht

theorem chsIlbm_commutes : Commutes c chsIlbm := fun s h => appendAll_commutes ctxForm tagIlbm { s with phase := .form } h

theorem chsBmhd_commutes : Commutes c chsBmhd := fun s h => by
  rw [chsBmhd, chsBmhd, bmhdPayload_withCtrl h]
  exact appendAll_commutes ctxBmhd _ { s with phase := .bmhd } h

theorem chsCamg_commutes : Commutes c chsCamg := fun s h =>
  .ite (isHam_iff_withCtrl h) (appendAll_commutes ctxCamg _ { s with phase := .camg } h) (.go h)

theorem chsCmapEntry_commutes (i : Nat) : Commutes c (chsCmapEntry i) := fun s h => by
  cases hread : memRead s.pal i with
  | none =>
    simp only [chsCmapEntry, withCtrl, hread]
    exact .refused _
  | some v =>
    simp only [chsCmapEntry, cmapTriple_eq, withCtrl, hread]
    exact appendAll_commutes ctxCmap _ s h

theorem chsCmap_commutes : Commutes c chsCmap := fun s h => by
  rw [chsCmap, chsCmap, cmapCount_withCtrl h]
  exact ((appendAll_commutes ctxCmap _ { s with phase := .cmap } h).andThen
    (.forEach chsCmapEntry_commutes _)).andThen (appendAll_commutes ctxCmap _)

theorem chsBodyHeader_commutes : Commutes c chsBodyHeader := fun s h =>
  ((appendAll_commutes ctxBody tagBody { s with phase := .body } h).andThen fun t ht =>
    appendAll_commutes ctxBody Config.placeholder { t with bodyLenOff := sinkTell t } ht).andThen
      fun _ ht => .go ht

theorem chsPlaneRow_commutes (y p : Nat) : Commutes c (chsPlaneRow y p) := fun s h => by
  cases hread : planeRow s.pln p y 0 s.rowbytes.toNat with
  | none =>
    simp only [chsPlaneRow, withCtrl, hread]
    exact .refused _
  | some row =>
    have hcompress : compressOn s = true ↔ compressOn (withCtrl c s) = true := by rw [compressOn_withCtrl h]
    have hread' : planeRow (withCtrl c s).pln p y 0 (withCtrl c s).rowbytes.toNat = some row := hread
    simp only [chsPlaneRow, hread, hread']
    exact .ite hcompress
      (appendAll_commutes _ _ { s with p := BitVec.ofNat 4 p, rlc := compressRegs row s.rlc } h)
      (appendAll_commutes _ _ { s with p := BitVec.ofNat 4 p } h)

theorem chsRow_commutes (y : Nat) : Commutes c (chsRow y) := fun s h =>
  Commutes.forEach (chsPlaneRow_commutes y) _ { s with y := BitVec.ofNat 16 y } h

theorem chsRows_commutes : Commutes c chsRows := fun s h => Commutes.forEach chsRow_commutes _ s h

theorem patchLength_commutes (ctx : Context) (off len : Nat) : Commutes c (patchLength ctx off len) := fun s h =>
  .ite Iff.rfl (twin_raiseFault _ _ _ s) (sinkPatch32_commutes ctx off len s h)

theorem chsBodyFix_commutes : Commutes c chsBodyFix := fun s h =>
  patchLength_commutes ctxBodyFix _ _ { s with phase := .bodyFix, bodyLen := sinkTell s - s.bodyStart } h

theorem chsBodyPad_commutes : Commutes c chsBodyPad := fun s h => appendAll_commutes ctxBodyFix _ s h

theorem chsBody_commutes : Commutes c chsBody := fun s h =>
  ((chsBodyHeader_commutes s h).andThen chsRows_commutes).andThen fun t ht =>
    (chsBodyFix_commutes t ht).andThen chsBodyPad_commutes

theorem chsFormFix_commutes : Commutes c chsFormFix := fun s h =>
  patchLength_commutes ctxFormFix _ _ { s with phase := .formFix, fileLen := sinkTell s } h

theorem chsWrite_commutes : Commutes c chsWrite := fun s h =>
  ((((((((chsOpen_commutes s h).andThen chsForm_commutes).andThen chsIlbm_commutes).andThen chsBmhd_commutes).andThen
    chsCamg_commutes).andThen chsCmap_commutes).andThen chsBody_commutes).andThen fun t ht =>
      (chsFormFix_commutes t ht).andThen fun _ hu => .go hu)

/-! ## Pixel encoding -/

theorem distribute_withCtrl (v : Byte) (n : Nat) (s : State) :
    distribute v n (withCtrl c s) = withCtrl c (distribute v n s) :=
  List.foldl_hom (withCtrl c) fun _ _ => rfl

theorem twin_distribute (v : Byte) (n : Nat) (h : AgreesBelowDither c s) :
    Twin c (.go (distribute v n s)) (.go (distribute v n (withCtrl c s))) := by
  rw [distribute_withCtrl]
  refine .go ?_
  rw [distribute_eq]
  exact h

theorem bpePixel_commutes (x : Nat) : Commutes c (bpePixel x) := fun s h => by
  have hsame : pixRead (withCtrl c s) x (withCtrl c s).y.toNat = pixRead s x s.y.toNat := rfl
  simp only [bpePixel, hsame]
  split
  · exact .refused _
  · exact .refused _
  · exact twin_distribute _ _ (s := { s with x := BitVec.ofNat 16 x }) h

/-- The channel that is selected does not depend on CTRL (42 R153). -/
theorem twin_hamColour (v : Rgb) (h : AgreesBelowDither c s) :
    Twin c (.go (hamColour v s)) (.go (hamColour v (withCtrl c s))) := by
  have hsame : hamSelect (quantise v.r) (quantise v.g) (quantise v.b) (withCtrl c s) =
      hamSelect (quantise v.r) (quantise v.g) (quantise v.b) s := rfl
  simp only [hamColour, hsame]
  split
  · exact twin_distribute _ _ (s := { s with hr := quantise v.r }) h
  · exact twin_distribute _ _ (s := { s with hg := quantise v.g }) h
  · exact twin_distribute _ _ (s := { s with hb := quantise v.b }) h

theorem hamPixel_commutes (x : Nat) : Commutes c (hamPixel x) := fun s h => by
  have hsame : pixRead (withCtrl c s) x (withCtrl c s).y.toNat = pixRead s x s.y.toNat := rfl
  simp only [hamPixel, hsame]
  split
  · exact .refused _
  · exact .refused _
  · exact twin_hamColour _ (s := { s with x := BitVec.ofNat 16 x }) h

theorem bpeRow_commutes (y : Nat) : Commutes c (bpeRow y) := fun s h =>
  Commutes.forEach bpePixel_commutes _ { s with y := BitVec.ofNat 16 y } h

theorem hamRow_commutes (y : Nat) : Commutes c (hamRow y) := fun s h =>
  Commutes.forEach hamPixel_commutes _
    { s with y := BitVec.ofNat 16 y, hr := Config.hamInit, hg := Config.hamInit, hb := Config.hamInit } h

theorem bpeEncode_commutes : Commutes c bpeEncode := fun s h =>
  Commutes.forEach bpeRow_commutes _ { s with pln := plnZero s.nplanes.toNat s.height.toNat s.rowbytes.toNat } h

theorem hamEncode_commutes : Commutes c hamEncode := fun s h =>
  Commutes.forEach hamRow_commutes _ { s with pln := plnZero Config.hamPlanes s.height.toNat s.rowbytes.toNat } h

theorem encodePixels_commutes : Commutes c encodePixels := fun s h =>
  .ite Iff.rfl (.refused _) (.ite (isHam_iff_withCtrl h) (hamEncode_commutes { s with phase := .pixels } h)
    (bpeEncode_commutes { s with phase := .pixels } h))

/-! ## The command -/

theorem twin_rejectConfig (cause : Cause) (v : Word) (s : State) :
    Twin c (rejectConfig cause v s) (rejectConfig cause v (withCtrl c s)) := twin_raiseFault cause {} v (drawPln s)

theorem checkChipset_commutes : Commutes c checkChipset := fun s h => by
  rw [checkChipset, checkChipset, chipset_withCtrl h]
  exact .ite Iff.rfl (.go h) (twin_rejectConfig _ _ s)

theorem checkDimensions_commutes : Commutes c checkDimensions := fun s h =>
  .ite Iff.rfl (twin_rejectConfig _ _ s) (.ite Iff.rfl (twin_rejectConfig _ _ s) (.go h))

theorem checkPalette_commutes : Commutes c checkPalette := fun s h =>
  .ite Iff.rfl (twin_rejectConfig _ _ s)
    (.ite (and_congr_left' (isHam_iff_withCtrl h)) (twin_rejectConfig _ _ s) (.go h))

theorem validate_commutes : Commutes c validate := fun s h =>
  ((checkChipset_commutes { s with phase := .validate } h).andThen checkDimensions_commutes).andThen checkPalette_commutes

theorem selectMode_withCtrl (h : AgreesBelowDither c s) : selectMode (withCtrl c s) = withCtrl c (selectMode s) := by
  rw [selectMode, planeCount_withCtrl h]
  rfl

theorem encodePixels_selectMode_commutes : Commutes c fun s => encodePixels (selectMode s) := fun s h => by
  simp only [selectMode_withCtrl h]
  exact encodePixels_commutes (selectMode s) h

theorem runEncode_commutes : Commutes c runEncode := fun s h =>
  (((validate_commutes { s with status := .busy } h).andThen encodePixels_selectMode_commutes).andThen
    chsWrite_commutes).andThen fun _ ht => .go ht

theorem Twin.outcome_next {f f' : Flow} {t : State} (h : Twin c f f') (hf : f.outcome = .next t) :
    f'.outcome = .next (withCtrl c t) := by
  cases h with
  | go _ | raised _ =>
    cases hf
    rfl
  | refused r => cases hf

theorem Twin.outcome_refused {f f' : Flow} {r : Refusal} (h : Twin c f f') (hf : f.outcome = .refused r) :
    f'.outcome = .refused r := by
  cases h with
  | go _ | raised _ => cases hf
  | refused _ => exact hf

end

theorem exec_encode_busy {s : State} (hs : s.status = .busy) : exec .encode s = .refused .hostMoveWhileBusy :=
  whenAccepted_busy (run := fun s => (runEncode s).outcome) hs

/-- ENCODE on twins: STATE decides on the acceptance of both (R196), and where they are accepted `runEncode` leads to
twins. -/
theorem exec_encode_twin {c : BitVec 10} {s : State} (h : AgreesBelowDither c s) :
    ∃ f f', Twin c f f' ∧ exec .encode s = f.outcome ∧ exec .encode (withCtrl c s) = f'.outcome := by
  have accepted : Ready s →
      ∃ f f', Twin c f f' ∧ exec .encode s = f.outcome ∧ exec .encode (withCtrl c s) = f'.outcome := fun hs =>
    ⟨_, _, runEncode_commutes s h, exec_encode hs, exec_encode (s := withCtrl c s) hs⟩
  cases hs : s.status with
  | idle => exact accepted (.inl hs)
  | done => exact accepted (.inr hs)
  | fault =>
    obtain ⟨hignored, -⟩ := workingCommandsIgnoredInFault s hs
    obtain ⟨hignored', -⟩ := workingCommandsIgnoredInFault (withCtrl c s) hs
    exact ⟨_, _, .go h, hignored, hignored'⟩
  | busy => exact ⟨_, _, .refused _, exec_encode_busy hs, exec_encode_busy (s := withCtrl c s) hs⟩

/-- Settles O50: the two runs have the same end, on twins. -/
theorem ditherHasNoEffect : Obligations.DitherHasNoEffect := by
  intro s c h
  obtain ⟨f, f', htwin, hexec, hexec'⟩ := exec_encode_twin h
  rw [hexec]
  exact ⟨fun t ht => hexec'.trans (htwin.outcome_next ht), fun r hr => hexec'.trans (htwin.outcome_refused hr)⟩

end Sys2Proof.Proofs
end

section
/-!
The statements of 60_exceptions.md: the context and the value a failed sink operation reports (R218, R230), what it leaves in
OUT (R223), what no ENCODE changes (R222), and waiting for the host (R231).

An ENCODE whose inputs are provided is the sequence of 43 R166 on the bitmap. The operations of the image are SinkOpen and
then those of the sequence on an open sink, so an operation that fails is looked up there: the first by `chsWrite_notCreated`,
any other by `chsWrite_created`.
-/
namespace Sys2Proof.Proofs

open Sys2Proof.Machine Sys2Proof.Claims

/-! ## Waiting for the host -/

/-- Settles O11: the first branch of `step`. -/
theorem waitsForTheHost : Obligations.WaitsForTheHost := by
  intro s hempty
  simp only [step, hempty]

/-! ## What ENCODE keeps -/

theorem encodeKeeps_refl (s : State) : EncodeKeeps s s :=
  ⟨rfl, rfl, rfl, rfl, rfl, rfl, rfl, rfl, rfl, rfl, rfl, rfl, rfl, rfl⟩

theorem encodeKeeps_trans {s t u : State} (h1 : EncodeKeeps s t) (h2 : EncodeKeeps t u) : EncodeKeeps s u := by
  simp only [EncodeKeeps] at *
  simpa only [h1] using h2

/-- Taking a fault keeps it (R222). -/
theorem encodeKeeps_raiseFault (c : Cause) (ctx : Context) (v : Word) {s u : State} (h : EncodeKeeps s u) :
    EncodeKeeps s (raiseFault c ctx v u) := by
  rw [raiseFault_eq_with]
  exact h

theorem encodeKeeps_of_seqFrame {s t : State} (h : SeqFrame s t) : EncodeKeeps s t := by
  rw [show t = _ from h]
  exact encodeKeeps_refl s

theorem chsWrite_keeps (s : State) : (chsWrite s).Ends (EncodeKeeps s) (EncodeKeeps s) := by
  refine (chsWrite_seqEnds s).mono (fun t ht => encodeKeeps_of_seqFrame ht.1) ?_
  rintro t ⟨c, ctx, v, u, n, rfl, hu, -⟩
  have hkeeps : EncodeKeeps s u := encodeKeeps_of_seqFrame hu
  exact encodeKeeps_raiseFault c ctx v (u := { u with freeTick := n }) hkeeps

/-- Every part of ENCODE keeps it: the checks, pixel encoding and the sequence (44 R200). -/
theorem runEncode_keeps (s : State) : (runEncode s).Ends (EncodeKeeps s) (EncodeKeeps s) := by
  by_cases hl : configLegal s = true
  · obtain ⟨-, ⟨-, hh⟩, -⟩ := configLegal_bounds hl
    rw [runEncode_legal hl]
    rcases encodePixels_cases (encodeBegun s) hh with ⟨t, hgo, hf, -, -⟩ | ⟨r, hrefused, -⟩
    · rw [hgo, andThen_go]
      have hpixels : EncodeKeeps s t := encodeKeeps_of_pixelFrame hf
      have hseq : (chsWrite t).Ends (EncodeKeeps s) (EncodeKeeps s) :=
        (chsWrite_keeps t).mono (fun _ => encodeKeeps_trans hpixels) fun _ => encodeKeeps_trans hpixels
      exact andThen_ends hseq fun _ hu => hu
    · rw [hrefused]
      trivial
  · obtain ⟨c, v, hrejected, -⟩ := runEncode_illegal hl
    have hdrawn : EncodeKeeps s (drawPln { s with status := .busy, phase := .validate }) := encodeKeeps_refl s
    rw [hrejected]
    exact encodeKeeps_raiseFault c {} v hdrawn

/-- Settles O47: an ENCODE that answers a next state was ignored, or every part of it kept what the statement lists. -/
theorem encodeFrame : Obligations.EncodeFrame := by
  intro s t h
  rcases whenAccepted_next (run := fun s => (runEncode s).outcome) h with ⟨-, hrun⟩ | ⟨-, rfl⟩
  · exact ends_of_outcome (runEncode_keeps s) hrun
  · exact encodeKeeps_refl t

/-! ## The operation that fails -/

/-- The sequence on a sink that is not created (43 R167). -/
theorem chsWrite_notCreated {u : State} (hno : firstNo 0 u.oracle) :
    chsWrite u = .raised (ioFailure ctxOpen { u with phase := .openSink, oracle := u.oracle.tail }) := by
  have hanswer : sinkAnswer u = false := firstNo_zero.mp hno
  rcases chsOpen_cases u with ⟨hyes, -⟩ | ⟨-, hopen⟩
  · rw [hanswer] at hyes
    cases hyes
  · rw [chsWrite_eq, hopen, andThen_raised]

/-- The sequence on a sink that is created, where PLN holds the bitmap and every palette entry a value. -/
theorem chsWrite_created {s u : State} (hl : configLegal s = true) (hp : paletteReady s)
    (hf : PixelFrame { encodeBegun s with phase := .pixels } u) (hpln : PlanesHold s u) (hyes : sinkAnswer u = true) :
    SinkDone (sinkOpened u) (chsWrite u) ∨ SinkFault (sinkOpened u) (chsWrite u) := by
  obtain ⟨hpal, hread⟩ := sinkOpened_reads hl hp hf hpln
  rcases chsOpen_cases u with ⟨-, hopen⟩ | ⟨hno, -⟩
  · rw [chsWrite_eq, hopen, andThen_go]
    exact chsRest_cases rfl rfl hpal hread
  · rw [hyes] at hno
    cases hno

/-- On an open sink whose operation `k` is the first to fail, the sequence neither completes nor meets a length that does
not fit, so its end is the IOFailure of that operation (R218, 20 R71, R73). -/
theorem sinkFault_of_firstNo {o : State} {f : Flow} {k : Nat} {ctx : Context} {len : Nat}
    (hend : SinkDone o f ∨ SinkFault o f) (hbody : (chsRowBytes o).length < 2 ^ 32)
    (hform : (chsUnpatched o).length - 8 < 2 ^ 32) (hno : firstNo k o.oracle)
    (hop : (chsOperations o)[k]? = some (ctx, len)) :
    ∃ val v n, f = .raised (raiseFault .ioFailure ctx val { v with freeTick := n }) ∧ ChsFrame o v ∧
      v.out.length = len ∧ v.oracle = o.oracle.drop (k + 1) ∧ (len < 2 ^ 32 → val = BitVec.ofNat 32 len) := by
  rcases hend with ⟨t, -, -, -, -, -, -, -, -, hyes, -⟩ | ⟨c, ctx', val, v, n, hraised, hframe, -, -, hcause⟩
  · obtain ⟨hk, -⟩ := List.getElem?_eq_some_iff.mp hop
    exact absurd (answersYes_not_firstNo hyes hno) (Nat.not_le.mpr hk)
  · rcases hcause with ⟨rfl, hval, j, hj, hopj, horacle⟩ | ⟨-, hover⟩
    · obtain rfl : j = k := firstNo_unique hj hno
      cases hop.symm.trans hopj
      exact ⟨val, v, n, hraised, hframe, rfl, horacle, hval⟩
    · rw [SinkOverflow] at hover
      omega

/-- The sequence of an ENCODE whose operation `k` is the first to fail: operation 0 is SinkOpen, the others are those on
the open sink (43 R166). -/
theorem chsWrite_failedOperation {s u : State} {k : Nat} {ctx : Context} {len : Nat} (hl : configLegal s = true)
    (hp : paletteReady s) (hf : PixelFrame { encodeBegun s with phase := .pixels } u) (hpln : PlanesHold s u)
    (hfits : lengthsFit s) (hfail : FailAt k s) (hop : (imageOperations s)[k]? = some (ctx, len)) :
    ∃ val v n, chsWrite u = .raised (raiseFault .ioFailure ctx val { v with freeTick := n }) ∧ EncodeKeeps s v ∧
      v.out.length = len ∧ v.oracle = s.oracle.drop (k + 1) ∧ (len < 2 ^ 32 → val = BitVec.ofNat 32 len) := by
  have horacle := pixelFrame_oracle hf
  have hno : firstNo k u.oracle := by rwa [horacle]
  rw [chsOperations_image hl hp hf hpln] at hop
  rw [← horacle]
  cases k with
  | zero =>
    obtain ⟨rfl, rfl⟩ : ctxOpen = ctx ∧ s.out.length = len := by simpa using hop
    have hout : u.out = s.out := by rw [hf]; rfl
    have hpixels : EncodeKeeps s u := encodeKeeps_of_pixelFrame hf
    obtain ⟨val, n, hfailure, hval⟩ := ioFailure_eq ctxOpen { u with phase := .openSink, oracle := u.oracle.tail }
    rw [chsWrite_notCreated hno, hfailure, ← hout]
    exact ⟨val, _, n, rfl, hpixels, rfl, List.drop_one.symm, fun h => (hval h).1⟩
  | succ j =>
    obtain ⟨hyes, hno'⟩ := firstNo_succ.mp hno
    obtain ⟨hbody, -, hunpatched, -⟩ := chsFile_is_imageFile hl hp hf hpln
    obtain ⟨hbodyFits, hformFits⟩ := hfits
    obtain ⟨val, v, n, hraised, hframe, hlen, hused, hval⟩ := sinkFault_of_firstNo (o := sinkOpened u)
      (chsWrite_created hl hp hf hpln hyes) (by rwa [hbody]) (by rwa [hunpatched]) hno' hop
    obtain ⟨hkeeps, -⟩ := sequence_keeps hf hframe
    exact ⟨val, v, n, hraised, hkeeps, hlen, hused.trans List.drop_tail, hval⟩

/-- Settles O42: the fault the sequence raises, register by register. -/
theorem failedOperationGivesItsContext : Obligations.FailedOperationGivesItsContext := by
  intro s k ctx len hs hl hr hp hfits hfail hop
  obtain ⟨u, hf, hpln, hexec⟩ := exec_encode_legal hs hl hr
  obtain ⟨val, v, n, hraised, hkeeps, hlen, hused, hval⟩ := chsWrite_failedOperation hl hp hf hpln hfits hfail hop
  rw [hraised, raiseFault_eq_with] at hexec
  exact ⟨_, hexec, rfl, rfl, rfl, rfl, rfl, hlen, hval, rfl, rfl, hused, hkeeps⟩

/-! ## OUT after a failure -/

/-- Bytes that agree with what the sequence writes agree with the file of the image, whose length fields stand at 4 and
after the tag of BODY (43 R185, 20 R76). -/
theorem imageFile_agrees {s u : State} {out : List Byte} (hl : configLegal s = true) (hp : paletteReady s)
    (hf : PixelFrame { encodeBegun s with phase := .pixels } u) (hpln : PlanesHold s u)
    (hagrees : AgreesOutsideLengths (sinkOpened u) out) :
    out.length ≤ (imageFile s).length ∧
    ∀ k < out.length, ¬ (4 ≤ k ∧ k < 8) →
      ¬ (52 + (if isHam s then 12 else 0) + 3 * cmapCount s ≤ k ∧
        k < 56 + (if isHam s then 12 else 0) + 3 * cmapCount s) →
      out[k]? = (imageFile s)[k]? := by
  obtain ⟨-, hfile, -, hhead, -⟩ := chsFile_is_imageFile hl hp hf hpln
  obtain ⟨hlen, hget⟩ := hagrees
  rw [hfile] at hlen hget
  refine ⟨hlen, fun k hk hformField hbodyField => hget k hk hformField ?_⟩
  rw [hhead]
  omega

/-- Settles O44: a fault of ENCODE whose chunk is not OPEN came from the sequence on an open sink. -/
theorem failedEncodeKeepsAPrefix : Obligations.FailedEncodeKeepsAPrefix := by
  intro s t hs hl hr hp hnext hstatus hchunk
  obtain ⟨u, hf, hpln, hexec⟩ := exec_encode_legal hs hl hr
  rw [hexec] at hnext
  rcases chsWrite_cases hl hp hf hpln with ⟨v, hraised⟩ | ⟨w, hgo, -⟩ | ⟨c, ctx, val, v, n, hraised, -, hagrees, -⟩
  · obtain ⟨val, n, hfailure, -⟩ := ioFailure_eq ctxOpen v
    rw [hraised, hfailure] at hnext
    cases hnext
    exact absurd rfl hchunk
  · rw [hgo] at hnext
    cases hnext
    cases hstatus
  · rw [hraised, raiseFault_eq_with] at hnext
    cases hnext
    exact imageFile_agrees hl hp hf hpln hagrees

end Sys2Proof.Proofs
end

section
/-!
The statements of 70_reset_and_hazards.md: what a hardware reset leaves in every register and memory, and that the state it
starts from is quiescent (R245).
-/
namespace Sys2Proof.Proofs

open Sys2Proof.Machine Sys2Proof.Claims

/-- Settles O56: a hardware reset is an access of the port, and `hardwareReset` takes OUT and the raster from the state it is
given and every other field of the statement from the reset state. -/
theorem hardwareResetState : Obligations.HardwareResetState := by
  intro s rest hs hp
  refine ⟨hardwareReset { s with pending := rest }, step_access hs hp rfl, ?_⟩
  and_intros <;> rfl

/-- Settles O59: STATE is IDLE and every register 0, and of a queue, a memory or a range without elements there is nothing to
show. -/
theorem resetIsQuiescent : Obligations.ResetIsQuiescent where
  hostOnly := nofun
  notBusy := nofun
  phaseIdle := rfl
  sinkReleased := rfl
  noContext _ := ⟨rfl, rfl, rfl, rfl, rfl⟩
  causeKnown := nofun
  atEnd := rfl
  pixWf := .nil
  palWf := .nil
  plnWf := .nil
  rowinWf := .nil
  rowoutWf := .nil
  pixInside := nofun
  pixInRaster := nofun
  plnInside := nofun
  palInside := nofun
  rowinInside := nofun
  rowoutInside := nofun
  rowoutDefined := nofun
  planesBound := Nat.zero_le _
  rowbytesBound := Nat.zero_le _
  rowbytesEven := rfl

end Sys2Proof.Proofs
end

section
/-!
The model's unit port runs the element whose encoding it holds (log 2), whatever STATE is.
-/
namespace Sys2Proof.Proofs

open Sys2Proof.Machine

/-- The unit port is no move of the host, so it is not refused in BUSY and keeps the oracle's answers; what it runs is what
its bytes decode to (log 2). -/
theorem perform_unit_of_decode {sp : CodeSpace} {bytes tail : List Byte} {i : Instr}
    (h : decode sp bytes = .ok (i, tail)) (s : State) : perform (.unit sp bytes) s = exec i s := by
  have hport : perform (.unit sp bytes) s = runFetched (.unit sp bytes) sp bytes s := if_neg (nofun)
  rw [hport, runFetched, h]
  rfl

/-- Settles O5: the encoding with nothing after it decodes to the element (R91 to R99), and the port runs that. -/
theorem stepRunsTheEncodedElement : Obligations.StepRunsTheEncodedElement := by
  intro s i rest hw hp
  have hdecode : decode i.space (encode i) = .ok (i, []) := by
    simpa using decodeOfEncodeIsTheInstruction i [] hw
  rw [step, hp]
  exact perform_unit_of_decode hdecode { s with pending := rest }

end Sys2Proof.Proofs
end
